-- ==== Sys2Proof/Word.lean ====
section
/-! DEFINITION. The block's plain word types (spec/00_scope.md R5, R8): unsigned bit vectors, bit 0 the least significant. -/
namespace Sys2Proof

/-- `u8`: one RAM, ROM or key-matrix byte (R8). -/
abbrev Byte := BitVec 8

/-- `u16`: a CPU address or an array offset, always in 0..65535 (R5, R68). -/
abbrev Addr := BitVec 16

/-- One command word `W` (spec/30_encoding.md R66). -/
abbrev Word := BitVec 32

/-- One value of the engine-control port, format `C` (spec/30_encoding.md R75). -/
abbrev Strobe := BitVec 3

/-- One response word `Q`: `ERR` in bit 8, `V` in bits 7..0 (spec/30_encoding.md R74). -/
abbrev Response := BitVec 9

end Sys2Proof
end

