-- ==== Sys2Proof/Config.lean ====
section
/-! DEFINITION. What an implementation fixes (spec/00_scope.md R6, spec/43_machine_control.md R121) and the free values:
the parameters of the decode and the timer, the external engine, and the opaque constants no proof can see through. -/
namespace Sys2Proof

/-- The open parameters of R6. Their defaults are in Machine/Constants.lean, their constraints (R7) in WellFormed.lean. -/
structure Params where
  /-- `BASIC_BASE` -/
  basicBase : Addr
  /-- `KERNEL_BASE` -/
  kernelBase : Addr
  /-- `CHARGEN_BASE`: a ROM-array offset, no CPU window -/
  chargenBase : Addr
  /-- `KBD_DATA_ADDR` -/
  kbdDataAddr : Addr
  /-- `KBD_ROWSEL_ADDR` -/
  kbdRowselAddr : Addr
  /-- `IRQ_EN_ADDR` -/
  irqEnAddr : Addr
  /-- `IRQ_EN_BIT`, 0 to 7 -/
  irqEnBit : BitVec 3
  /-- `RESET_ITER_POLLS_TIMER` -/
  resetIterPollsTimer : Bool
  deriving DecidableEq, Repr

/-- The four operations of the external engine (R121). -/
inductive EngineOp where
  | step
  | reset
  | irq
  | nmi
  deriving DecidableEq, Repr

/-- The engine's state `E`. R121 says nothing of what it is: `core` stands for all of it, as one number. The four counters
are those of the test engines of spec/95_test_vectors.md section 0; an external engine may use all five as it likes. -/
structure EngineState where
  nStep : Nat
  nReset : Nat
  nIrq : Nat
  nNmi : Nat
  core : Nat
  deriving DecidableEq, Repr, Inhabited

/-- One engine operation from where it stands: a finite tree of bus transactions, each next one depending on the bytes the
earlier reads returned, that ends in a new engine state (R121, D25). Being an inductive type, every path through it is finite. -/
inductive EngineProg where
  | ret (e : EngineState)
  | read (a : Addr) (k : Byte → EngineProg)
  | write (a : Addr) (v : Byte) (k : EngineProg)
  deriving Inhabited

/-- One bus transaction of a scripted engine. -/
inductive BusOp where
  | read (a : Addr)
  | write (a : Addr) (v : Byte)
  deriving DecidableEq, Repr

/-- `ScriptedEngine(steps, reset, irq)` of spec/95_test_vectors.md section 0 (D36), with a list for `nmi` (vector H8). -/
structure EngineScript where
  steps : List (List BusOp)
  reset : List BusOp
  irq : List BusOp
  nmi : List BusOp
  deriving DecidableEq, Repr

/-- Which engine is attached (R6, parameter `Engine`): any engine at all, or one of the spec's test engines.
The empty script is `NullEngine`. -/
inductive EngineKind where
  | external
  | scripted (sc : EngineScript)
  deriving DecidableEq, Repr

/-- FREE VALUE (notes/assumptions/1.md). The external engine: what each operation does when started in a given engine state.
It has no body, so a claim about it holds for every engine that meets R121. -/
opaque Config.engine : EngineOp → EngineState → EngineProg

/-- FREE VALUE (notes/assumptions/2.md). What is left of an engine operation once another one overlaps it (R197, U5):
some finite sequence of transactions that ends in some engine state. -/
opaque Config.overlapProg : Nat → EngineProg

/-- FREE VALUE (notes/assumptions/3.md). The microseconds from one time sample to the next when the host supplies none:
never negative, so successive samples are non-decreasing (R21, D15). -/
opaque Config.clockAdvance : Nat → Nat

/-- FREE VALUE (notes/assumptions/4.md). The order in which a zero-fill visits the 65536 addresses (R57, D31, U14). -/
opaque Config.fillOrder : Nat → Equiv.Perm Addr

end Sys2Proof
end

