-- ==== Sys2Proof/Machine/Constants.lean ====
section
/-! DEFINITION. The numbers of the spec: the document's own literals (spec/00_scope.md R5; one constant each, as
spec/93_implementation_defined.md U4 asks) and the defaults of the open parameters (R6). -/
namespace Sys2Proof.Machine

/-- Size of `RAM`, of `ROM` and of the CPU address space (R5, R13, R14, R40). -/
def arraySize : Nat := 65536

/-- `BASIC_SIZE` (R6). -/
def basicSize : Nat := 8192

/-- `KERNEL_SIZE` (R6). -/
def kernelSize : Nat := 8192

/-- `CHARGEN_SIZE` (R6). -/
def chargenSize : Nat := 4096

/-- `THRESHOLD_US` (R6, R110). -/
def thresholdUs : Nat := 16666

/-- The defaults of R6 (decisions D4, D6, D7, D8, D17). -/
def defaultParams : Params :=
  { basicBase := 0xA000
    kernelBase := 0xE000
    chargenBase := 0xD000
    kbdDataAddr := 0xDC01
    kbdRowselAddr := 0xDC00
    irqEnAddr := 0xDC0D
    irqEnBit := 0
    resetIterPollsTimer := false }

end Sys2Proof.Machine
end

