-- ==== Sys2Proof/Syntax.lean ====
section
/-! DEFINITION. The operations of the block (spec/30_encoding.md R67, R75): one constructor per row of spec/opcode_table.json,
the ports they travel on (R65), and the raw words as they stand on a port (R66, R75). -/
namespace Sys2Proof

/-- The sixteen operations. Operand types are exactly the encoded fields (R68, R69, R71, R72), so an address beyond 16 bits or
a coordinate outside 0..7 is not a term (spec/93_implementation_defined.md U2). -/
inductive Instr where
  /-- `BUS_READ`: the document's `read(address)` (R86). -/
  | busRead (addr : Addr)
  /-- `BUS_WRITE`: `write(address, value)` (R89). -/
  | busWrite (addr : Addr) (value : Byte)
  /-- `PEEK_RAM`: the RAM accessor (R91). -/
  | peekRam (offset : Addr)
  /-- `PEEK_ROM`: the ROM accessor (R92). -/
  | peekRom (offset : Addr)
  /-- `KEY_SET`: `set_key_state(coordinate, pressed)` (R101). -/
  | keySet (row col : BitVec 3) (pressed : Bool)
  /-- `KEY_GET`: `get_key_state(coordinate) -> bool` (R102). -/
  | keyGet (row col : BitVec 3)
  /-- `KEY_SCAN`: `scan(row_select_mask) -> byte` (R103). -/
  | keyScan (mask : Byte)
  /-- `INIT`: `initialize(rom_images)`; the images are side-band inputs (R73, R123). -/
  | init
  /-- `REQ_RESET`: `request_reset()` (R126). -/
  | reqReset
  /-- `REQ_PAUSE`: `request_pause(bool)` (R127). -/
  | reqPause (p : Bool)
  /-- `REQ_STOP`: `request_stop()` (R128). -/
  | reqStop
  /-- `SET_DEBUG`: the debug-log toggle (R129). -/
  | setDebug (b : Bool)
  /-- `ITER`: one loop iteration (R135). -/
  | iter
  /-- `ENG_STEP`: the strobe that invokes the engine's `step` (R138). -/
  | engStep
  /-- `ENG_RESET`: the strobe that invokes the engine's `reset` (R139). -/
  | engReset
  /-- `ENG_IRQ`: the strobe that invokes the engine's `irq` (R140). -/
  | engIrq
  deriving DecidableEq, Repr

/-- Where a word stands (R65): the two command ports, the sequencer's own line in a script (R67: `ITER` is accepted on no
port), and the engine-control port. -/
inductive Source where
  | engine
  | host
  | sequencer
  | control
  deriving DecidableEq, Repr

/-- The bits of one operation: format `W`, 32 bits (R66), or format `C`, 3 bits (R75). -/
inductive RawWord where
  | w (word : Word)
  | c (strobe : Strobe)
  deriving DecidableEq, Repr

end Sys2Proof
end

