-- ==== Sys2Proof/WellFormed.lean ====
section
/-! DEFINITION. What is well-formed: a parameter assignment (spec/00_scope.md R7), a configuration that carries the proof
of it, and an operation on the port it arrives on (spec/30_encoding.md R77, R84). -/
namespace Sys2Proof

/-- The interval `[base, base + size)` of offsets holds `a`. -/
def inBlock (base size : Nat) (a : Nat) : Bool := base ≤ a && a < base + size

/-- Two intervals of offsets have no point in common. -/
def blocksApart (base1 size1 base2 size2 : Nat) : Bool :=
  base1 + size1 ≤ base2 || base2 + size2 ≤ base1

/-- R7: no block wraps past 65535. -/
def Params.blocksFit (p : Params) : Bool :=
  p.basicBase.toNat + Machine.basicSize ≤ Machine.arraySize
    && p.kernelBase.toNat + Machine.kernelSize ≤ Machine.arraySize
    && p.chargenBase.toNat + Machine.chargenSize ≤ Machine.arraySize

/-- R7: the two ROM windows are disjoint. -/
def Params.windowsApart (p : Params) : Bool :=
  blocksApart p.basicBase.toNat Machine.basicSize p.kernelBase.toNat Machine.kernelSize

/-- R7: `KBD_DATA_ADDR` lies in neither window. -/
def Params.keyboardOutside (p : Params) : Bool :=
  !inBlock p.basicBase.toNat Machine.basicSize p.kbdDataAddr.toNat
    && !inBlock p.kernelBase.toNat Machine.kernelSize p.kbdDataAddr.toNat

/-- R7: the character-generator block meets neither of the other two ROM-array blocks. -/
def Params.chargenApart (p : Params) : Bool :=
  blocksApart p.basicBase.toNat Machine.basicSize p.chargenBase.toNat Machine.chargenSize
    && blocksApart p.kernelBase.toNat Machine.kernelSize p.chargenBase.toNat Machine.chargenSize

/-- The constraints every parameter assignment must meet (R7). -/
def Params.legal (p : Params) : Bool :=
  p.blocksFit && p.windowsApart && p.keyboardOutside && p.chargenApart

/-- A configuration: legal parameters and an engine (R6). It carries the proof, so a configuration that breaks a constraint
of R7 cannot be built. -/
structure Configuration where
  params : Params
  engine : EngineKind
  legal : params.legal = true
  deriving DecidableEq, Repr

/-- "A model must refuse a configuration that breaks a constraint" (R7). -/
def Configuration.make? (p : Params) (engine : EngineKind) : Option Configuration :=
  if h : p.legal = true then some ⟨p, engine, h⟩ else none

/-- The port each operation belongs to (R65, R67, R75). -/
def Instr.source : Instr → Source
  | .busRead _ | .busWrite _ _ => .engine
  | .peekRam _ | .peekRom _ | .keySet _ _ _ | .keyGet _ _ | .keyScan _ => .host
  | .init | .reqReset | .reqPause _ | .reqStop | .setDebug _ => .host
  | .iter => .sequencer
  | .engStep | .engReset | .engIrq => .control

/-- An operation may stand only on its own port (R77, R84). Every other check of an operation is in its operand types. -/
def Instr.wellFormedOn (i : Instr) (src : Source) : Bool := i.source == src

end Sys2Proof
end

