-- ==== Sys2Proof/Machine/State.lean ====
section
/-! DEFINITION. The state of the block as plain data (spec/10_state.md R13 to R37), with the position of each thread inside
what it is doing (R17, R57), the inputs waiting and the outputs given; the power-on state (R34); faults and refusals. -/
namespace Sys2Proof.Machine

/-- Bytes at addresses, the form of `RAM` and of `ROM` (R13, R14): addresses strictly rising, and no entry equal to what an
unlisted address reads as, which is zero (R34, D11; notes/assumptions/7.md). -/
abbrev Memory := List Host.Cell

/-- The firmware images as they stand at the side-band inputs of `INIT` (R73): each a finite byte sequence, or absent. -/
structure Images where
  basic : Option (List Byte)
  kernel : Option (List Byte)
  chargen : Option (List Byte)
  deriving DecidableEq, Repr

/-- The three blocks of the ROM array (R6, R14), in the order of R73. -/
inductive RomBlock where
  | basic
  | kernel
  | chargen
  deriving DecidableEq, Repr

/-- One record of the trace output (R171). -/
inductive TraceRec where
  /-- `(READ, a, v)` -/
  | read (a : Addr) (v : Byte)
  /-- `(WRITE, a, v)` -/
  | write (a : Addr) (v : Byte)
  /-- `(STEP)`: its payload is opaque (R138), so none is held. -/
  | step
  deriving DecidableEq, Repr

/-- Which transactions an engine operation makes: those of its own program from the engine state it started in (R121), or,
once another operation has overlapped it, a free program (R197; notes/assumptions/2.md). -/
inductive ProgRef where
  | called (op : EngineOp) (e : EngineState)
  | free (draw : Nat)
  deriving DecidableEq, Repr

/-- Where an engine operation stands inside its current bus transaction (R57, R87). -/
inductive BusPos where
  /-- Between two transactions. -/
  | idle
  /-- Keyboard-port read: the mask is read, rows below `r` are in `acc`; at `r = 8` only the mirror store is left. -/
  | scan (m acc : Byte) (r : Nat)
  /-- The access is done; what is left is to trace it and to answer `v`. -/
  | emit (rec : TraceRec) (v : Byte)
  deriving DecidableEq, Repr

/-- An engine operation in progress: the byte `V` answered to each transaction completed so far and the place inside the
next one. -/
structure EngineRun where
  op : EngineOp
  prog : ProgRef
  answers : List Byte
  bus : BusPos
  deriving DecidableEq, Repr

/-- The sequencer's position inside one iteration: the index of the next action of R135 (R17). A flag value that an iteration
has read is held by the position it led to. -/
inductive LoopPos where
  /-- A0, A1: `F.quit` is read next. -/
  | top
  /-- A1: `F.quit` was 1; `STOPPED` is set next. -/
  | stopping
  /-- A2: `F.reset` is read next. -/
  | a2
  /-- A3: `k` bytes of the zero-fill are written, in fill order number `order`. -/
  | fill (k order : Nat)
  /-- The strobe of `op` is issued next: A4, the strobe of A8, that of `TimerPoll`. -/
  | start (op : EngineOp)
  /-- The engine performs an operation; the sequencer waits for its completion (R75). -/
  | inEngine (run : EngineRun)
  /-- A5: `F.reset` is cleared next. -/
  | a5
  /-- A6: `F.paused` is read next. -/
  | a6
  /-- A6, A7 with `F.paused` read as 1: the clock is sampled and `LFT` reloaded next. -/
  | reload
  /-- A7: `F.paused` is read next. -/
  | a7
  /-- A8: the `(STEP)` record next, then the strobe. -/
  | a8
  /-- A9 (or A6): the clock is sampled, compared and `LFT` reloaded if due. -/
  | poll
  /-- `TimerPoll`: the threshold was reached and `LFT` reloaded; the gate is read next (R112). -/
  | gate
  deriving DecidableEq, Repr

/-- Where an `INIT` in progress stands (R57, R123). -/
inductive InitPos where
  /-- `k` bytes of the `RAM` zero-fill are written, in fill order number `order`. -/
  | ramFill (k order : Nat)
  /-- `k` bytes of the `ROM` zero-fill are written, in fill order number `order`. -/
  | romFill (k order : Nat)
  /-- Byte `i` of an image is copied next. -/
  | copy (block : RomBlock) (i : Nat)
  /-- `INITED` is set next. -/
  | flag
  deriving DecidableEq, Repr

/-- An operation of the host that is in progress, between two of its element accesses; other operations of the host may fall
there (R57). -/
inductive HostCall where
  /-- An `INIT`, with the images it was given (R73, R123). -/
  | init (im : Images) (pos : InitPos)
  /-- An `nmi` that the host invoked on the engine (R122, R155). -/
  | nmi (run : EngineRun)
  /-- A `KEY_SCAN` with mask `m`: rows below `r` are in `acc` (R103). -/
  | keyScan (m acc : Byte) (r : Nat)
  deriving DecidableEq, Repr

/-- One thing the outside world makes happen (R11, R65). The list of them in `State.inbox` is the order in which agents move:
a claim about every state is a claim about every order (R56). -/
inductive Event where
  /-- A word stands on a port, or on the sequencer's line of a script (R82), and is carried out to its end. -/
  | line (src : Source) (raw : RawWord)
  /-- The host sets the side-band inputs of `INIT` (R73). -/
  | images (im : Images)
  /-- The time input shows `t` microseconds (R21, R73): what the next sample reads. -/
  | now (t : Nat)
  /-- The host invokes the engine's `nmi`, and it runs to its end (R122). -/
  | nmi
  /-- The host begins an `nmi` that other operations may interleave with (R57, R197). -/
  | beginNmi
  /-- The host begins an `INIT` that other operations may interleave with (R57, R194, R195). -/
  | beginInit
  /-- The host begins a `KEY_SCAN` that other operations may interleave with (R57). -/
  | beginKeyScan (mask : Byte)
  /-- The loop thread makes its next element access (R57, R135). -/
  | loopTurn
  /-- The `k`-th operation that the host has in progress makes its next element access (R57). -/
  | callTurn (k : Nat)
  deriving DecidableEq, Repr

/-- The state of the block, of its ports, and of what surrounds it. -/
structure State where
  /-- `RAM` (R13). -/
  ram : Memory
  /-- `ROM` (R14). -/
  rom : Memory
  /-- `KM[0..7]` (R15). -/
  km : Vector Byte 8
  /-- `LFT`, microseconds (R16). -/
  lft : Nat
  /-- `F.reset` (R18). -/
  fReset : Bool
  /-- `F.paused` (R19). -/
  fPaused : Bool
  /-- `F.quit` (R20). -/
  fQuit : Bool
  /-- `F.debug` (R24). -/
  fDebug : Bool
  /-- `INITED` (R22). -/
  inited : Bool
  /-- `STOPPED` (R23). -/
  stopped : Bool
  /-- The sequencer's position (R17). -/
  loop : LoopPos
  /-- The host waits inside `REQ_STOP` for `STOPPED = 1` (R128). -/
  waitStop : Bool
  /-- The host's operations in progress, oldest first (R57, R122, R123). -/
  calls : List HostCall
  /-- The trace output so far, oldest first (R65, R171). -/
  trace : List TraceRec
  /-- The values the engine-control port has shown so far, oldest first; it is idle, `000`, before the first (R75). -/
  control : List Strobe
  /-- The last response on the host port; none when the last command has not been answered (R74). -/
  hostResp : Option Response
  /-- The last response on the engine port (R74). -/
  engineResp : Option Response
  /-- The side-band inputs of `INIT` (R73). -/
  images : Images
  /-- The external engine's state `E` (R121). -/
  eng : EngineState
  /-- The last time sample, or the construction time before any (R21). -/
  clock : Nat
  /-- What the time input shows, in microseconds after the last sample; none when the environment has not said, or the value has
  been sampled (R21, R73). -/
  timeIn : Option Nat
  /-- The model's own: what happens next, first first (R11, R56). -/
  inbox : List Event
  /-- The model's own: how many free values have been drawn. -/
  draws : Nat
  /-- The model's own: the configuration (R6), which nothing writes. -/
  cfg : Configuration
  deriving DecidableEq, Repr

/-- Why the machine stops with a fault: never. "No behaviour of the block is `fault`" (spec/93_implementation_defined.md
part 1; R144, R152), so this type has no constructor. -/
inductive Fault where
  deriving DecidableEq, Repr

/-- Why the model gives a step no meaning. -/
inductive Refusal where
  /-- Raised by an arm of `exec` whose instruction has no meaning yet; safe. No arm raises it in this model. -/
  | notModelled (mnemonic : String)
  /-- Raised when `INIT` meets an engine step in progress on the loop thread: "undefined" (R124 (a), U1: "a model refuses it");
  safe. -/
  | initDuringStep
  /-- Raised when a word stands where it cannot stand: a word other than `ITER` on the sequencer's line, or a value other than
  a strobe or idle on the engine-control port ("Any other value never occurs", R75; "no port accepts it", R65); safe. -/
  | notOnThisLine
  /-- Raised when the time input shows a time before the last sample: "a clock that steps backwards" (U15, R117); safe. -/
  | clockSteppedBack
  /-- Raised when a strobe stands on the engine-control port while one is active: "At most one strobe is active at a time; the
  sequencer waits for the engine's completion" (R75); safe. The sequencer itself never does so. -/
  | strobeActive
  deriving DecidableEq, Repr

/-- The default configuration (R6): the default parameters and an arbitrary external engine. -/
def defaultConfiguration : Configuration := ⟨defaultParams, .external, by decide⟩

/-- Power-on (R34, R180), with the construction time as the origin of time (notes/assumptions/6.md). -/
def State.reset : State :=
  { ram := []
    rom := []
    km := Vector.replicate 8 0xFF
    lft := 0
    fReset := true
    fPaused := true
    fQuit := false
    fDebug := false
    inited := false
    stopped := false
    loop := .top
    waitStop := false
    calls := []
    trace := []
    control := []
    hostResp := none
    engineResp := none
    images := ⟨none, none, none⟩
    eng := ⟨0, 0, 0, 0, 0⟩
    clock := 0
    timeIn := none
    inbox := []
    draws := 0
    cfg := defaultConfiguration }

end Sys2Proof.Machine
end

