-- ==== Sys2Proof/Machine/Ops.lean ====
section
/-! DEFINITION. The named operations over memory, registers, flags and ports that every meaning is written with. The block takes
no trap of its own (spec/60_exceptions.md R152, R161): its one error and its refusals are answers on a port, given here once. -/
namespace Sys2Proof.Machine

/-! ### Memory -/

/-- The array whose every byte is zero (R34). -/
def Memory.zero : Memory := []

/-- The byte at an address; zero where none is listed. -/
def Memory.read : Memory → Nat → Byte
  | [], _ => 0
  | (b, w) :: m, a => if a = b then w else Memory.read m a

/-- One byte written, the form kept: a written zero lists nothing. -/
def Memory.write : Memory → Nat → Byte → Memory
  | [], a, v => if v = 0 then [] else [(a, v)]
  | (b, w) :: m, a, v =>
    if a < b then (if v = 0 then (b, w) :: m else (a, v) :: (b, w) :: m)
    else if a = b then (if v = 0 then m else (a, v) :: m)
    else (b, w) :: Memory.write m a v

/-- The form holds from address `lo` on: strictly rising addresses below `arraySize`, and no entry zero. -/
def Memory.wfFrom (lo : Nat) : Memory → Bool
  | [] => true
  | (a, v) :: m => decide (lo ≤ a) && decide (a < arraySize) && (v != 0) && Memory.wfFrom (a + 1) m

/-- The canonical form of a memory. -/
def Memory.wf (m : Memory) : Bool := Memory.wfFrom 0 m

/-- Byte `i` of `bs` written to `base + i`, for every `i` (R50). The order does not show in the result (R57). -/
def Memory.writeBytes (base : Addr) : List Byte → Memory → Memory
  | [], m => m
  | b :: bs, m => Memory.write (Memory.writeBytes (base + 1) bs m) base.toNat b

/-- The address a zero-fill in order number `order` visits as its `k`-th (R57, notes/assumptions/4.md). -/
def fillAddr (order k : Nat) : Addr := Config.fillOrder order (BitVec.ofNat 16 k)

/-- What a zero-fill in order number `order` leaves to zero after `k` bytes becomes zero. -/
def Memory.clearFrom (order k : Nat) (m : Memory) : Memory :=
  m.filter (fun c => decide (((Config.fillOrder order).symm (BitVec.ofNat 16 c.1)).toNat < k))

/-! ### One update per field -/

/-- The state with `RAM` replaced. -/
def State.setRam (s : State) (x : Memory) : State := { s with ram := x }

/-- The state with `ROM` replaced. -/
def State.setRom (s : State) (x : Memory) : State := { s with rom := x }

/-- The state with `KM` replaced. -/
def State.setKm (s : State) (x : Vector Byte 8) : State := { s with km := x }

/-- The state with `LFT` replaced. -/
def State.setLft (s : State) (x : Nat) : State := { s with lft := x }

/-- The state with `F.reset` replaced. -/
def State.setReset (s : State) (x : Bool) : State := { s with fReset := x }

/-- The state with `F.paused` replaced. -/
def State.setPaused (s : State) (x : Bool) : State := { s with fPaused := x }

/-- The state with `F.quit` replaced. -/
def State.setQuit (s : State) (x : Bool) : State := { s with fQuit := x }

/-- The state with `F.debug` replaced. -/
def State.setDebug (s : State) (x : Bool) : State := { s with fDebug := x }

/-- The state with `INITED` replaced. -/
def State.setInited (s : State) (x : Bool) : State := { s with inited := x }

/-- The state with `STOPPED` replaced. -/
def State.setStopped (s : State) (x : Bool) : State := { s with stopped := x }

/-- The state with the sequencer's position replaced. -/
def State.setLoop (s : State) (x : LoopPos) : State := { s with loop := x }

/-- The state with the wait of `REQ_STOP` replaced. -/
def State.setWaitStop (s : State) (x : Bool) : State := { s with waitStop := x }

/-- The state with the host's operations in progress replaced. -/
def State.setCalls (s : State) (x : List HostCall) : State := { s with calls := x }

/-- The state with the trace output replaced. -/
def State.setTrace (s : State) (x : List TraceRec) : State := { s with trace := x }

/-- The state with the engine-control port replaced. -/
def State.setControl (s : State) (x : List Strobe) : State := { s with control := x }

/-- The state with the host port's response replaced. -/
def State.setHostResp (s : State) (x : Option Response) : State := { s with hostResp := x }

/-- The state with the engine port's response replaced. -/
def State.setEngineResp (s : State) (x : Option Response) : State := { s with engineResp := x }

/-- The state with the side-band images replaced. -/
def State.setImages (s : State) (x : Images) : State := { s with images := x }

/-- The state with the engine's state replaced. -/
def State.setEng (s : State) (x : EngineState) : State := { s with eng := x }

/-- The state with the last time sample replaced. -/
def State.setClock (s : State) (x : Nat) : State := { s with clock := x }

/-- The state with the time input replaced. -/
def State.setTimeIn (s : State) (x : Option Nat) : State := { s with timeIn := x }

/-- The state with the events to come replaced. -/
def State.setInbox (s : State) (x : List Event) : State := { s with inbox := x }

/-- The state with the count of draws replaced. -/
def State.setDraws (s : State) (x : Nat) : State := { s with draws := x }

/-! ### Arrays and registers -/

/-- `RAM[a]`, read directly (R41). -/
def State.readRam (s : State) (a : Addr) : Byte := s.ram.read a.toNat

/-- `ROM[a]`, read directly (R42). -/
def State.readRom (s : State) (a : Addr) : Byte := s.rom.read a.toNat

/-- `RAM[a] <- v` (R13). -/
def State.writeRam (s : State) (a : Addr) (v : Byte) : State := s.setRam (s.ram.write a.toNat v)

/-- `ROM[a] <- v`: `INIT` only (R14). -/
def State.writeRom (s : State) (a : Addr) (v : Byte) : State := s.setRom (s.rom.write a.toNat v)

/-- `KM[r]` (R15). -/
def State.kmRow (s : State) (r : BitVec 3) : Byte := s.km[r.toNat]'(r.isLt)

/-- `KM[r] <- v` (R15). -/
def State.setKmRow (s : State) (r : BitVec 3) (v : Byte) : State := s.setKm (s.km.set r.toNat v (r.isLt))

/-! ### Outputs -/

/-- `Trace(rec)`: a record when `F.debug = 1`, nothing otherwise (R10, R171). -/
def State.traceRec (s : State) (rec : TraceRec) : State :=
  if s.fDebug then s.setTrace (s.trace ++ [rec]) else s

/-- The engine-control port shows `c` (R75). -/
def State.showControl (s : State) (c : Strobe) : State := s.setControl (s.control ++ [c])

/-- `Q` of a command that succeeded, `V` its result (R74). -/
def okResponse (v : Byte) : Response := (0#1) ++ v

/-- `Q` of a command that was refused or failed, `V` the code (R74). -/
def errResponse (code : Byte) : Response := (1#1) ++ code

/-- `INIT` not admitted (R124, R151). -/
def notAdmitted : Response := errResponse 0xFD

/-- Reserved or malformed word, or a command on the wrong port (R77, R78, R151). -/
def malformed : Response := errResponse 0xFE

/-- A command after `STOPPED = 1` (R143, R151). -/
def afterStop : Response := errResponse 0xFF

/-- A response on the host port. -/
def State.respondHost (s : State) (q : Response) : State := s.setHostResp (some q)

/-- A response on the engine port. -/
def State.respondEngine (s : State) (q : Response) : State := s.setEngineResp (some q)

/-- A host-port command: refused after `STOPPED = 1` (R143), else its own effect. -/
def State.onHost (s : State) (k : Host.Outcome State Fault Refusal) : Host.Outcome State Fault Refusal :=
  if s.stopped then .next (s.respondHost afterStop) else k

/-- `raise ConfigError(code)`: ends an `INIT` with an error response and no other change (R10, R150). -/
def State.raiseConfigError (s : State) (code : Byte) : State := s.respondHost (errResponse code)

/-- A word refused at a command port: no state but the response changes, and nothing is traced (R77, R151). After
`STOPPED = 1` every command is answered as R143 says (notes/assumptions/9.md). -/
def State.refuseWord (s : State) (port : Source) : Host.Outcome State Fault Refusal :=
  match port with
  | .engine => .next (s.respondEngine (if s.stopped then afterStop else malformed))
  | .host => .next (s.respondHost (if s.stopped then afterStop else malformed))
  | .sequencer => .refused .notOnThisLine
  | .control => .refused .notOnThisLine

/-! ### Inputs and free values -/

/-- `sample_now()`: what the time input shows, or a free time where it has not been said; never earlier than the sample before
(R21). -/
def State.sampleNow (s : State) : Nat × State :=
  match s.timeIn with
  | some d => (s.clock + d, (s.setClock (s.clock + d)).setTimeIn none)
  | none =>
    (s.clock + Config.clockAdvance s.draws,
      (s.setClock (s.clock + Config.clockAdvance s.draws)).setDraws (s.draws + 1))

/-- The time input shows `t`; a time before the last sample is refused (U15). -/
def State.presentTime (s : State) (t : Nat) : Host.Outcome State Fault Refusal :=
  if s.clock ≤ t then .next (s.setTimeIn (some (t - s.clock))) else .refused .clockSteppedBack

end Sys2Proof.Machine
end

