-- ==== Sys2Proof/Machine/Flags.lean ====
section
/-! DEFINITION. The machine state as a function of the flag bits (spec/10_state.md R25) and the flag changes the meanings share. -/
namespace Sys2Proof.Machine

/-- The named states of the machine (R25, R141). -/
inductive Fsm where
  | uninitialized
  | idle
  | running
  | stopped
  deriving DecidableEq, Repr

/-- `fsm` of R25. -/
def State.fsm (s : State) : Fsm :=
  if s.stopped then .stopped
  else if s.fPaused then (if s.inited then .idle else .uninitialized)
  else .running

/-- `pending_reset` of R25: orthogonal to `fsm` (R142). -/
def State.pendingReset (s : State) : Bool := s.fReset

/-- A call is an `INIT`. -/
def HostCall.isInit : HostCall → Bool
  | .init _ _ => true
  | .nmi _ => false
  | .keyScan _ _ _ => false

/-- The host is in the middle of an `INIT`. -/
def State.hostInInit (s : State) : Bool := s.calls.any HostCall.isInit

/-- How many `INIT`s are in progress or have succeeded (R124). -/
def State.initCount (s : State) : Nat := s.calls.countP HostCall.isInit + s.inited.toNat

/-- The loop thread is inside an engine step: what U1 and R124 (a) call "actively stepping the execution engine". -/
def State.loopInStep (s : State) : Bool :=
  match s.loop with
  | .inEngine run => run.op == .step
  | _ => false

/-- A1 with `F.quit` read as 1: `STOPPED <- 1`, which lifts the wait of `REQ_STOP` and gives its response (R74, R128, R136). -/
def State.stopNow (s : State) : State :=
  if s.waitStop then (((s.setStopped true).setLoop .top).setWaitStop false).respondHost (okResponse 0)
  else (s.setStopped true).setLoop .top

end Sys2Proof.Machine
end

