-- ==== Sys2Proof/Machine/Operands.lean ====
section
/-! DEFINITION. The operand and result forms of spec/30_encoding.md: the absolute address (R68, R85), the coordinate (R71), the
boolean (R72), and the byte a result is answered as (R74). -/
namespace Sys2Proof.Machine

/-- The effective address of a caller that holds a wider number: it is taken modulo 65536 (R33, R68, D33). -/
def effectiveAddr (n : Nat) : Addr := BitVec.ofNat 16 n

/-- `1 << col`, the key's bit in its row (R101, R106). -/
def keyBit (col : BitVec 3) : Byte := (1#8) <<< col.toNat

/-- A boolean result: `V[0]`, with `V[7:1] = 0` (R74). -/
def boolByte (b : Bool) : Byte := (BitVec.ofBool b).setWidth 8

/-- The first ROM-array offset of a ROM block (R6, R14). -/
def blockBase (p : Params) : RomBlock → Addr
  | .basic => p.basicBase
  | .kernel => p.kernelBase
  | .chargen => p.chargenBase

/-- The length of a ROM block (R6). -/
def blockSize : RomBlock → Nat
  | .basic => basicSize
  | .kernel => kernelSize
  | .chargen => chargenSize

/-- The image presented for a ROM block (R73). -/
def Images.of (im : Images) : RomBlock → Option (List Byte)
  | .basic => im.basic
  | .kernel => im.kernel
  | .chargen => im.chargen

/-- The bytes of an image; none where it is absent. -/
def Images.bytes (im : Images) (b : RomBlock) : List Byte := (im.of b).getD []

end Sys2Proof.Machine
end

