-- ==== Sys2Proof/Machine/Control.lean ====
section
/-! DEFINITION. Machine control: `INIT`, `REQ_RESET`, `REQ_PAUSE`, `REQ_STOP`, `SET_DEBUG` (spec/43_machine_control.md). -/
namespace Sys2Proof.Machine

/-- An image is present and has the length of its block (R123, R150). -/
def imageOk (im : Images) (b : RomBlock) : Bool :=
  match im.of b with
  | some bytes => bytes.length == blockSize b
  | none => false

/-- The size checks in their order; the code of the first that fails (R123, R150, D20). -/
def configErrorCode (im : Images) : Option Byte :=
  if !imageOk im .basic then some 0x01
  else if !imageOk im .kernel then some 0x02
  else if !imageOk im .chargen then some 0x03
  else none

/-- `ROM` after an `INIT`: zero, then the three images at their offsets (R123). The blocks are disjoint (R7), so the order of
the copies does not show. -/
def loadedRom (p : Params) (im : Images) : Memory :=
  Memory.writeBytes p.basicBase (im.bytes .basic)
    (Memory.writeBytes p.chargenBase (im.bytes .chargen)
      (Memory.writeBytes p.kernelBase (im.bytes .kernel) Memory.zero))

/-- What an `INIT` answers before it writes anything: admission (R124), the meeting with an engine step, which the model
refuses (U1), and the size checks (R150); `k` is what follows when all pass. -/
def State.onInit (s : State) (k : State) : Host.Outcome State Fault Refusal :=
  s.onHost
    (if s.inited || !s.fPaused then .next (s.respondHost notAdmitted)
     else if s.loopInStep then .refused .initDuringStep
     else
       match configErrorCode s.images with
       | some code => .next (s.raiseConfigError code)
       | none => .next k)

/-- A successful `INIT`, all its writes (R123, R182). Its two zero-fills take their fill orders, which do not show here. -/
def initialised (s : State) : State :=
  ((((s.setDraws (s.draws + 2)).setRam Memory.zero).setRom (loadedRom s.cfg.params s.images)).setInited true).respondHost
    (okResponse 0)

/-- `INIT` (R123). -/
def execInit (s : State) : Host.Outcome State Fault Refusal := s.onInit (initialised s)

/-- `REQ_RESET`: `F.reset <- 1` (R126). -/
def execReqReset (s : State) : Host.Outcome State Fault Refusal :=
  s.onHost (.next ((s.setReset true).respondHost (okResponse 0)))

/-- `REQ_PAUSE`: `F.paused <- p`, an assignment that leaves `LFT` alone (R127, C2, C3). -/
def execReqPause (p : Bool) (s : State) : Host.Outcome State Fault Refusal :=
  s.onHost (.next ((s.setPaused p).respondHost (okResponse 0)))

/-- `REQ_STOP`: `F.quit <- 1`, then the host waits for `STOPPED = 1`, unanswered till then (R74, R128). -/
def execReqStop (s : State) : Host.Outcome State Fault Refusal :=
  s.onHost (.next (((s.setQuit true).setWaitStop true).setHostResp none))

/-- `SET_DEBUG`: `F.debug <- b` (R129). -/
def execSetDebug (b : Bool) (s : State) : Host.Outcome State Fault Refusal :=
  s.onHost (.next ((s.setDebug b).respondHost (okResponse 0)))

end Sys2Proof.Machine
end

