-- ==== Sys2Proof/Machine/KeyMatrix.lean ====
section
/-! DEFINITION. The Keyboard Matrix: `KEY_SET`, `KEY_GET`, `KEY_SCAN` and the scan they share with the keyboard port
(spec/41_keyboard_matrix.md). -/
namespace Sys2Proof.Machine

/-- One turn of the scan loop: row `r` is combined into `acc` if mask bit `r` is cleared (R103). -/
def scanRow (km : Vector Byte 8) (m acc : Byte) (r : Nat) : Byte :=
  if h : r < 8 then (if m.getLsbD r then acc else acc &&& km[r]) else acc

/-- `n` turns of the scan loop from row `r` on, ascending (R103, D34). -/
def scanRows (km : Vector Byte 8) (m : Byte) : (n r : Nat) → (acc : Byte) → Byte
  | 0, _, acc => acc
  | n + 1, r, acc => scanRows km m n (r + 1) (scanRow km m acc r)

/-- `Scan(m)`: the AND of the selected rows, from all-ones (R103). -/
def scan (km : Vector Byte 8) (m : Byte) : Byte := scanRows km m 8 0 0xFF

/-- Row `row` with the key in column `col` pressed (bit cleared) or released (bit set) (R101). -/
def keyRowAfter (old : Byte) (col : BitVec 3) (pressed : Bool) : Byte :=
  if pressed then old &&& ~~~(keyBit col) else old ||| keyBit col

/-- The key at `(row, col)` is held: its bit is clear (R100, R102). -/
def State.keyHeld (s : State) (row col : BitVec 3) : Bool := !(s.kmRow row).getLsbD col.toNat

/-- `KEY_SET` (R101). -/
def execKeySet (row col : BitVec 3) (pressed : Bool) (s : State) : Host.Outcome State Fault Refusal :=
  s.onHost (.next ((s.setKmRow row (keyRowAfter (s.kmRow row) col pressed)).respondHost (okResponse 0)))

/-- `KEY_GET` (R102). -/
def execKeyGet (row col : BitVec 3) (s : State) : Host.Outcome State Fault Refusal :=
  s.onHost (.next (s.respondHost (okResponse (boolByte (s.keyHeld row col)))))

/-- `KEY_SCAN` as a host command, with nothing in between: no side effect (R103). -/
def execKeyScan (mask : Byte) (s : State) : Host.Outcome State Fault Refusal :=
  s.onHost (.next (s.respondHost (okResponse (scan s.km mask))))

/-- The next element access of a `KEY_SCAN` in progress: row `r`, or, after the last, the answer (R57, R103). -/
def keyScanTurn (m acc : Byte) (r : Nat) (s : State) : Option HostCall × State :=
  if r < 8 then (some (.keyScan m (scanRow s.km m acc r) (r + 1)), s) else (none, s.respondHost (okResponse acc))

/-- A `KEY_SCAN` that others may interleave with begins; unanswered till its end. -/
def beginKeyScan (mask : Byte) (s : State) : Host.Outcome State Fault Refusal :=
  s.onHost (.next ((s.setCalls (s.calls ++ [.keyScan mask 0xFF 0])).setHostResp none))

end Sys2Proof.Machine
end

