-- ==== Sys2Proof/Machine/AddressSpace.lean ====
section
/-! DEFINITION. The Address Space: the read decode (spec/20_memory.md R45), `BUS_READ`, `BUS_WRITE`, `PEEK_RAM`, `PEEK_ROM`
(spec/40_address_space.md). -/
namespace Sys2Proof.Machine

/-- What a CPU address means to a read (R45). -/
inductive Region where
  | keyboard
  | basic
  | kernel
  | ram
  deriving DecidableEq, Repr

/-- `Decode(a)`, in the document's priority order (R45). -/
def region (p : Params) (a : Addr) : Region :=
  if a = p.kbdDataAddr then .keyboard
  else if inBlock p.basicBase.toNat basicSize a.toNat then .basic
  else if inBlock p.kernelBase.toNat kernelSize a.toNat then .kernel
  else .ram

/-- `a` is in `SHADOW`: an engine read of it never returns `RAM[a]` (R44). -/
def shadowed (p : Params) (a : Addr) : Bool := region p a != .ram

/-- The mask a keyboard-port read scans with: the byte in `RAM[KBD_ROWSEL_ADDR]`, read directly (R27, R87, D7). -/
def State.rowSelectMask (s : State) : Byte := s.readRam s.cfg.params.kbdRowselAddr

/-- `KbdPortRead()`: the scan, and its result stored in the mirror (R87). -/
def kbdPortRead (s : State) : Byte × State :=
  (scan s.km s.rowSelectMask, s.writeRam s.cfg.params.kbdDataAddr (scan s.km s.rowSelectMask))

/-- What an address of the array kind `reg` reads as: a keyboard-port read is not of that kind (R45). -/
def arrayRead (reg : Region) (a : Addr) (s : State) : Byte :=
  match reg with
  | .basic => s.readRom a
  | .kernel => s.readRom a
  | .ram => s.readRam a
  | .keyboard => s.readRam a

/-- `MemRead(a, 1)` without its trace record (R86). -/
def memRead (a : Addr) (s : State) : Byte × State :=
  match region s.cfg.params a with
  | .keyboard => kbdPortRead s
  | .basic => (arrayRead .basic a s, s)
  | .kernel => (arrayRead .kernel a s, s)
  | .ram => (arrayRead .ram a s, s)

/-- The end of a transaction: the record when `F.debug = 1`, then the response (R74, R88, R89). -/
def State.finishBus (s : State) (rec : TraceRec) (v : Byte) : State :=
  (s.traceRec rec).respondEngine (okResponse v)

/-- A `BUS_READ` on the engine port: the byte the engine is answered, and the state after. After `STOPPED = 1` it is refused,
and the engine finds the response's `V` (R143, notes/assumptions/10.md). -/
def busRead (a : Addr) (s : State) : Byte × State :=
  if s.stopped then (0xFF, s.respondEngine afterStop)
  else ((memRead a s).1, (memRead a s).2.finishBus (.read a (memRead a s).1) (memRead a s).1)

/-- A `BUS_WRITE` on the engine port: every write lands in `RAM` (R89, C1). -/
def busWrite (a : Addr) (v : Byte) (s : State) : State :=
  if s.stopped then s.respondEngine afterStop
  else (s.writeRam a v).finishBus (.write a v) 0

/-- `BUS_READ` (R86). -/
def execBusRead (addr : Addr) (s : State) : Host.Outcome State Fault Refusal := .next (busRead addr s).2

/-- `BUS_WRITE` (R89). -/
def execBusWrite (addr : Addr) (value : Byte) (s : State) : Host.Outcome State Fault Refusal :=
  .next (busWrite addr value s)

/-- `PEEK_RAM`: no decode, no side effect, no record (R91). -/
def execPeekRam (offset : Addr) (s : State) : Host.Outcome State Fault Refusal :=
  s.onHost (.next (s.respondHost (okResponse (s.readRam offset))))

/-- `PEEK_ROM`: it reaches every offset (R92). -/
def execPeekRom (offset : Addr) (s : State) : Host.Outcome State Fault Refusal :=
  s.onHost (.next (s.respondHost (okResponse (s.readRom offset))))

end Sys2Proof.Machine
end

