-- ==== Sys2Proof/Machine/Engine.lean ====
section
/-! DEFINITION. The external engine behind its four operations (spec/43_machine_control.md R121), its strobes (R138 to R140),
and what happens when two of its operations overlap (spec/70_reset_and_hazards.md R197). -/
namespace Sys2Proof.Machine

/-- The transactions of a scripted engine, the bytes it reads discarded (spec/95_test_vectors.md section 0). -/
def scriptProg : List BusOp → EngineState → EngineProg
  | [], e => .ret e
  | .read a :: ops, e => .read a (fun _ => scriptProg ops e)
  | .write a v :: ops, e => .write a v (scriptProg ops e)

/-- A scripted engine's operation: it counts the invocation first; the k-th `step` performs `steps[k]`, k from 1, and nothing
beyond the list (spec/95_test_vectors.md section 0). -/
def scriptedOp (sc : EngineScript) (op : EngineOp) (e : EngineState) : EngineProg :=
  match op with
  | .step => scriptProg (sc.steps[e.nStep]?.getD []) { e with nStep := e.nStep + 1 }
  | .reset => scriptProg sc.reset { e with nReset := e.nReset + 1 }
  | .irq => scriptProg sc.irq { e with nIrq := e.nIrq + 1 }
  | .nmi => scriptProg sc.nmi { e with nNmi := e.nNmi + 1 }

/-- What an engine does when one of its operations is started in a given engine state (R121). -/
def engineCall (kind : EngineKind) (op : EngineOp) (e : EngineState) : EngineProg :=
  match kind with
  | .external => Config.engine op e
  | .scripted sc => scriptedOp sc op e

/-- The whole program of an operation in progress. -/
def engineProg (kind : EngineKind) : ProgRef → EngineProg
  | .called op e => engineCall kind op e
  | .free d => Config.overlapProg d

/-- What is left of a program after the transactions that `answers` answered. -/
def remaining : EngineProg → List Byte → EngineProg
  | p, [] => p
  | .ret e, _ :: _ => .ret e
  | .read _ k, b :: bs => remaining (k b) bs
  | .write _ _ k, _ :: bs => remaining k bs

/-- A program run to its end, each transaction complete before the next (R55, R121). -/
def runProg : EngineProg → State → State
  | .ret e, s => s.setEng e
  | .read a k, s => runProg (k (busRead a s).1) (busRead a s).2
  | .write a v k, s => runProg k (busWrite a v s)

/-- The code of the strobe that invokes an operation; `nmi` has none (R75). -/
def strobeCode : EngineOp → Strobe
  | .step => 0b001
  | .reset => 0b010
  | .irq => 0b100
  | .nmi => 0b000

/-- The rest of an operation in progress is free from now on (R197, notes/assumptions/2.md). -/
def EngineRun.disturbed (run : EngineRun) (d : Nat) : EngineRun := { run with prog := .free d, answers := [] }

/-- The same for whatever the loop thread has in progress. -/
def LoopPos.disturbed (p : LoopPos) (d : Nat) : LoopPos :=
  match p with
  | .inEngine run => .inEngine (run.disturbed d)
  | _ => p

/-- The same for an operation that the host has in progress. -/
def HostCall.disturbed (c : HostCall) (d : Nat) : HostCall :=
  match c with
  | .nmi run => .nmi (run.disturbed d)
  | _ => c

/-- The same for all of them, each with a draw of its own. -/
def disturbCalls : (d : Nat) → List HostCall → List HostCall
  | _, [] => []
  | d, c :: cs => c.disturbed d :: disturbCalls (d + 1) cs

/-- A strobe is active: the engine performs an operation the sequencer started (R75). -/
def State.strobeActive (s : State) : Bool :=
  match s.loop with
  | .inEngine _ => true
  | _ => false

/-- A call is an `nmi`. -/
def HostCall.isNmi : HostCall → Bool
  | .nmi _ => true
  | .init _ _ => false
  | .keyScan _ _ _ => false

/-- The host's `nmi` call is in progress on its own thread (R122). -/
def State.hostInNmi (s : State) : Bool := s.calls.any HostCall.isNmi

/-- Some engine operation is in progress, on either thread. -/
def State.engineBusy (s : State) : Bool := s.strobeActive || s.hostInNmi

/-- An operation begins. If another one is in progress the two overlap, and what either does from here on is free (R197). -/
def beginRun (op : EngineOp) (s : State) : EngineRun × State :=
  if s.engineBusy then
    (⟨op, .free s.draws, [], .idle⟩,
      ((s.setLoop (s.loop.disturbed (s.draws + 1))).setCalls (disturbCalls (s.draws + 2) s.calls)).setDraws
        (s.draws + 2 + s.calls.length))
  else (⟨op, .called op s.eng, [], .idle⟩, s)

/-- An operation performed from its beginning to its end with nothing in between. -/
def runWhole (op : EngineOp) (s : State) : State :=
  runProg (engineProg s.cfg.engine (beginRun op s).1.prog) (beginRun op s).2

/-- A strobe: the port shows its code, the engine performs the operation, and on completion the port is idle again (R75). -/
def strobe (op : EngineOp) (s : State) : State :=
  (runWhole op (s.showControl (strobeCode op))).showControl 0

/-- Action A8: the `(STEP)` record, then the strobe `ENG_STEP` (R135, R138). -/
def stepEngine (s : State) : State := strobe .step (s.traceRec .step)

/-- A strobe can be issued only before `STOPPED = 1`, after which "the engine is never invoked by the block again" (R143), and
only while none is active (R75). -/
def State.onControl (s : State) (k : Host.Outcome State Fault Refusal) : Host.Outcome State Fault Refusal :=
  if s.stopped then .next s else if s.strobeActive then .refused .strobeActive else k

/-- `ENG_STEP` (R138). Stepping the engine while an `INIT` is in progress is undefined (R124 (a), U1). -/
def execEngStep (s : State) : Host.Outcome State Fault Refusal :=
  s.onControl (if s.hostInInit then .refused .initDuringStep else .next (stepEngine s))

/-- `ENG_RESET` (R139). -/
def execEngReset (s : State) : Host.Outcome State Fault Refusal := s.onControl (.next (strobe .reset s))

/-- `ENG_IRQ` (R140). -/
def execEngIrq (s : State) : Host.Outcome State Fault Refusal := s.onControl (.next (strobe .irq s))

/-- The host invokes the engine's `nmi`, which passes the block by but for its transactions (R122, R155). -/
def hostNmi (s : State) : State := runWhole .nmi s

end Sys2Proof.Machine
end

