-- ==== Sys2Proof/Machine/Timer.lean ====
section
/-! DEFINITION. The Interrupt Timer: the poll, the gate and the paused reload (spec/42_interrupt_timer.md). The poll is the
block's side of taking the timer interrupt (spec/60_exceptions.md R161). -/
namespace Sys2Proof.Machine

/-- "Due": the time since `LFT` has reached the threshold (R111, R157). -/
def State.timerDue (s : State) (t : Nat) : Bool := decide (t - s.lft ≥ thresholdUs)

/-- The interrupt gate: bit `IRQ_EN_BIT` of `RAM[IRQ_EN_ADDR]`, read directly and untraced (R112). -/
def State.gateOpen (s : State) : Bool :=
  (s.readRam s.cfg.params.irqEnAddr).getLsbD s.cfg.params.irqEnBit.toNat

/-- The end of a poll that found the timer due: the gate is read and lets the request through or not (R111, R161). -/
def requestIrq (s : State) : State := if s.gateOpen then strobe .irq s else s

/-- `TimerPoll(t)`: `LFT` is reloaded before the gate is read, whether or not a request follows (R111, R157, C2). -/
def timerPoll (t : Nat) (s : State) : State :=
  if s.timerDue t then requestIrq (s.setLft t) else s

/-- `t <- sample_now() ; TimerPoll(t)` (A9). -/
def pollNow (s : State) : State := timerPoll s.sampleNow.1 s.sampleNow.2

/-- `t <- sample_now() ; LFT <- t`: the paused reload (R113). -/
def reloadNow (s : State) : State := s.sampleNow.2.setLft s.sampleNow.1

/-- An iteration that takes no sample: what the time input showed for it is an input of no other (R73). -/
def skipSample (s : State) : State := s.setTimeIn none

end Sys2Proof.Machine
end

