-- ==== Sys2Proof/Machine/RunLoop.lean ====
section
/-! DEFINITION. The sequencer: one iteration, `ITER`, from each of its actions to its end with nothing in between
(spec/43_machine_control.md R135 to R137, R145, R146). Machine/Turns.lean takes the same actions one at a time. -/
namespace Sys2Proof.Machine

/-- The end of an iteration: the next one starts at its first action (R17). -/
def endIteration (s : State) : State := s.setLoop .top

/-- From A9: the poll, then the end. -/
def iterFromPoll (s : State) : State := endIteration (pollNow s)

/-- From A6 or A7 with `F.paused` read as 1: the reload, then the end (R145). -/
def iterFromReload (s : State) : State := endIteration (reloadNow s)

/-- From A6: what a reset iteration does with the timer (R137, D17). -/
def iterFromA6 (s : State) : State :=
  if s.fPaused then iterFromReload s
  else if s.cfg.params.resetIterPollsTimer then iterFromPoll s
  else endIteration (skipSample s)

/-- From A5: the flag is cleared last (R137). -/
def iterFromA5 (s : State) : State := iterFromA6 (s.setReset false)

/-- From A4: the engine's `reset`, then A5 (R139). -/
def iterFromA4 (s : State) : State := iterFromA5 (strobe .reset s)

/-- From A8 (R146). An engine step that meets an `INIT` in progress is undefined (R124 (a), U1). -/
def iterFromA8 (s : State) : Host.Outcome State Fault Refusal :=
  if s.hostInInit then .refused .initDuringStep else .next (iterFromPoll (stepEngine s))

/-- From A7. -/
def iterFromA7 (s : State) : Host.Outcome State Fault Refusal :=
  if s.fPaused then .next (iterFromReload s) else iterFromA8 s

/-- From A2: a pending reset is serviced whatever `F.paused` is (R137): all of `RAM` to zero, in some fill order, then A4. -/
def iterFromA2 (s : State) : Host.Outcome State Fault Refusal :=
  if s.fReset then .next (iterFromA4 ((s.setDraws (s.draws + 1)).setRam Memory.zero)) else iterFromA7 s

/-- From A1: quit first (R136, D16). -/
def iterFromA1 (s : State) : Host.Outcome State Fault Refusal :=
  if s.fQuit then .next s.stopNow else iterFromA2 s

/-- What follows the completion of an engine operation the sequencer started. -/
def iterAfter (op : EngineOp) (s : State) : State :=
  match op with
  | .step => iterFromPoll s
  | .reset => iterFromA5 s
  | .irq => endIteration s
  | .nmi => endIteration s

/-- From the strobe of `op`. -/
def iterFromStart (op : EngineOp) (s : State) : Host.Outcome State Fault Refusal :=
  if (op == .step) && s.hostInInit then .refused .initDuringStep else .next (iterAfter op (strobe op s))

/-- The transaction an operation is in the middle of, brought to its end: the answers so far and the state (R87). -/
def finishTransaction (run : EngineRun) (s : State) : List Byte × State :=
  match run.bus with
  | .idle => (run.answers, s)
  | .scan m acc r =>
    (run.answers ++ [scanRows s.km m (8 - r) r acc],
      (s.writeRam s.cfg.params.kbdDataAddr (scanRows s.km m (8 - r) r acc)).finishBus
        (.read s.cfg.params.kbdDataAddr (scanRows s.km m (8 - r) r acc)) (scanRows s.km m (8 - r) r acc))
  | .emit rec v => (run.answers ++ [v], s.finishBus rec v)

/-- An operation in progress, brought to its end. -/
def finishRun (run : EngineRun) (s : State) : State :=
  runProg (remaining (engineProg s.cfg.engine run.prog) (finishTransaction run s).1) (finishTransaction run s).2

/-- The iteration from the sequencer's position to its end; with `STOPPED = 1` no iteration takes place (A0, R143). -/
def iterate (s : State) : Host.Outcome State Fault Refusal :=
  if s.stopped then .next s
  else
    match s.loop with
    | .top => iterFromA1 s
    | .stopping => .next s.stopNow
    | .a2 => iterFromA2 s
    | .fill k order => .next (iterFromA4 (s.setRam (s.ram.clearFrom order k)))
    | .start op => iterFromStart op s
    | .inEngine run => .next (iterAfter run.op (((finishRun run s).setLoop .top).showControl 0))
    | .a5 => .next (iterFromA5 s)
    | .a6 => .next (iterFromA6 s)
    | .reload => .next (iterFromReload s)
    | .a7 => iterFromA7 s
    | .a8 => iterFromA8 s
    | .poll => .next (iterFromPoll s)
    | .gate => .next (endIteration (requestIrq s))

/-- `ITER` (R135): a whole iteration when the sequencer stands at its first action, else the rest of the one it is in. -/
def execIter (s : State) : Host.Outcome State Fault Refusal := iterate s

end Sys2Proof.Machine
end

