-- ==== Sys2Proof/Machine/Turns.lean ====
section
/-! DEFINITION. The two threads one element access at a time, so that each can move between the accesses of the other
(spec/20_memory.md R56, R57; spec/70_reset_and_hazards.md R190 to R199). -/
namespace Sys2Proof.Machine

/-- A `BUS_READ` begins: the element access of an array address, or the mask read of the keyboard port (R57, R86, R87). -/
def beginRead (run : EngineRun) (a : Addr) (s : State) : EngineRun × State :=
  if s.stopped then ({ run with answers := run.answers ++ [0xFF] }, s.respondEngine afterStop)
  else
    match region s.cfg.params a with
    | .keyboard => ({ run with bus := .scan s.rowSelectMask 0xFF 0 }, s)
    | .basic => ({ run with bus := .emit (.read a (arrayRead .basic a s)) (arrayRead .basic a s) }, s)
    | .kernel => ({ run with bus := .emit (.read a (arrayRead .kernel a s)) (arrayRead .kernel a s) }, s)
    | .ram => ({ run with bus := .emit (.read a (arrayRead .ram a s)) (arrayRead .ram a s) }, s)

/-- A `BUS_WRITE` begins: its one element access (R57, R89). -/
def beginWrite (run : EngineRun) (a : Addr) (v : Byte) (s : State) : EngineRun × State :=
  if s.stopped then ({ run with answers := run.answers ++ [0xFF] }, s.respondEngine afterStop)
  else ({ run with bus := .emit (.write a v) 0 }, s.writeRam a v)

/-- The next element access of an engine operation in progress; no run is left when the operation ends (R57, R121). -/
def runTurn (run : EngineRun) (s : State) : Option EngineRun × State :=
  match run.bus with
  | .idle =>
    match remaining (engineProg s.cfg.engine run.prog) run.answers with
    | .ret e => (none, s.setEng e)
    | .read a _ => (some (beginRead run a s).1, (beginRead run a s).2)
    | .write a v _ => (some (beginWrite run a v s).1, (beginWrite run a v s).2)
  | .scan m acc r =>
    if r < 8 then (some { run with bus := .scan m (scanRow s.km m acc r) (r + 1) }, s)
    else (some { run with bus := .emit (.read s.cfg.params.kbdDataAddr acc) acc }, s.writeRam s.cfg.params.kbdDataAddr acc)
  | .emit rec v => (some { run with answers := run.answers ++ [v], bus := .idle }, s.finishBus rec v)

/-- The sequencer's position after the engine operation it started has completed. -/
def posAfter : EngineOp → LoopPos
  | .step => .poll
  | .reset => .a5
  | .irq => .top
  | .nmi => .top

/-- The sequencer issues a strobe: the port shows it and the engine begins (R75). -/
def startTurn (op : EngineOp) (s : State) : Host.Outcome State Fault Refusal :=
  if (op == .step) && s.hostInInit then .refused .initDuringStep
  else
    .next
      ((beginRun op (s.showControl (strobeCode op))).2.setLoop (.inEngine (beginRun op (s.showControl (strobeCode op))).1))

/-- The loop thread inside an engine operation: its next access, or the completion of the strobe (R75). -/
def engineTurn (run : EngineRun) (s : State) : State :=
  match runTurn run s with
  | (some run', s') => s'.setLoop (.inEngine run')
  | (none, s') => (s'.showControl 0).setLoop (posAfter run.op)

/-- The poll's first part: sample, compare, reload (R111). -/
def pollTurn (s : State) : State :=
  if s.sampleNow.2.timerDue s.sampleNow.1 then (s.sampleNow.2.setLft s.sampleNow.1).setLoop .gate
  else s.sampleNow.2.setLoop .top

/-- One turn of the loop thread: the next action of R135. -/
def loopTurn (s : State) : Host.Outcome State Fault Refusal :=
  if s.stopped then .next s
  else
    match s.loop with
    | .top => .next (s.setLoop (if s.fQuit then .stopping else .a2))
    | .stopping => .next s.stopNow
    | .a2 => .next (if s.fReset then (s.setDraws (s.draws + 1)).setLoop (.fill 0 s.draws) else s.setLoop .a7)
    | .fill k order =>
      .next
        (if k < arraySize then (s.writeRam (fillAddr order k) 0).setLoop (.fill (k + 1) order)
         else s.setLoop (.start .reset))
    | .start op => startTurn op s
    | .inEngine run => .next (engineTurn run s)
    | .a5 => .next ((s.setReset false).setLoop .a6)
    | .a6 =>
      .next
        (if s.fPaused then s.setLoop .reload
         else if s.cfg.params.resetIterPollsTimer then s.setLoop .poll
         else endIteration (skipSample s))
    | .reload => .next (iterFromReload s)
    | .a7 => .next (s.setLoop (if s.fPaused then .reload else .a8))
    | .a8 => .next ((s.traceRec .step).setLoop (.start .step))
    | .poll => .next (pollTurn s)
    | .gate => .next (s.setLoop (if s.gateOpen then .start .irq else .top))

/-- The block copied after `b`, or the end of the copies (R123). -/
def nextCopy : RomBlock → InitPos
  | .basic => .copy .kernel 0
  | .kernel => .copy .chargen 0
  | .chargen => .flag

/-- The next element access of an `INIT` in progress; no position is left when it ends (R57, R123). -/
def initTurn (im : Images) (pos : InitPos) (s : State) : Option InitPos × State :=
  match pos with
  | .ramFill k order =>
    if k < arraySize then (some (.ramFill (k + 1) order), s.writeRam (fillAddr order k) 0)
    else (some (.romFill 0 s.draws), s.setDraws (s.draws + 1))
  | .romFill k order =>
    if k < arraySize then (some (.romFill (k + 1) order), s.writeRom (fillAddr order k) 0)
    else (some (.copy .basic 0), s)
  | .copy b i =>
    match (im.bytes b)[i]? with
    | some v => (some (.copy b (i + 1)), s.writeRom (blockBase s.cfg.params b + BitVec.ofNat 16 i) v)
    | none => (some (nextCopy b), s)
  | .flag => (none, (s.setInited true).respondHost (okResponse 0))

/-- The next element access of an operation of the host; none of it is left when it ends (R57). -/
def HostCall.turn (c : HostCall) (s : State) : Option HostCall × State :=
  match c with
  | .init im pos => ((initTurn im pos s).1.map (.init im), (initTurn im pos s).2)
  | .nmi run => ((runTurn run s).1.map .nmi, (runTurn run s).2)
  | .keyScan m acc r => keyScanTurn m acc r s

/-- The operations in progress with the one at place `k` as it is now; its place is given up when it has ended. -/
def replaceCall (k : Nat) (c : Option HostCall) (cs : List HostCall) : List HostCall :=
  match c with
  | some c' => cs.set k c'
  | none => cs.eraseIdx k

/-- One turn of the owning thread: the next element access of the `k`-th operation it has in progress (R57). -/
def callTurn (k : Nat) (s : State) : State :=
  match s.calls[k]? with
  | some c => (c.turn s).2.setCalls (replaceCall k (c.turn s).1 s.calls)
  | none => s

/-- An `INIT` that others may interleave with begins: the checks of R123, then the first zero-fill; unanswered till its end. -/
def beginInit (s : State) : Host.Outcome State Fault Refusal :=
  s.onInit
    (((s.setDraws (s.draws + 1)).setCalls (s.calls ++ [.init s.images (.ramFill 0 s.draws)])).setHostResp none)

/-- An `nmi` that others may interleave with begins (R197). -/
def beginNmi (s : State) : State :=
  (beginRun .nmi s).2.setCalls ((beginRun .nmi s).2.calls ++ [.nmi (beginRun .nmi s).1])

end Sys2Proof.Machine
end

