-- ==== Sys2Proof/Machine/Dispatch.lean ====
section
/-! DEFINITION. The one dispatch: an arm per constructor of Instr, each a direct call of its meaning. -/
namespace Sys2Proof.Machine

def exec (i : Instr) (s : State) : Host.Outcome State Fault Refusal :=
  match i with
  | .busRead addr => Sys2Proof.Machine.execBusRead addr s
  | .busWrite addr value => Sys2Proof.Machine.execBusWrite addr value s
  | .peekRam offset => Sys2Proof.Machine.execPeekRam offset s
  | .peekRom offset => Sys2Proof.Machine.execPeekRom offset s
  | .keySet row col pressed => Sys2Proof.Machine.execKeySet row col pressed s
  | .keyGet row col => Sys2Proof.Machine.execKeyGet row col s
  | .keyScan mask => Sys2Proof.Machine.execKeyScan mask s
  | .init => Sys2Proof.Machine.execInit s
  | .reqReset => Sys2Proof.Machine.execReqReset s
  | .reqPause p => Sys2Proof.Machine.execReqPause p s
  | .reqStop => Sys2Proof.Machine.execReqStop s
  | .setDebug b => Sys2Proof.Machine.execSetDebug b s
  | .iter => Sys2Proof.Machine.execIter s
  | .engStep => Sys2Proof.Machine.execEngStep s
  | .engReset => Sys2Proof.Machine.execEngReset s
  | .engIrq => Sys2Proof.Machine.execEngIrq s

end Sys2Proof.Machine
end

