-- ==== Sys2Proof/Decode.lean ====
section
/-! DEFINITION. Decoding of the 32-bit command word and of the 3-bit strobe (spec/30_encoding.md R66 to R80), total and
rejecting by name, and the encoder from the same tables. -/
namespace Sys2Proof

/-- Why a word is no operation (R75, R77, R78). -/
inductive DecodeError where
  /-- `OP` is `0xD`, `0xE` or `0xF` (R77). -/
  | reservedOp
  /-- `Z` is not `0000` (R66, R78). -/
  | zNotZero
  /-- Must-be-zero bits of `A` are not zero (R67, R71, R78). -/
  | aNotZero
  /-- Must-be-zero bits of `D` are not zero (R67, R72, R78). -/
  | dNotZero
  /-- The strobe value `000`: no strobe is active (R75). -/
  | idleStrobe
  /-- A strobe value that is not one-hot: it never occurs (R75). -/
  | strobeNeverOccurs
  deriving DecidableEq, Repr

/-- `W[31:28]` (R66). -/
def opField (w : Word) : BitVec 4 := w.extractLsb' 28 4

/-- `W[27:24]` (R66). -/
def zField (w : Word) : BitVec 4 := w.extractLsb' 24 4

/-- `W[23:8]` (R66). -/
def aField (w : Word) : Addr := w.extractLsb' 8 16

/-- `W[7:0]` (R66). -/
def dField (w : Word) : Byte := w.extractLsb' 0 8

/-- `A[5:3]` (R71). -/
def rowField (a : Addr) : BitVec 3 := a.extractLsb' 3 3

/-- `A[2:0]` (R71). -/
def colField (a : Addr) : BitVec 3 := a.extractLsb' 0 3

/-- `D[0]` (R72). -/
def boolField (d : Byte) : Bool := d.getLsbD 0

/-- `A` is unused and must be zero (R67, R78). -/
def needA0 (a : Addr) (k : Except DecodeError Instr) : Except DecodeError Instr :=
  if a = 0 then k else .error .aNotZero

/-- `D` is unused and must be zero (R67, R78). -/
def needD0 (d : Byte) (k : Except DecodeError Instr) : Except DecodeError Instr :=
  if d = 0 then k else .error .dNotZero

/-- `A[15:6]` must be zero around a coordinate (R71, R78). -/
def needCoordinate (a : Addr) (k : Except DecodeError Instr) : Except DecodeError Instr :=
  if a.extractLsb' 6 10 = 0 then k else .error .aNotZero

/-- `D[7:1]` must be zero around a boolean (R72, R78). -/
def needBool (d : Byte) (k : Except DecodeError Instr) : Except DecodeError Instr :=
  if d.extractLsb' 1 7 = 0 then k else .error .dNotZero

/-- The operation with code `op` and fields `a`, `d` (the table of R67). -/
def decodeFields (op : BitVec 4) (a : Addr) (d : Byte) : Except DecodeError Instr :=
  match op.toNat with
  | 0x0 => needD0 d (.ok (.busRead a))
  | 0x1 => .ok (.busWrite a d)
  | 0x2 => needD0 d (.ok (.peekRam a))
  | 0x3 => needD0 d (.ok (.peekRom a))
  | 0x4 => needCoordinate a (needBool d (.ok (.keySet (rowField a) (colField a) (boolField d))))
  | 0x5 => needCoordinate a (needD0 d (.ok (.keyGet (rowField a) (colField a))))
  | 0x6 => needA0 a (.ok (.keyScan d))
  | 0x7 => needA0 a (needD0 d (.ok .init))
  | 0x8 => needA0 a (needD0 d (.ok .reqReset))
  | 0x9 => needA0 a (needBool d (.ok (.reqPause (boolField d))))
  | 0xA => needA0 a (needD0 d (.ok .reqStop))
  | 0xB => needA0 a (needBool d (.ok (.setDebug (boolField d))))
  | 0xC => needA0 a (needD0 d (.ok .iter))
  | _ => .error .reservedOp

/-- A command word (format `W`). The `Z` field is looked at for every `OP` (R78). -/
def decodeWord (w : Word) : Except DecodeError Instr :=
  if zField w = 0 then decodeFields (opField w) (aField w) (dField w) else .error .zNotZero

/-- A value of the engine-control port (format `C`, R75). -/
def decodeStrobe (c : Strobe) : Except DecodeError Instr :=
  match c.toNat with
  | 0 => .error .idleStrobe
  | 1 => .ok .engStep
  | 2 => .ok .engReset
  | 4 => .ok .engIrq
  | _ => .error .strobeNeverOccurs

/-- The operation a raw word stands for: total, and a refusal by name for every other word. -/
def decode : RawWord → Except DecodeError Instr
  | .w word => decodeWord word
  | .c strobe => decodeStrobe strobe

/-- A word from its three used fields, `Z` zero (R66). -/
def packWord (op : BitVec 4) (a : Addr) (d : Byte) : Word := op ++ (0#4) ++ a ++ d

/-- `A` of a coordinate: `A[5:3] = row`, `A[2:0] = col` (R71). -/
def packCoordinate (row col : BitVec 3) : Addr := (0#10) ++ row ++ col

/-- `D` of a boolean (R72). -/
def packBool (b : Bool) : Byte := (0#7) ++ BitVec.ofBool b

/-- The encoder, from the same tables (R67, R71, R72, R75). -/
def encode : Instr → RawWord
  | .busRead a => .w (packWord 0x0 a 0)
  | .busWrite a v => .w (packWord 0x1 a v)
  | .peekRam a => .w (packWord 0x2 a 0)
  | .peekRom a => .w (packWord 0x3 a 0)
  | .keySet row col p => .w (packWord 0x4 (packCoordinate row col) (packBool p))
  | .keyGet row col => .w (packWord 0x5 (packCoordinate row col) 0)
  | .keyScan m => .w (packWord 0x6 0 m)
  | .init => .w (packWord 0x7 0 0)
  | .reqReset => .w (packWord 0x8 0 0)
  | .reqPause p => .w (packWord 0x9 0 (packBool p))
  | .reqStop => .w (packWord 0xA 0 0)
  | .setDebug b => .w (packWord 0xB 0 (packBool b))
  | .iter => .w (packWord 0xC 0 0)
  | .engStep => .c 0b001
  | .engReset => .c 0b010
  | .engIrq => .c 0b100

/-- The raw word that `nbits` table bits `w` are: a strobe when the row has fewer than 32 bits (the rows of format `C`, 3 bits
in one byte), a command word otherwise; none where `w` has a bit the format does not have. -/
def tableWord (nbits w : Nat) : Option RawWord :=
  if nbits < 32 then
    if w < 8 then some (.c (BitVec.ofNat 3 w)) else none
  else
    if w < 4294967296 then some (.w (BitVec.ofNat 32 w)) else none

/-- The instruction the decoder reads from the bits `w` of an opcode-table row of `nbits` bits. -/
def decodeTableWord (nbits w : Nat) : Option Instr :=
  match tableWord nbits w with
  | none => none
  | some raw =>
    match decode raw with
    | .ok i => some i
    | .error _ => none

end Sys2Proof
end

