-- ==== Sys2Proof/Machine/Script.lean ====
section
/-! DEFINITION. What the next step is about: the inbox and its rules (spec/30_encoding.md R65, R67, R77, R84), and the script
lines and pseudo-operations of R82 and R83. -/
namespace Sys2Proof.Machine

/-- What a step does: run an operation, or something that is no operation and is already worked out. -/
inductive Todo where
  | run (i : Instr) (s : State)
  | done (o : Host.Outcome State Fault Refusal)

/-- The next event is one the owning thread would make. -/
def Event.byHost : Event → Bool
  | .line src _ => src == .host
  | .images _ => true
  | .now _ => false
  | .nmi => true
  | .beginNmi => true
  | .beginInit => true
  | .beginKeyScan _ => true
  | .loopTurn => false
  | .callTurn _ => false

/-- A word is an `INIT`. -/
def isInitWord (raw : RawWord) : Bool :=
  match decode raw with
  | .ok i => i == .init
  | .error _ => false

/-- The next event would start an `INIT`. -/
def Event.startsInit : Event → Bool
  | .line src raw => src == .host && isInitWord raw
  | .beginInit => true
  | .images _ => false
  | .now _ => false
  | .nmi => false
  | .beginNmi => false
  | .beginKeyScan _ => false
  | .loopTurn => false
  | .callTurn _ => false

/-- A word on a port: an operation of that port runs; the idle strobe does nothing; every other word is refused (R75, R77, R78). -/
def onLine (src : Source) (raw : RawWord) (s : State) : Todo :=
  match decode raw with
  | .ok i => if i.wellFormedOn src then .run i s else .done (s.refuseWord src)
  | .error e => if (src == .control) && (e == .idleStrobe) then .done (.next s) else .done (s.refuseWord src)

/-- An event taken from the inbox. -/
def onEvent (ev : Event) (s : State) : Todo :=
  match ev with
  | .line src raw => onLine src raw s
  | .images im => .done (.next (s.setImages im))
  | .now t => .done (s.presentTime t)
  | .nmi => .done (.next (hostNmi s))
  | .beginNmi => .done (.next (beginNmi s))
  | .beginInit => .done (beginInit s)
  | .beginKeyScan mask => .done (beginKeyScan mask s)
  | .loopTurn => .done (loopTurn s)
  | .callTurn k => .done (.next (callTurn k s))

/-- What the next step is about. With an empty inbox the sequencer runs freely: iteration after iteration (R120). While the host
waits for its stop it issues nothing else (R128): its event stays, and the sequencer, which alone lifts the wait, moves. While an
`INIT` is in progress the next one stays, and the one in progress moves (notes/assumptions/18.md); after `STOPPED = 1` none is
held, for each is answered at once (R143). -/
def nextEvent (s : State) : Todo :=
  match s.inbox with
  | [] => .run .iter s
  | ev :: rest =>
    if ev.byHost && s.waitStop then .run .iter s
    else if ev.startsInit && s.hostInInit && !s.stopped then .done (.next (callTurn (s.calls.findIdx HostCall.isInit) s))
    else onEvent ev (s.setInbox rest)

/-- The line a raw word is placed on: that of the operation it decodes to, or a command port where it is none. -/
def lineOf (raw : RawWord) : Source :=
  match decode raw with
  | .ok i => i.source
  | .error _ => .host

/-- The owning thread free to issue a word: it waits for no stop, and where the word is an `INIT` no other is in progress. -/
def State.freeHost (s : State) (raw : RawWord) : State :=
  if isInitWord raw then (s.setWaitStop false).setCalls (s.calls.filter (fun c => !c.isInit)) else s.setWaitStop false

/-- A raw word first in the inbox, on its own line, with the owning thread free to issue it where that line is the host port. -/
def placeRaw (s : State) (raw : RawWord) : State :=
  match lineOf raw with
  | .host => (s.freeHost raw).setInbox (.line .host raw :: s.inbox)
  | src => s.setInbox (.line src raw :: s.inbox)

/-- The bits of an opcode-table row, placed the same way; bits that are no word of either format place nothing. -/
def placeWord (s : State) (nbits w : Nat) : State :=
  match tableWord nbits w with
  | some raw => placeRaw s raw
  | none => s

/-! ### Script lines (R82) and pseudo-operations (R83) -/

/-- An operation as a script line: its own word on its own port (R82). -/
def scriptLine (i : Instr) : Event := .line i.source (encode i)

/-- `KEY_DOWN (r,c)` (R83). -/
def keyDown (row col : BitVec 3) : List Event := [scriptLine (.keySet row col true)]

/-- `KEY_UP (r,c)` (R83). -/
def keyUp (row col : BitVec 3) : List Event := [scriptLine (.keySet row col false)]

/-- `PAUSE` (R83). -/
def pauseScript : List Event := [scriptLine (.reqPause true)]

/-- `RESUME` (R83). -/
def resumeScript : List Event := [scriptLine (.reqPause false)]

/-- `BOOT basic, kernel, chargen` (R83, R186): the images stand at the side-band inputs, then `INIT`, `REQ_RESET`, one
iteration, `REQ_PAUSE 0`. -/
def bootScript (im : Images) : List Event :=
  [.images im, scriptLine .init, scriptLine .reqReset, scriptLine .iter, scriptLine (.reqPause false)]

/-- `NMI` (R83): the host invokes the engine's `nmi`, and its transactions follow. -/
def nmiScript : List Event := [.nmi]

/-- `ITER now=t` (R82): the time input shows `t`, then the iteration. -/
def iterNow (t : Nat) : List Event := [.now t, scriptLine .iter]

/-- `ITER*n now=t0 step=d` (R83): `n` times `ITER`, with `now = t0, t0+d, ..., t0+(n-1)d`, each time shown before its own
iteration, whether or not that iteration samples it. -/
def iterScript : (t0 d n : Nat) → List Event
  | _, _, 0 => []
  | t0, d, n + 1 => iterNow t0 ++ iterScript (t0 + d) d n

end Sys2Proof.Machine
end

