-- ==== Sys2Proof/Machine/Step.lean ====
section
/-! DEFINITION. One step: the next event of the inbox, or, when nothing waits, the free-running sequencer's iteration
(spec/43_machine_control.md R120); and the placing of a word where step reads its next one. -/
namespace Sys2Proof.Machine

/-- One step of the machine: what `nextEvent` says, the words it meets run by `exec`. -/
def step (s : State) : Host.Outcome State Fault Refusal :=
  match nextEvent s with
  | .run i s' => exec i s'
  | .done o => o

/-- The state with that instruction as the very next thing that stands on its own port. -/
def State.withFetchWord (s : State) (nbits w : Nat) : State := placeWord s nbits w

end Sys2Proof.Machine
end

