-- ==== Sys2Proof/Safety.lean ====
section
/-! DEFINITION. The terms the claims are stated in: the invariant of every run, runs of one thread alone, states that differ in
what may not matter, and the fixed bits of the opcode table. -/
namespace Sys2Proof.Machine

/-! ### The engine-control port -/

/-- One more value on the engine-control port: a strobe while idle, idle while a strobe is active (R75). `none` is a breach. -/
def portNext : Option (Option Strobe) → Strobe → Option (Option Strobe)
  | some none, c => if c = 0b001 ∨ c = 0b010 ∨ c = 0b100 then some (some c) else none
  | some (some _), c => if c = 0 then some none else none
  | none, _ => none

/-- What a history of the port leaves active, or a breach: "At most one strobe is active at a time" (R75). -/
def portState (history : List Strobe) : Option (Option Strobe) := history.foldl portNext (some none)

/-- The strobe that is active at a position of the sequencer. -/
def LoopPos.activeStrobe : LoopPos → Option Strobe
  | .inEngine run => some (strobeCode run.op)
  | _ => none

/-- No position of the sequencer is about an `nmi`: it has no strobe (R75, R122). -/
def LoopPos.noNmi : LoopPos → Prop
  | .start op => op ≠ .nmi
  | .inEngine run => run.op ≠ .nmi
  | _ => True

/-! ### The invariant -/

/-- What holds at power-on and after every step. -/
structure State.Inv (s : State) : Prop where
  /-- `RAM` is in canonical form. -/
  ramWf : s.ram.wf = true
  /-- `ROM` is in canonical form. -/
  romWf : s.rom.wf = true
  /-- `LFT` is never later than the last time sample (R21, R111 (d)). -/
  lftLeClock : s.lft ≤ s.clock
  /-- `STOPPED` is set only once `F.quit` is, and no iteration is then in progress (R136, R143). -/
  stoppedQuit : s.stopped = true → s.fQuit = true ∧ s.loop = .top
  /-- The sequencer is about to stop only because it has read `F.quit = 1`, which nothing clears (R20). -/
  stoppingQuit : s.loop = .stopping → s.fQuit = true
  /-- The host waits only for a stop that it has asked for and that has not come (R128). -/
  waitQuit : s.waitStop = true → s.fQuit = true ∧ s.stopped = false
  /-- At most one `INIT` is in progress, and none once one has succeeded (R14, R124). -/
  initOnce : s.initCount ≤ 1
  /-- The engine-control port follows its protocol and shows the operation in progress (R75). -/
  port : portState s.control = some s.loop.activeStrobe
  /-- The sequencer never invokes `nmi` (R140). -/
  loopNoNmi : s.loop.noNmi

/-! ### One thread alone -/

/-- `n` turns of the loop thread with nothing in between. -/
def loopTurns : Nat → State → Host.Outcome State Fault Refusal
  | 0, s => .next s
  | n + 1, s =>
    match loopTurn s with
    | .next s' => loopTurns n s'
    | .fault r => .fault r
    | .refused r => .refused r

/-- `n` turns of the host's operation at place `k` with nothing in between. -/
def callTurns (k : Nat) : Nat → State → State
  | 0, s => s
  | n + 1, s => callTurns k n (callTurn k s)

/-! ### What statements about transactions say -/

/-- `t` has the `RAM`, the engine's state, the trace and the engine port's response that `u` has: all that an engine's
transactions write (R121, R165). -/
def State.SameTransactions (t u : State) : Prop :=
  t.ram = u.ram ∧ t.eng = u.eng ∧ t.trace = u.trace ∧ t.engineResp = u.engineResp

/-- What a reset iteration has done by the end of A4: all of `RAM` to zero first, then the engine's `reset` (R135, R137). -/
def resetServed (s : State) : State := strobe .reset ((s.setDraws (s.draws + 1)).setRam Memory.zero)

/-- The iteration, from where the sequencer stands, would begin an engine step: it stands before the strobe of A8, or comes to it past
every flag it has still to read (R135, R136, R137, R145; inside an iteration: log entry 21). -/
def State.iterBeginsStep (s : State) : Bool :=
  match s.loop with
  | .top => !s.fQuit && !s.fReset && !s.fPaused
  | .stopping => false
  | .a2 => !s.fReset && !s.fPaused
  | .fill _ _ => false
  | .start op => op == .step
  | .inEngine _ => false
  | .a5 => false
  | .a6 => false
  | .reload => false
  | .a7 => !s.fPaused
  | .a8 => true
  | .poll => false
  | .gate => false

/-- The next step is an `ITER`: the word itself stands first, the inbox is empty, or the first event is one of the host's own while the
host waits for its stop (R120, R128; log entries 8 and 18). -/
def State.iterNext (s : State) : Prop :=
  s.inbox = []
  ∨ (∃ ev rest, s.inbox = ev :: rest ∧ ev.byHost = true ∧ s.waitStop = true)
  ∨ (∃ raw rest, s.inbox = .line .sequencer raw :: rest ∧ decode raw = .ok .iter)

/-- An engine program makes no `BUS_WRITE` when it runs from `s`. -/
def writesNothing : EngineProg → State → Bool
  | .ret _, _ => true
  | .read a k, s => writesNothing (k (busRead a s).1) (busRead a s).2
  | .write _ _ _, _ => false

/-- An engine program makes no `BUS_READ` of `b` when it runs from `s`. -/
def readsNothingAt (b : Addr) : EngineProg → State → Bool
  | .ret _, _ => true
  | .read a k, s => a != b && readsNothingAt b (k (busRead a s).1) (busRead a s).2
  | .write a v k, s => readsNothingAt b k (busWrite a v s)

/-- `BUS_WRITE`s one after another. -/
def busWrites : List (Addr × Byte) → State → Host.Outcome State Fault Refusal
  | [], s => .next s
  | (a, v) :: ws, s =>
    match exec (.busWrite a v) s with
    | .next s' => busWrites ws s'
    | .fault r => .fault r
    | .refused r => .refused r

/-! ### States that differ only in what is observation -/

/-- Two states that differ at most in the trace and in the debug flag. -/
def SameButTrace (s t : State) : Prop := t = { s with trace := t.trace, fDebug := t.fDebug }

/-- Two outcomes that differ at most so. -/
def SameOutcomeButTrace : Host.Outcome State Fault Refusal → Host.Outcome State Fault Refusal → Prop
  | .next s, .next t => SameButTrace s t
  | .fault r, .fault r' => r = r'
  | .refused r, .refused r' => r = r'
  | _, _ => False

/-! ### The opcode table -/

/-- The bits that every word of an operation code has fixed (`mask` in spec/opcode_table.json). -/
def fixedBits (op : BitVec 4) : Word :=
  match op.toNat with
  | 0x0 => 0xFF0000FF
  | 0x1 => 0xFF000000
  | 0x2 => 0xFF0000FF
  | 0x3 => 0xFF0000FF
  | 0x4 => 0xFFFFC0FE
  | 0x5 => 0xFFFFC0FF
  | 0x6 => 0xFFFFFF00
  | 0x9 => 0xFFFFFFFE
  | 0xB => 0xFFFFFFFE
  | _ => 0xFFFFFFFF

/-- The value of those bits: the operation code, all other fixed bits zero (`match` in spec/opcode_table.json). -/
def fixedValue (op : BitVec 4) : Word := op ++ (0#28)

/-- A word has its fixed bits as the table says. -/
def tableWordOk (w : Word) : Bool := w &&& fixedBits (opField w) == fixedValue (opField w)

/-- The port an operation code belongs to (R67); none for `ITER` and the reserved codes, which no port accepts (R77). -/
def opPort (op : BitVec 4) : Option Source :=
  if op.toNat ≤ 0x1 then some .engine else if op.toNat ≤ 0xB then some .host else none

end Sys2Proof.Machine
end

