-- ==== Sys2Proof/Certificates/Slice0/Obligations.lean ====
section
/-! DEFINITION. The statements for the provers, from the numbered rules of spec/. Each docstring names the rules. -/
open Sys2Proof Sys2Proof.Machine

/-! ### Encoding (spec/30_encoding.md) -/

/-- R66, R67, R71, R72, R75: decoding an encoded operation gives it back, with every operand at every value. -/
def Obligations.EncodeThenDecode : Prop := ∀ i : Instr, decode (encode i) = .ok i

/-- R66 to R80: a word that decodes is the encoding of what it decodes to, so every word has at most one meaning and no bit of it
is ignored. -/
def Obligations.EveryWordHasOneMeaning : Prop := ∀ (raw : RawWord) (i : Instr), decode raw = .ok i → encode i = raw

/-- R67, R78 and the table's `match` and `mask`: the words that decode are those with a defined operation code whose fixed bits are
as the table has them, and no others. -/
def Obligations.WordsThatDecode : Prop :=
  ∀ w : Word, (∃ i, decode (.w w) = .ok i) ↔ ((opField w).toNat ≤ 0xC ∧ tableWordOk w = true)

/-- spec/95_test_vectors.md section 2.5: one word of each operation decodes as listed there (R75 for the strobes). -/
def Obligations.SpecWordsDecode : Prop :=
  decode (.w 0x10DC007D) = .ok (.busWrite 0xDC00 0x7D) ∧ decode (.w 0x00DC0100) = .ok (.busRead 0xDC01)
    ∧ decode (.w 0x20FFFF00) = .ok (.peekRam 0xFFFF) ∧ decode (.w 0x30D00800) = .ok (.peekRom 0xD008)
    ∧ decode (.w 0x40000A01) = .ok (.keySet 1 2 true) ∧ decode (.w 0x40003800) = .ok (.keySet 7 0 false)
    ∧ decode (.w 0x50000700) = .ok (.keyGet 0 7) ∧ decode (.w 0x600000AA) = .ok (.keyScan 0xAA)
    ∧ decode (.w 0x70000000) = .ok .init ∧ decode (.w 0x80000000) = .ok .reqReset
    ∧ decode (.w 0x90000001) = .ok (.reqPause true) ∧ decode (.w 0xA0000000) = .ok .reqStop
    ∧ decode (.w 0xB0000000) = .ok (.setDebug false) ∧ decode (.w 0xC0000000) = .ok .iter
    ∧ decode (.c 0b001) = .ok .engStep ∧ decode (.c 0b010) = .ok .engReset ∧ decode (.c 0b100) = .ok .engIrq

/-- R77, R78: on a command port a word with a reserved operation code, with a must-be-zero bit set, or of another port (`ITER` is of
none) is answered `ERR = 1`, `V = 0xFE`, and nothing else changes. -/
def Obligations.RefusedWordsChangeNothing : Prop :=
  ∀ (s : State) (w : Word) (rest : List Event), s.stopped = false →
    (s.inbox = .line .engine (.w w) :: rest → (tableWordOk w = false ∨ opPort (opField w) ≠ some .engine) →
      step s = .next { s with inbox := rest, engineResp := some 0x1FE })
    ∧ (s.inbox = .line .host (.w w) :: rest → s.waitStop = false →
        (tableWordOk w = false ∨ opPort (opField w) ≠ some .host) →
      step s = .next { s with inbox := rest, hostResp := some 0x1FE })

/-- R65, R67: a word on the port of the operation it decodes to is that operation: the step is `exec` of it on the state with the
word taken from the inbox. The host port takes words while its other operations are in progress (R57), but for the wait of
`REQ_STOP` (R128) and for a further `INIT` during an `INIT`, which is held back (the model's deduction, log entry 18). -/
def Obligations.StepRunsDecodedInstruction : Prop :=
  ∀ (s : State) (src : Source) (raw : RawWord) (rest : List Event) (i : Instr),
    s.inbox = .line src raw :: rest → decode raw = .ok i → i.source = src → (src = .host → s.waitStop = false) →
    (i = .init → s.hostInInit = false ∨ s.stopped = true) →
      step s = exec i { s with inbox := rest }

/-- With nothing in the inbox a step is one whole `ITER`: the model's choice (log entry 8) from R120, by which the sequencer performs
`ITER` after `ITER` with no command needed. While the host waits for its stop its next event stays in the inbox and the step is an
`ITER`: the model's deduction (log entry 18) from R128, which says only that the host issues nothing else while it waits. A further
`INIT` during an `INIT` stays in the inbox too, and the step is a turn of the one in progress: the same log entry's deduction. -/
def Obligations.SequencerRunsFreely : Prop :=
  ∀ s : State,
    (s.inbox = [] → step s = exec .iter s)
    ∧ (∀ ev rest, s.inbox = ev :: rest → ev.byHost = true → s.waitStop = true → step s = exec .iter s)
    ∧ (∀ ev rest, s.inbox = ev :: rest → ev.startsInit = true → s.waitStop = false → s.hostInInit = true → s.stopped = false →
        step s = .next (callTurn (s.calls.findIdx HostCall.isInit) s))

/-! ### Address Space (spec/20_memory.md, spec/40_address_space.md) -/

/-- R45: the read decode in its priority order, and that no two of its first three tests hold together (R47); what each case
resolves to; and the write decode, which is `RAM` for every address. -/
def Obligations.ReadDecodePriority : Prop :=
  (∀ (p : Params) (a : Addr),
    region p a =
      if a = p.kbdDataAddr then .keyboard
      else if p.basicBase.toNat ≤ a.toNat ∧ a.toNat < p.basicBase.toNat + 8192 then .basic
      else if p.kernelBase.toNat ≤ a.toNat ∧ a.toNat < p.kernelBase.toNat + 8192 then .kernel
      else .ram)
  ∧ (∀ (p : Params) (a : Addr), p.legal = true →
      ¬ (a = p.kbdDataAddr ∧ p.basicBase.toNat ≤ a.toNat ∧ a.toNat < p.basicBase.toNat + 8192)
      ∧ ¬ (a = p.kbdDataAddr ∧ p.kernelBase.toNat ≤ a.toNat ∧ a.toNat < p.kernelBase.toNat + 8192)
      ∧ ¬ (p.basicBase.toNat ≤ a.toNat ∧ a.toNat < p.basicBase.toNat + 8192
          ∧ p.kernelBase.toNat ≤ a.toNat ∧ a.toNat < p.kernelBase.toNat + 8192))
  ∧ (∀ (s : State) (a : Addr), s.stopped = false →
      ∃ t, exec (.busRead a) s = .next t
        ∧ t.engineResp = some (okResponse (match region s.cfg.params a with
            | .keyboard => scan s.km (s.readRam s.cfg.params.kbdRowselAddr)
            | .basic => s.readRom a
            | .kernel => s.readRom a
            | .ram => s.readRam a)))
  ∧ (∀ (s : State) (a : Addr) (v : Byte), s.ram.wf = true → s.stopped = false →
      ∃ t, exec (.busWrite a v) s = .next t ∧ t.readRam a = v ∧ t.rom = s.rom ∧ t.km = s.km)

/-- R86 (cases 2 to 4), R88: a `BUS_READ` outside the keyboard port answers the `ROM` byte in a window and the `RAM` byte elsewhere,
records it when `F.debug = 1`, and changes nothing else. -/
def Obligations.BusReadAnswersDecodedByte : Prop :=
  ∀ (s : State) (a : Addr), s.stopped = false → a ≠ s.cfg.params.kbdDataAddr →
    exec (.busRead a) s =
      .next { s with
        engineResp := some (okResponse
          (if s.cfg.params.basicBase.toNat ≤ a.toNat ∧ a.toNat < s.cfg.params.basicBase.toNat + 8192 then s.readRom a
           else if s.cfg.params.kernelBase.toNat ≤ a.toNat ∧ a.toNat < s.cfg.params.kernelBase.toNat + 8192 then s.readRom a
           else s.readRam a))
        trace := s.trace ++ (if s.fDebug then
          [.read a
            (if s.cfg.params.basicBase.toNat ≤ a.toNat ∧ a.toNat < s.cfg.params.basicBase.toNat + 8192 then s.readRom a
             else if s.cfg.params.kernelBase.toNat ≤ a.toNat ∧ a.toNat < s.cfg.params.kernelBase.toNat + 8192 then s.readRom a
             else s.readRam a)] else []) }

/-- R86 (case 1), R87, R88: a `BUS_READ` of the keyboard port answers the scan with the mask in `RAM[KBD_ROWSEL_ADDR]`, stores that
byte in the mirror, and leaves every other byte of `RAM` and all else as it was. -/
def Obligations.KeyboardPortRead : Prop :=
  ∀ s : State, s.stopped = false → s.ram.wf = true →
    ∃ t, exec (.busRead s.cfg.params.kbdDataAddr) s = .next t
      ∧ t.engineResp = some (okResponse (scan s.km (s.readRam s.cfg.params.kbdRowselAddr)))
      ∧ (∀ b, t.readRam b =
          if b = s.cfg.params.kbdDataAddr then scan s.km (s.readRam s.cfg.params.kbdRowselAddr) else s.readRam b)
      ∧ t.trace = s.trace ++ (if s.fDebug then
          [.read s.cfg.params.kbdDataAddr (scan s.km (s.readRam s.cfg.params.kbdRowselAddr))] else [])
      ∧ t = { s with ram := t.ram, trace := t.trace, engineResp := t.engineResp }

/-- R89 (C1): a `BUS_WRITE` to any address stores the byte in `RAM` there, records it when `F.debug = 1`, and changes no other byte
of `RAM` and nothing else; `PEEK_RAM` sees it, and in a ROM window a `BUS_READ` does not. -/
def Obligations.BusWriteLandsInRam : Prop :=
  ∀ (s : State) (a : Addr) (v : Byte), s.stopped = false → s.ram.wf = true →
    ∃ t, exec (.busWrite a v) s = .next t
      ∧ (∀ b, t.readRam b = if b = a then v else s.readRam b)
      ∧ t.trace = s.trace ++ (if s.fDebug then [.write a v] else [])
      ∧ t.engineResp = some (okResponse 0)
      ∧ t = { s with ram := t.ram, trace := t.trace, engineResp := t.engineResp }
      ∧ (∃ u, exec (.peekRam a) t = .next u ∧ u.hostResp = some (okResponse v))
      ∧ (region s.cfg.params a = .basic ∨ region s.cfg.params a = .kernel →
          ∃ u, exec (.busRead a) t = .next u ∧ u.engineResp = some (okResponse (s.readRom a)))

/-- R90, R55 (S3): outside `SHADOW` a read returns the byte most recently written there, however many writes to other addresses fall in
between. -/
def Obligations.ReadAfterWrite : Prop :=
  ∀ (s : State) (a : Addr) (v : Byte) (others : List (Addr × Byte)), s.stopped = false → s.ram.wf = true →
    shadowed s.cfg.params a = false → (∀ w ∈ others, w.1 ≠ a) →
    ∃ t u r, exec (.busWrite a v) s = .next t ∧ busWrites others t = .next u ∧ exec (.busRead a) u = .next r
      ∧ r.engineResp = some (okResponse v)

/-- R86 (a) (S1, S2, I3): what a `BUS_READ` of a window address answers does not depend on `RAM`. -/
def Obligations.RomWindowReadIgnoresRam : Prop :=
  ∀ (s : State) (m : Memory) (a : Addr), region s.cfg.params a = .basic ∨ region s.cfg.params a = .kernel →
    ∃ t u, exec (.busRead a) s = .next t ∧ exec (.busRead a) { s with ram := m } = .next u ∧ t.engineResp = u.engineResp

/-- R91: `PEEK_RAM` answers the byte of the array with no decode, no keyboard case, no record and no side effect. -/
def Obligations.PeekRamReadsTheArray : Prop :=
  ∀ (s : State) (a : Addr), s.stopped = false →
    exec (.peekRam a) s = .next { s with hostResp := some (okResponse (s.ram.read a.toNat)) }

/-- R92: `PEEK_ROM` answers the byte of the array at every offset, the character-generator block included, with no side effect. -/
def Obligations.PeekRomReachesEveryOffset : Prop :=
  ∀ (s : State) (a : Addr), s.stopped = false →
    exec (.peekRom a) s = .next { s with hostResp := some (okResponse (s.rom.read a.toNat)) }

/-! ### Keyboard Matrix (spec/41_keyboard_matrix.md) -/

/-- R101: `KEY_SET` clears the key's bit when pressed and sets it when released, leaves the other 63 bits of the matrix and all else
as they were, and done again changes nothing. -/
def Obligations.KeySetChangesOneBit : Prop :=
  ∀ (s : State) (row col : BitVec 3) (pressed : Bool), s.stopped = false →
    ∃ t, exec (.keySet row col pressed) s = .next t
      ∧ (∀ r c : BitVec 3, (t.kmRow r).getLsbD c.toNat =
          if r = row ∧ c = col then !pressed else (s.kmRow r).getLsbD c.toNat)
      ∧ t.hostResp = some (okResponse 0)
      ∧ t = { s with km := t.km, hostResp := t.hostResp }
      ∧ exec (.keySet row col pressed) t = .next t

/-- R102: `KEY_GET` answers 1 when the key's bit is clear and 0 when it is set, and changes nothing else. -/
def Obligations.KeyGetTellsWhetherHeld : Prop :=
  ∀ (s : State) (row col : BitVec 3), s.stopped = false →
    exec (.keyGet row col) s =
      .next { s with hostResp := some (if (s.kmRow row).getLsbD col.toNat = false then 0x001 else 0x000) }

/-- R100, R103: bit `c` of what `KEY_SCAN` answers is 0 exactly when some selected row (mask bit 0) has the key in column `c` held;
nothing else changes. -/
def Obligations.KeyScanCombinesSelectedRows : Prop :=
  ∀ (s : State) (m : Byte), s.stopped = false →
    ∃ v : Byte, exec (.keyScan m) s = .next { s with hostResp := some (okResponse v) }
      ∧ ∀ c : BitVec 3, v.getLsbD c.toNat = false ↔
          ∃ r : BitVec 3, m.getLsbD r.toNat = false ∧ (s.kmRow r).getLsbD c.toNat = false

/-- R104 (S4): the round trip of a key through `KEY_SET`, `KEY_GET` and a scan; released, and with several rows selected, its
column's bit is set only if no other selected row holds a key in that column. -/
def Obligations.KeyRoundTrip : Prop :=
  ∀ (s : State) (row col : BitVec 3), s.stopped = false →
    (∃ t u, exec (.keySet row col true) s = .next t ∧ exec (.keyGet row col) t = .next u ∧ u.hostResp = some 0x001
      ∧ ∀ m : Byte, m.getLsbD row.toNat = false → (scan t.km m).getLsbD col.toNat = false)
    ∧ (∃ t u, exec (.keySet row col false) s = .next t ∧ exec (.keyGet row col) t = .next u ∧ u.hostResp = some 0x000
      ∧ (scan t.km (~~~((1#8) <<< row.toNat))).getLsbD col.toNat = true
      ∧ ∀ m : Byte, m.getLsbD row.toNat = false →
          ((scan t.km m).getLsbD col.toNat = true ↔
            ∀ r : BitVec 3, r ≠ row → m.getLsbD r.toNat = false → (t.kmRow r).getLsbD col.toNat = true))

/-- R105 (S5, I5): the scan of an AND of masks is the AND of the scans, two selected rows give the AND of both rows, and a mask that
selects none gives all-ones. -/
def Obligations.ScanReduction : Prop :=
  (∀ (km : Vector Byte 8) (m1 m2 : Byte), scan km (m1 &&& m2) = scan km m1 &&& scan km m2)
  ∧ (∀ km : Vector Byte 8, scan km 0xFF = 0xFF)
  ∧ (∀ (s : State) (r1 r2 : BitVec 3), r1 ≠ r2 →
      scan s.km (0xFF &&& ~~~((1#8) <<< r1.toNat) &&& ~~~((1#8) <<< r2.toNat)) = s.kmRow r1 &&& s.kmRow r2)

/-! ### Machine Control: host commands (spec/43_machine_control.md) -/

/-- R123, R50, R182: an admitted `INIT` with three images of the right sizes zero-fills `RAM`, loads byte `i` of each image at its
base plus `i`, leaves zero in the rest of `ROM`, sets `INITED`, answers ok, and leaves every flag, the keys, `LFT` and the engine as
they were. -/
def Obligations.InitLoadsFirmware : Prop :=
  ∀ (s : State) (basic kernel chargen : List Byte), s.stopped = false → s.inited = false → s.fPaused = true →
    s.loopInStep = false → s.images = ⟨some basic, some kernel, some chargen⟩ →
    basic.length = 8192 → kernel.length = 8192 → chargen.length = 4096 →
    ∃ t, exec .init s = .next t
      ∧ (∀ a, t.readRam a = 0)
      ∧ (∀ i < 8192, t.rom.read (s.cfg.params.basicBase.toNat + i) = basic[i]?.getD 0)
      ∧ (∀ i < 8192, t.rom.read (s.cfg.params.kernelBase.toNat + i) = kernel[i]?.getD 0)
      ∧ (∀ i < 4096, t.rom.read (s.cfg.params.chargenBase.toNat + i) = chargen[i]?.getD 0)
      ∧ (∀ a : Addr,
          ¬ (s.cfg.params.basicBase.toNat ≤ a.toNat ∧ a.toNat < s.cfg.params.basicBase.toNat + 8192) →
          ¬ (s.cfg.params.kernelBase.toNat ≤ a.toNat ∧ a.toNat < s.cfg.params.kernelBase.toNat + 8192) →
          ¬ (s.cfg.params.chargenBase.toNat ≤ a.toNat ∧ a.toNat < s.cfg.params.chargenBase.toNat + 4096) →
          t.readRom a = 0)
      ∧ t.inited = true ∧ t.hostResp = some 0x000
      ∧ t = { s with ram := t.ram, rom := t.rom, inited := t.inited, hostResp := t.hostResp, draws := t.draws }

/-- R123, R150: an admitted `INIT` reports the first image, in the order BASIC, kernel, character generator, that is absent or has
the wrong length, and changes nothing else. -/
def Obligations.InitReportsFirstBadImage : Prop :=
  ∀ s : State, s.stopped = false → s.inited = false → s.fPaused = true → s.loopInStep = false →
    ((∀ b, s.images.basic = some b → b.length ≠ 8192) → exec .init s = .next { s with hostResp := some 0x101 })
    ∧ (∀ b, s.images.basic = some b → b.length = 8192 →
        (∀ k, s.images.kernel = some k → k.length ≠ 8192) → exec .init s = .next { s with hostResp := some 0x102 })
    ∧ (∀ b k, s.images.basic = some b → b.length = 8192 → s.images.kernel = some k → k.length = 8192 →
        (∀ c, s.images.chargen = some c → c.length ≠ 4096) → exec .init s = .next { s with hostResp := some 0x103 })

/-- R124: an `INIT` of a running machine, and a second one after a successful one, are answered `ERR = 1`, `V = 0xFD` and change
nothing else; one that meets an engine step in progress has no meaning (U1). -/
def Obligations.InitNotAdmitted : Prop :=
  ∀ s : State, s.stopped = false →
    ((s.fPaused = false ∨ s.inited = true) → exec .init s = .next { s with hostResp := some 0x1FD })
    ∧ (s.fPaused = true → s.inited = false → s.loopInStep = true → exec .init s = .refused .initDuringStep)

/-- R126, R127, R129: `REQ_RESET` sets `F.reset`, `REQ_PAUSE p` assigns `F.paused`, `SET_DEBUG b` assigns `F.debug`; each answers at
once and changes nothing else, `LFT` included (C2, C3). -/
def Obligations.FlagCommandsAssign : Prop :=
  ∀ (s : State) (p b : Bool), s.stopped = false →
    exec .reqReset s = .next { s with fReset := true, hostResp := some 0x000 }
    ∧ exec (.reqPause p) s = .next { s with fPaused := p, hostResp := some 0x000 }
    ∧ exec (.setDebug b) s = .next { s with fDebug := b, hostResp := some 0x000 }

/-- R128, R74: `REQ_STOP` sets `F.quit` and waits, unanswered; the iteration that then sees the flag at its first action sets
`STOPPED` and lets the answer out. -/
def Obligations.ReqStopWaitsForTheSequencer : Prop :=
  ∀ s : State, s.stopped = false →
    exec .reqStop s = .next { s with fQuit := true, waitStop := true, hostResp := none }
    ∧ (s.loop = .top → exec .iter { s with fQuit := true, waitStop := true, hostResp := none } =
        .next { s with fQuit := true, stopped := true, waitStop := false, hostResp := some 0x000 })

/-- R25, R141, R142: the transitions of the machine-state FSM. -/
def Obligations.FsmTransitions : Prop :=
  ∀ s t : State,
    (s.fsm = .uninitialized → exec .init s = .next t →
      t.fsm = .idle ∨ (t.fsm = .uninitialized ∧ t = { s with hostResp := t.hostResp }))
    ∧ (s.fsm ≠ .stopped → exec (.reqPause false) s = .next t → t.fsm = .running)
    ∧ (s.fsm ≠ .stopped → exec (.reqPause true) s = .next t → t.fsm = if s.inited then .idle else .uninitialized)
    ∧ (s.fsm ≠ .stopped → exec .reqReset s = .next t → t.fsm = s.fsm ∧ t.pendingReset = true)
    ∧ (s.fsm ≠ .stopped → exec .reqStop s = .next t → t.fsm = s.fsm)
    ∧ (s.fsm ≠ .stopped → s.loop = .top → s.fQuit = true → exec .iter s = .next t → t.fsm = .stopped)
    ∧ (s.fsm ≠ .stopped → s.loop = .top → s.fQuit = false → s.fReset = true → exec .iter s = .next t →
        t.fsm = s.fsm ∧ t.pendingReset = false)
    ∧ (∀ i, s.fsm = .stopped → exec i s = .next t → t.fsm = .stopped)

/-- R143, R151: after `STOPPED = 1` every command on either port is answered `ERR = 1`, `V = 0xFF`, no iteration takes place, no strobe
is issued, and nothing else changes. That a strobe word standing alone then does nothing is the model's choice (log entry 15). -/
def Obligations.StoppedRefusesEverything : Prop :=
  ∀ (s : State) (i : Instr), s.stopped = true →
    (i.source = .engine → exec i s = .next { s with engineResp := some 0x1FF })
    ∧ (i.source = .host → exec i s = .next { s with hostResp := some 0x1FF })
    ∧ (i.source = .sequencer ∨ i.source = .control → exec i s = .next s)

/-- R143: `Stopped` is terminal. Whatever the next event is, with no operation of the host in progress, a step leaves `RAM`, `ROM`, the
keys, `LFT`, every flag, the trace and the engine-control port as they were. What an engine of the host's own `nmi` finds then
is log entry 10. -/
def Obligations.StoppedIsTerminal : Prop :=
  ∀ s t : State, s.Inv → s.stopped = true → s.calls = [] → step s = .next t →
    t = { s with
      inbox := t.inbox, hostResp := t.hostResp, engineResp := t.engineResp, images := t.images, eng := t.eng, calls := t.calls,
      timeIn := t.timeIn }

/-! ### The iteration (spec/43_machine_control.md R135 to R146) -/

/-- R136: the iteration that reads `F.quit = 1` sets `STOPPED`, lifts the wait of `REQ_STOP`, and performs nothing else, then or ever:
no reset service, no step, no timer action. -/
def Obligations.QuitIterationOnlyStops : Prop :=
  ∀ s : State, s.stopped = false → s.loop = .top → s.fQuit = true →
    ∃ t, exec .iter s = .next t ∧ t.stopped = true
      ∧ (s.waitStop = true → t.waitStop = false ∧ t.hostResp = some 0x000)
      ∧ t = { s with stopped := t.stopped, waitStop := t.waitStop, hostResp := t.hostResp }
      ∧ exec .iter t = .next t

/-- R145 (R113): a paused iteration reloads `LFT` with the sample it takes and has no other effect: no engine operation, no poll, no
`RAM` access. The sample is never earlier than the one before (R21). -/
def Obligations.PausedIterationOnlyReloads : Prop :=
  ∀ s : State, s.stopped = false → s.loop = .top → s.fQuit = false → s.fReset = false → s.fPaused = true →
    ∃ t, exec .iter s = .next t ∧ t.lft = t.clock ∧ s.clock ≤ t.clock
      ∧ (∀ d, s.timeIn = some d → t.clock = s.clock + d ∧ t.timeIn = none)
      ∧ t = { s with lft := t.lft, clock := t.clock, timeIn := t.timeIn, draws := t.draws }

/-- R135, R146, R111, R112: a running iteration makes exactly one `ENG_STEP` and then one poll; the poll reloads `LFT` when 16666
microseconds have passed since it, and then, and only if the gate the step left is open, makes exactly one `ENG_IRQ`. What the
transactions leave is what the step leaves, or, with a request, what the engine's `irq` makes of it. No flag, key or `ROM` byte
changes. -/
def Obligations.RunningIterationStepsThenPolls : Prop :=
  ∀ s : State, s.stopped = false → s.loop = .top → s.fQuit = false → s.fReset = false → s.fPaused = false →
    s.hostInInit = false →
    ∃ t, exec .iter s = .next t ∧ s.clock ≤ t.clock
      ∧ (t.clock - s.lft < 16666 →
          t.lft = s.lft ∧ t.control = s.control ++ [0b001, 0] ∧ t.SameTransactions (stepEngine s))
      ∧ (16666 ≤ t.clock - s.lft → t.lft = t.clock
          ∧ ((stepEngine s).gateOpen = false →
              t.control = s.control ++ [0b001, 0] ∧ t.SameTransactions (stepEngine s))
          ∧ ((stepEngine s).gateOpen = true →
              t.control = s.control ++ [0b001, 0, 0b100, 0]
                ∧ t.SameTransactions (strobe .irq ((stepEngine s).sampleNow.2.setLft t.clock))))
      ∧ (∀ d, s.timeIn = some d → t.clock = s.clock + d ∧ t.timeIn = none)
      ∧ (s.engineBusy = false → t.calls = s.calls)
      ∧ t = { s with
          ram := t.ram, trace := t.trace, engineResp := t.engineResp, eng := t.eng, control := t.control, lft := t.lft,
          clock := t.clock, timeIn := t.timeIn, draws := t.draws, calls := t.calls }

/-- R137, R182, R139, R159, R111: an iteration that reads `F.reset = 1` (and not `F.quit`) zeroes `RAM` first and then issues
`ENG_RESET`, once, so that what the engine's `reset` writes survives; it makes no `ENG_STEP`, clears the flag, and leaves `ROM`, the
keys and every other flag as they were. Paused it reloads `LFT`; running, with the default of `RESET_ITER_POLLS_TIMER`, it leaves
`LFT` alone and takes no sample; running with that parameter true it polls: `LFT` and the request as R111 has them. Where it takes a
sample, that is the time shown for it, if one is (R21, R73). Where it takes none it discards the time shown: the model's choice
(log entry 3). -/
def Obligations.ResetIterationServices : Prop :=
  ∀ s : State, s.stopped = false → s.loop = .top → s.fQuit = false → s.fReset = true →
    ∃ t, exec .iter s = .next t ∧ t.fReset = false
      ∧ (s.fPaused = true →
          t.lft = t.clock ∧ s.clock ≤ t.clock ∧ t.control = s.control ++ [0b010, 0] ∧ t.SameTransactions (resetServed s))
      ∧ (s.fPaused = false → s.cfg.params.resetIterPollsTimer = false →
          t.lft = s.lft ∧ t.clock = s.clock ∧ t.control = s.control ++ [0b010, 0] ∧ t.SameTransactions (resetServed s))
      ∧ (s.fPaused = false → s.cfg.params.resetIterPollsTimer = true → s.clock ≤ t.clock
          ∧ (t.clock - s.lft < 16666 →
              t.lft = s.lft ∧ t.control = s.control ++ [0b010, 0] ∧ t.SameTransactions (resetServed s))
          ∧ (16666 ≤ t.clock - s.lft → t.lft = t.clock
              ∧ ((resetServed s).gateOpen = false →
                  t.control = s.control ++ [0b010, 0] ∧ t.SameTransactions (resetServed s))
              ∧ ((resetServed s).gateOpen = true →
                  t.control = s.control ++ [0b010, 0, 0b100, 0]
                    ∧ t.SameTransactions (strobe .irq (((resetServed s).setReset false).sampleNow.2.setLft t.clock)))))
      ∧ (∀ d, s.timeIn = some d → t.timeIn = none
          ∧ (s.fPaused = true ∨ s.cfg.params.resetIterPollsTimer = true → t.clock = s.clock + d))
      ∧ (s.engineBusy = false → t.calls = s.calls)
      ∧ t = { s with
          fReset := t.fReset, ram := t.ram, trace := t.trace, engineResp := t.engineResp, eng := t.eng, control := t.control,
          lft := t.lft, clock := t.clock, timeIn := t.timeIn, draws := t.draws, calls := t.calls }

/-- R137 (S6): when the engine's `reset`, as it runs on the zeroed `RAM`, makes no `BUS_WRITE`, a reset iteration leaves every byte of
`RAM` zero but, if it reads the keyboard port, the mirror of that port (R87); the engine's `reset` is invoked exactly once; and no
request is made, the zero-fill having closed the gate (R160), unless the mirror is the gate's own cell. -/
def Obligations.ResetIterationZeroesRam : Prop :=
  ∀ s : State, s.stopped = false → s.loop = .top → s.fQuit = false → s.fReset = true → s.engineBusy = false →
    writesNothing (engineCall s.cfg.engine .reset s.eng)
      (((s.setDraws (s.draws + 1)).setRam Memory.zero).showControl 0b010) = true →
    ∃ t, exec .iter s = .next t
      ∧ (s.cfg.params.irqEnAddr ≠ s.cfg.params.kbdDataAddr →
          (∀ a, a ≠ s.cfg.params.kbdDataAddr → t.readRam a = 0) ∧ t.control = s.control ++ [0b010, 0]
            ∧ t.eng = (resetServed s).eng)
      ∧ (readsNothingAt s.cfg.params.kbdDataAddr (engineCall s.cfg.engine .reset s.eng)
            (((s.setDraws (s.draws + 1)).setRam Memory.zero).showControl 0b010) = true →
          (∀ a, t.readRam a = 0) ∧ t.control = s.control ++ [0b010, 0] ∧ t.eng = (resetServed s).eng)

/-- R115 (I8, I9, I11): an iteration makes at most one `ENG_IRQ` and at most one other strobe; when it makes a request at least 16666
microseconds of sampled time have passed since `LFT`, which then is the sample; with `F.paused`, or `F.quit` seen, it makes none. -/
def Obligations.AtMostOneRequestPerIteration : Prop :=
  ∀ s t : State, s.loop = .top → exec .iter s = .next t →
    (t.control = s.control ∨ t.control = s.control ++ [0b001, 0] ∨ t.control = s.control ++ [0b010, 0]
      ∨ ((t.control = s.control ++ [0b001, 0, 0b100, 0] ∨ t.control = s.control ++ [0b010, 0, 0b100, 0])
        ∧ s.lft + 16666 ≤ t.clock ∧ t.lft = t.clock ∧ s.fPaused = false ∧ s.fQuit = false))

/-- R111, R112, R157 (C2): the poll. Below the threshold it does nothing; from it on it reloads `LFT` with the sample and makes one
request if bit `IRQ_EN_BIT` of `RAM[IRQ_EN_ADDR]` is 1 and none if it is 0. -/
def Obligations.TimerPollCompares : Prop :=
  ∀ (s : State) (t : Nat),
    (t - s.lft < 16666 → timerPoll t s = s)
    ∧ (16666 ≤ t - s.lft →
        (s.readRam s.cfg.params.irqEnAddr).getLsbD s.cfg.params.irqEnBit.toNat = false →
        timerPoll t s = { s with lft := t })
    ∧ (16666 ≤ t - s.lft →
        (s.readRam s.cfg.params.irqEnAddr).getLsbD s.cfg.params.irqEnBit.toNat = true →
        (timerPoll t s).lft = t ∧ (timerPoll t s).control = s.control ++ [0b100, 0])

/-- R75, R121, R138, R139, R140: with no operation in progress a strobe shows its code on the engine-control port, runs the engine's
operation from the engine's state to its end, and shows idle; `ENG_STEP` records `(STEP)` first when `F.debug = 1`. No flag, key,
`ROM` byte or time changes. That a strobe can stand alone, outside an iteration, is the model's choice (log entry 15). -/
def Obligations.StrobesInvokeTheEngine : Prop :=
  ∀ s : State, s.stopped = false → s.engineBusy = false →
    (s.hostInInit = false →
      ∃ t, exec .engStep s = .next t ∧ t.control = s.control ++ [0b001, 0]
        ∧ { t with control := s.control } =
            { runProg (engineCall s.cfg.engine .step s.eng) ({ s with
                trace := s.trace ++ (if s.fDebug then [.step] else []), control := s.control ++ [0b001] }) with
              control := s.control }
        ∧ t = { s with
            ram := t.ram, trace := t.trace, engineResp := t.engineResp, eng := t.eng, control := t.control })
    ∧ (∃ t, exec .engReset s = .next t ∧ t.control = s.control ++ [0b010, 0]
        ∧ { t with control := s.control } =
            { runProg (engineCall s.cfg.engine .reset s.eng) ({ s with control := s.control ++ [0b010] }) with
              control := s.control }
        ∧ t = { s with
            ram := t.ram, trace := t.trace, engineResp := t.engineResp, eng := t.eng, control := t.control })
    ∧ (∃ t, exec .engIrq s = .next t ∧ t.control = s.control ++ [0b100, 0]
        ∧ { t with control := s.control } =
            { runProg (engineCall s.cfg.engine .irq s.eng) ({ s with control := s.control ++ [0b100] }) with
              control := s.control }
        ∧ t = { s with
            ram := t.ram, trace := t.trace, engineResp := t.engineResp, eng := t.eng, control := t.control })

/-! ### The whole machine -/

/-- R165, R35 (I13): whatever transactions an engine operation makes, it changes no flag, no key, no `ROM` byte, not `LFT`, and nothing
else but `RAM`, the trace, its port's response and its own state; and `RAM` keeps its form. So it is for an operation from its
beginning to its end, and, access by access, for each turn of one on either thread (R57), where the place it has reached changes
too, and the engine-control port when the sequencer's ends (R75). What begins an operation, a strobe, the host's `nmi`, or either of
them begun for others to interleave with, writes beside that the port (a strobe only), and the places of the operations that an
overlap frees (R197, log entry 2). -/
def Obligations.EngineCannotReachTheRest : Prop :=
  (∀ (p : EngineProg) (s : State),
    runProg p s =
      { s with
        ram := (runProg p s).ram, trace := (runProg p s).trace, engineResp := (runProg p s).engineResp,
        eng := (runProg p s).eng }
    ∧ (s.ram.wf = true → (runProg p s).ram.wf = true))
  ∧ (∀ (run : EngineRun) (s : State),
    (runTurn run s).2 =
      { s with
        ram := (runTurn run s).2.ram, trace := (runTurn run s).2.trace, engineResp := (runTurn run s).2.engineResp,
        eng := (runTurn run s).2.eng }
    ∧ (s.ram.wf = true → (runTurn run s).2.ram.wf = true))
  ∧ (∀ (run : EngineRun) (s : State), s.stopped = false → s.loop = .inEngine run →
    ∃ t, loopTurn s = .next t
      ∧ t = { s with
          ram := t.ram, trace := t.trace, engineResp := t.engineResp, eng := t.eng, loop := t.loop, control := t.control }
      ∧ (s.ram.wf = true → t.ram.wf = true))
  ∧ (∀ (k : Nat) (run : EngineRun) (s t : State), s.calls[k]? = some (.nmi run) → t = callTurn k s →
    t = { s with ram := t.ram, trace := t.trace, engineResp := t.engineResp, eng := t.eng, calls := t.calls }
      ∧ (s.ram.wf = true → t.ram.wf = true))
  ∧ (∀ (op : EngineOp) (s t : State), t = strobe op s →
    t = { s with
        ram := t.ram, trace := t.trace, engineResp := t.engineResp, eng := t.eng, control := s.control ++ [strobeCode op, 0]
        loop := t.loop, calls := t.calls, draws := t.draws }
      ∧ (s.engineBusy = false → t.loop = s.loop ∧ t.calls = s.calls ∧ t.draws = s.draws)
      ∧ (s.ram.wf = true → t.ram.wf = true))
  ∧ (∀ (op : EngineOp) (s t : State), startTurn op s = .next t →
    t = { s with control := s.control ++ [strobeCode op], loop := t.loop, calls := t.calls, draws := t.draws })
  ∧ (∀ s t : State, t = hostNmi s →
    t = { s with
        ram := t.ram, trace := t.trace, engineResp := t.engineResp, eng := t.eng, loop := t.loop, calls := t.calls
        draws := t.draws }
      ∧ (s.ram.wf = true → t.ram.wf = true))
  ∧ (∀ s t : State, t = beginNmi s → t = { s with loop := t.loop, calls := t.calls, draws := t.draws })

/-- R34: every element at its power-on value: the flags, the keys, `RAM`, `ROM`, the outputs; the machine is `Uninitialized` with a
reset pending. The construction time is the model's origin of time (log entry 6). -/
def Obligations.PowerOnValues : Prop :=
  State.reset.fReset = true ∧ State.reset.fPaused = true ∧ State.reset.fQuit = false ∧ State.reset.fDebug = false
    ∧ State.reset.inited = false ∧ State.reset.stopped = false
    ∧ (∀ r : BitVec 3, State.reset.kmRow r = 0xFF)
    ∧ (∀ a : Addr, State.reset.readRam a = 0) ∧ (∀ a : Addr, State.reset.readRom a = 0)
    ∧ State.reset.lft = State.reset.clock ∧ State.reset.trace = [] ∧ State.reset.control = []
    ∧ State.reset.fsm = .uninitialized ∧ State.reset.pendingReset = true

/-- The invariant of Safety.lean holds at power-on. -/
def Obligations.PowerOnMeetsTheInvariant : Prop := State.reset.Inv

/-- The invariant of Safety.lean (canonical memories; R21, R20, R128, R136, R143, R75, R140) is kept by every step, from every state
that meets it. -/
def Obligations.StepKeepsTheInvariant : Prop := ∀ s t : State, s.Inv → step s = .next t → t.Inv

/-- R14, R124 (I1): once `INITED`, with no `INIT` in progress, no step changes `ROM`, and that stays so. -/
def Obligations.RomIsFixedOnceInitialised : Prop :=
  ∀ s t : State, s.inited = true → s.hostInInit = false → step s = .next t →
    t.rom = s.rom ∧ t.inited = true ∧ t.hostInInit = false

/-- R15, R35 (I2): the only step that changes the key matrix is a `KEY_SET` word on the host port, and it changes one bit. -/
def Obligations.OnlyKeySetChangesKeys : Prop :=
  ∀ s t : State, step s = .next t →
    t.km = s.km
    ∨ ∃ raw rest row col p, s.inbox = .line .host raw :: rest ∧ decode raw = .ok (.keySet row col p)
        ∧ ∀ r c : BitVec 3, ¬ (r = row ∧ c = col) → (t.kmRow r).getLsbD c.toNat = (s.kmRow r).getLsbD c.toNat

/-- R16, R21, R111 (d) (I7): `LFT` and the sampled time never go back, and `LFT` never passes the last sample. -/
def Obligations.TimeNeverGoesBack : Prop :=
  ∀ s t : State, s.lft ≤ s.clock → step s = .next t → s.lft ≤ t.lft ∧ t.lft ≤ t.clock ∧ s.clock ≤ t.clock

/-- R20, R22, R23 (I10): `STOPPED`, `INITED` and `F.quit` never return to 0. -/
def Obligations.LatchedBitsStay : Prop :=
  ∀ s t : State, step s = .next t →
    (s.stopped = true → t.stopped = true) ∧ (s.inited = true → t.inited = true) ∧ (s.fQuit = true → t.fQuit = true)

/-- R47, R6: no step changes the configuration, so the decode is the same function from power-on to `Stopped`. -/
def Obligations.ConfigurationIsFixed : Prop := ∀ s t : State, step s = .next t → t.cfg = s.cfg

/-- R171 (I12): with `F.debug = 0` no step emits a record. -/
def Obligations.NoTraceWithoutDebug : Prop := ∀ s t : State, s.fDebug = false → step s = .next t → t.trace = s.trace

/-- R94, R144, R152, U1, U15, R75, R57: nothing faults, and a step is refused exactly in the cases to which the spec, or what the model
deduces or chooses from it, gives no meaning. While an engine step is in progress that is an `INIT` that is admitted (R124, U1). While
an `INIT` is in progress it is a step that would begin an engine step: an `ITER` that comes to one, the loop thread's own turn at the
strobe of A8, or the word `ENG_STEP`; that this order of the two is undefined as well is the model's deduction (log entry 17). No
command of the host is refused then, and no time shown. The others are a clock that steps back (U15), a word where none can stand,
and a strobe while one is active: that these last two refuse is the model's choice (log entries 16 and 15).
Which step is an `ITER`, and where it begins, is the model's too: with an empty inbox (its choice, log entry 8), in place of a host
event held in the wait of `REQ_STOP` (its deduction, log entry 18), and from inside an iteration (its choice, log entry 21). That an
`INIT` held so, or by another `INIT` in progress, is not refused is log entry 18 again. -/
def Obligations.StepRefusesOnlyTheUndefined : Prop :=
  ∀ (s : State),
    (∀ f, step s ≠ .fault f)
    ∧ ∀ r, step s = .refused r ↔
        (r = .initDuringStep ∧ s.stopped = false ∧ s.hostInInit = true
          ∧ (s.iterNext ∧ s.iterBeginsStep = true
            ∨ (∃ rest, s.inbox = .loopTurn :: rest ∧ s.loop = .start .step)
            ∨ (s.strobeActive = false ∧ ∃ raw rest, s.inbox = .line .control raw :: rest ∧ decode raw = .ok .engStep)))
        ∨ (r = .initDuringStep ∧ s.stopped = false ∧ s.hostInInit = false ∧ s.waitStop = false
          ∧ s.loopInStep = true ∧ s.fPaused = true ∧ s.inited = false
          ∧ ∃ rest, s.inbox = .beginInit :: rest ∨ ∃ raw, s.inbox = .line .host raw :: rest ∧ decode raw = .ok .init)
        ∨ (r = .notOnThisLine ∧ ∃ src raw rest, s.inbox = .line src raw :: rest ∧ (src = .sequencer ∨ src = .control)
            ∧ (∀ i, decode raw = .ok i → i.source ≠ src) ∧ ¬ (src = .control ∧ decode raw = .error .idleStrobe))
        ∨ (r = .clockSteppedBack ∧ ∃ x rest, s.inbox = .now x :: rest ∧ x < s.clock)
        ∨ (r = .strobeActive ∧ s.stopped = false ∧ s.strobeActive = true
            ∧ ∃ raw rest i, s.inbox = .line .control raw :: rest ∧ decode raw = .ok i ∧ i.source = .control)

/-- R24, R171: the debug mode and the trace are purely observational. Two states that differ at most in them step to outcomes that
differ at most in them. -/
def Obligations.TraceHasNoEffect : Prop :=
  ∀ s t : State, SameButTrace s t → SameOutcomeButTrace (step s) (step t)

/-- R13, R55: the laws of memory: a read finds the last write and no other byte changes, every write keeps the canonical form, and
memories in that form that read alike are equal. -/
def Obligations.MemoryLaws : Prop :=
  (∀ (m : Memory) (a b : Nat) (v : Byte), m.wf = true → (m.write a v).read b = if b = a then v else m.read b)
  ∧ (∀ (m : Memory) (a : Addr) (v : Byte), m.wf = true → (m.write a.toNat v).wf = true)
  ∧ (∀ m n : Memory, m.wf = true → n.wf = true → (∀ a, m.read a = n.read a) → m = n)

/-! ### Interleaving (spec/20_memory.md R57, spec/70_reset_and_hazards.md) -/

/-- R135, R57: `ITER` is its own actions with nothing in between: the loop thread's turns alone (log entries 12 and 13) reach just the
state that `ITER` answers, the 65536 writes of a zero-fill in any order included. From the first action that is the iteration of
R135; that `ITER` from a position inside an iteration finishes that one is the model's choice (log entry 21). -/
def Obligations.IterationIsItsTurns : Prop :=
  ∀ s t : State, s.ram.wf = true → exec .iter s = .next t → ∃ n, loopTurns n s = .next t

/-- R123, R57: a successful `INIT` is its own writes with nothing in between: begun element by element (log entry 12) beside whatever
else the host has in progress, and moved alone, it reaches just the state that `INIT` answers. -/
def Obligations.InitIsItsTurns : Prop :=
  ∀ s u : State, s.ram.wf = true → s.rom.wf = true → beginInit s = .next u → u.calls ≠ s.calls →
    ∃ n, exec .init s = .next (callTurns s.calls.length n u)

/-- R193: a `REQ_RESET` that falls between the sequencer's read of `F.reset` and its clearing of it is absorbed by the service in
progress: when that iteration ends, no reset is pending. That `ITER` there finishes the iteration in progress is the model's choice
(log entry 21). -/
def Obligations.RequestDuringServiceIsAbsorbed : Prop :=
  ∀ s : State, s.stopped = false →
    ((∃ k order, s.loop = .fill k order) ∨ s.loop = .start .reset ∨ (∃ run, s.loop = .inEngine run ∧ run.op = .reset)
      ∨ s.loop = .a5) →
    ∃ u t, exec .reqReset s = .next u ∧ u.fReset = true ∧ exec .iter u = .next t ∧ t.fReset = false

/-- R191, R135: a `REQ_PAUSE 1` that falls after the sequencer's read of `F.paused` does not hold back the step of that iteration.
That `ITER` there finishes the iteration in progress is the model's choice (log entry 21). -/
def Obligations.LatePauseStillSteps : Prop :=
  ∀ s : State, s.stopped = false → s.loop = .a7 → s.fPaused = false → s.hostInInit = false →
    ∃ u v t, loopTurn s = .next u ∧ exec (.reqPause true) u = .next v ∧ exec .iter v = .next t ∧ t.fPaused = true
      ∧ ∃ more, t.control = s.control ++ [0b001, 0] ++ more

/-- R198: a key changed between the row reads of one scan gives the scan with the old row or the scan with the new one. -/
def Obligations.KeyChangeDuringScan : Prop :=
  ∀ (km : Vector Byte 8) (row : BitVec 3) (v m : Byte) (r : Nat), r ≤ 8 →
    scanRows (km.set row.toNat v row.isLt) m (8 - r) r (scanRows km m r 0 0xFF) = scan km m
    ∨ scanRows (km.set row.toNat v row.isLt) m (8 - r) r (scanRows km m r 0 0xFF) = scan (km.set row.toNat v row.isLt) m

/-- R197 (U5): an `nmi` the host begins while the sequencer's engine operation is in progress overlaps it: from there on what either
does is free, and the block's own state is untouched. Log entry 2: that the transactions too are free is the model's choice. -/
def Obligations.OverlapFreesBothOperations : Prop :=
  ∀ (s : State) (run : EngineRun), s.loop = .inEngine run →
    beginNmi s =
      { s with
        loop := .inEngine { run with prog := .free (s.draws + 1), answers := [] }
        calls := disturbCalls (s.draws + 2) s.calls ++ [.nmi ⟨.nmi, .free s.draws, [], .idle⟩]
        draws := s.draws + 2 + s.calls.length }

/-- R122, R155: an `nmi` that overlaps nothing is its own transactions from the engine's state, and changes no sequencer state, no flag
and no strobe. -/
def Obligations.QuietNmiOnlyRunsTheEngine : Prop :=
  ∀ s : State, s.engineBusy = false →
    hostNmi s = runProg (engineCall s.cfg.engine .nmi s.eng) s
    ∧ hostNmi s =
        { s with
          ram := (hostNmi s).ram, trace := (hostNmi s).trace, engineResp := (hostNmi s).engineResp, eng := (hostNmi s).eng }

/-- R186, R83: the boot contract. The script `BOOT` with three images of the right sizes, from a machine not yet initialised, ends
`Running` with the images loaded, no reset pending and exactly one `ENG_RESET`, made after the load: when the images are in `ROM`,
two steps on, no strobe has been made yet. -/
def Obligations.BootReachesRunning : Prop :=
  ∀ (s : State) (im : Images), s.inbox = bootScript im → s.waitStop = false → s.hostInInit = false → s.loop = .top →
    s.stopped = false → s.fQuit = false → s.inited = false → s.fPaused = true → (∀ b, imageOk im b = true) →
    (∃ u, Sys2Proof.core.run 2 s = .next u ∧ u.rom = loadedRom s.cfg.params im ∧ u.control = s.control)
    ∧ ∃ t, Sys2Proof.core.run 5 s = .next t ∧ t.fsm = .running ∧ t.inited = true ∧ t.fReset = false ∧ t.inbox = []
      ∧ t.rom = loadedRom s.cfg.params im ∧ t.control = s.control ++ [0b010, 0]

/-! ### Operations of the host in progress, and the time input -/

/-- R122, R57, R103: an `nmi` and a `KEY_SCAN` are their own accesses (log entry 12) with nothing in between. That goes for an `nmi` that
overlaps another engine operation too, which then makes the transactions of a free program: the model's choice (log entry 2). -/
def Obligations.NmiAndKeyScanAreTheirTurns : Prop :=
  (∀ s : State, ∃ n, hostNmi s = callTurns s.calls.length n (beginNmi s))
  ∧ (∀ (s : State) (m : Byte), s.stopped = false →
      ∃ u n, beginKeyScan m s = .next u ∧ exec (.keyScan m) s = .next (callTurns s.calls.length n u))

/-- R57, R194, R188, R91, R92 (D31): host operations fall between the byte writes of an `INIT`. For every two addresses there is a moment
of its first zero-fill at which one of them is zero already and the other still holds its old byte. There is a moment at which `ROM`
has the first byte of the BASIC image but not yet the last of the character generator: that it is this way round rests on the order
of the copies, which R57 and D31 leave open and which is the model's choice (log entry 4). At each moment `PEEK_RAM` and
`PEEK_ROM` on the host port answer what the arrays then hold, and the `INIT` stays where it is. -/
def Obligations.HostSeesInitHalfDone : Prop :=
  ∀ s u : State, s.ram.wf = true → s.rom.wf = true → s.waitStop = false → beginInit s = .next u → u.calls ≠ s.calls →
    (∀ a b : Addr, a ≠ b → ∃ n,
      ((callTurns s.calls.length n u).readRam a = 0 ∧ (callTurns s.calls.length n u).readRam b = s.readRam b)
        ∨ ((callTurns s.calls.length n u).readRam b = 0 ∧ (callTurns s.calls.length n u).readRam a = s.readRam a))
    ∧ (∃ n, (callTurns s.calls.length n u).readRom s.cfg.params.basicBase = (s.images.bytes .basic)[0]?.getD 0
        ∧ (callTurns s.calls.length n u).readRom (s.cfg.params.chargenBase + 4095) = 0
        ∧ (callTurns s.calls.length n u).hostInInit = true)
    ∧ (∀ (n : Nat) (c : Addr) (rest : List Event) (t : State), t = callTurns s.calls.length n u →
        step { t with inbox := .line .host (encode (.peekRam c)) :: rest } =
            .next { t with inbox := rest, hostResp := some (okResponse (t.readRam c)) }
          ∧ step { t with inbox := .line .host (encode (.peekRom c)) :: rest } =
            .next { t with inbox := rest, hostResp := some (okResponse (t.readRom c)) })

/-- R82, R83, R73, R21: the time shown for an iteration is the sample that it takes, whatever an earlier iteration left unsampled; a time
before the last sample is refused (R117, U15). That the time input is an event that the state holds until a sample, and that a later
one replaces it, is the model's choice (log entry 3). -/
def Obligations.ShownTimeIsTheSample : Prop :=
  ∀ (s : State) (x : Nat) (rest : List Event), s.inbox = .now x :: rest →
    (s.clock ≤ x → ∃ t, step s = .next t ∧ t.sampleNow.1 = x ∧ t = { s with inbox := rest, timeIn := t.timeIn })
    ∧ (x < s.clock → step s = .refused .clockSteppedBack)
end

