-- ==== Sys2Proof/Laws/Memory.lean ====
section
/-! SUPPORT. The laws of memory: the canonical form is kept, a read finds the last write, and two memories in the form that
read alike are equal. -/
namespace Sys2Proof.Machine

@[simp] theorem Memory.read_zero (a : Nat) : Memory.zero.read a = 0 := rfl

@[simp] theorem Memory.wf_zero : Memory.zero.wf = true := rfl

theorem Memory.wfFrom_cons {lo a : Nat} {v : Byte} {m : Memory} :
    Memory.wfFrom lo ((a, v) :: m) = true ↔ lo ≤ a ∧ a < arraySize ∧ v ≠ 0 ∧ Memory.wfFrom (a + 1) m = true := by
  simp [Memory.wfFrom, and_assoc]

theorem Memory.wfFrom_mono {lo lo' : Nat} {m : Memory} (h : lo' ≤ lo) (hm : Memory.wfFrom lo m = true) :
    Memory.wfFrom lo' m = true := by
  cases m with
  | nil => rfl
  | cons c m =>
    obtain ⟨a, v⟩ := c
    rw [Memory.wfFrom_cons] at hm ⊢
    exact ⟨by omega, hm.2⟩

theorem Memory.read_of_lt {lo a : Nat} {m : Memory} (hm : Memory.wfFrom lo m = true) (h : a < lo) : m.read a = 0 := by
  induction m generalizing lo with
  | nil => rfl
  | cons c m ih =>
    obtain ⟨b, w⟩ := c
    rw [Memory.wfFrom_cons] at hm
    rw [Memory.read, if_neg (by omega)]
    exact ih hm.2.2.2 (by omega)

theorem Memory.wfFrom_write {lo a : Nat} {v : Byte} {m : Memory} (hm : Memory.wfFrom lo m = true) (hlo : lo ≤ a)
    (ha : a < arraySize) : Memory.wfFrom lo (m.write a v) = true := by
  induction m generalizing lo with
  | nil =>
    simp only [Memory.write]
    split
    · rfl
    · rename_i hv
      exact Memory.wfFrom_cons.2 ⟨hlo, ha, hv, rfl⟩
  | cons c m ih =>
    obtain ⟨b, w⟩ := c
    have hc := Memory.wfFrom_cons.1 hm
    simp only [Memory.write]
    split
    · split
      · exact hm
      · rename_i hab hv
        exact Memory.wfFrom_cons.2 ⟨hlo, ha, hv, Memory.wfFrom_cons.2 ⟨hab, hc.2⟩⟩
    · split
      · split
        · exact Memory.wfFrom_mono (by omega) hc.2.2.2
        · rename_i hab hv
          exact Memory.wfFrom_cons.2 ⟨hlo, ha, hv, hab ▸ hc.2.2.2⟩
      · exact Memory.wfFrom_cons.2 ⟨hc.1, hc.2.1, hc.2.2.1, ih hc.2.2.2 (by omega)⟩

/-- A write keeps the canonical form. -/
theorem Memory.wf_write {a : Nat} {v : Byte} {m : Memory} (hm : m.wf = true) (ha : a < arraySize) : (m.write a v).wf = true :=
  Memory.wfFrom_write hm (Nat.zero_le a) ha

theorem Memory.read_write_other {a b : Nat} {v : Byte} {m : Memory} (h : b ≠ a) : (m.write a v).read b = m.read b := by
  induction m with
  | nil => simp only [Memory.write]; split <;> simp [Memory.read, h]
  | cons c m ih =>
    obtain ⟨k, w⟩ := c
    simp only [Memory.write]
    split
    · split <;> simp [Memory.read, h]
    · split
      · rename_i hk
        subst hk
        split <;> simp [Memory.read, h]
      · simp [Memory.read, ih]

theorem Memory.read_write_same_wfFrom {lo a : Nat} {v : Byte} {m : Memory} (hm : Memory.wfFrom lo m = true) :
    (m.write a v).read a = v := by
  induction m generalizing lo with
  | nil => simp only [Memory.write]; split <;> simp_all [Memory.read]
  | cons c m ih =>
    obtain ⟨k, w⟩ := c
    have hc := Memory.wfFrom_cons.1 hm
    simp only [Memory.write]
    split
    · split
      · rename_i hak hv
        rw [hv]
        exact Memory.read_of_lt (Memory.wfFrom_cons.2 ⟨Nat.le_refl k, hc.2⟩) hak
      · simp [Memory.read]
    · split
      · rename_i hk
        subst hk
        split
        · rename_i hv
          rw [hv]
          exact Memory.read_of_lt hc.2.2.2 (Nat.lt_succ_self a)
        · simp [Memory.read]
      · rename_i h1 h2
        rw [Memory.read, if_neg h2]
        exact ih hc.2.2.2

/-- A read after a write to the same address gives the value written. -/
theorem Memory.read_write_same {a : Nat} {v : Byte} {m : Memory} (hm : m.wf = true) : (m.write a v).read a = v :=
  Memory.read_write_same_wfFrom hm

/-- A read after a write: the value written there, what was there before everywhere else. -/
theorem Memory.read_write {a b : Nat} {v : Byte} {m : Memory} (hm : m.wf = true) :
    (m.write a v).read b = if b = a then v else m.read b := by
  split
  · rename_i h; subst h; exact Memory.read_write_same hm
  · rename_i h; exact Memory.read_write_other h

theorem Memory.eq_of_read_wfFrom {lo : Nat} {m n : Memory} (hm : Memory.wfFrom lo m = true) (hn : Memory.wfFrom lo n = true)
    (h : ∀ a, m.read a = n.read a) : m = n := by
  induction m generalizing lo n with
  | nil =>
    cases n with
    | nil => rfl
    | cons c n =>
      obtain ⟨b, w⟩ := c
      have := h b
      simp [Memory.read] at this
      exact absurd this.symm (Memory.wfFrom_cons.1 hn).2.2.1
  | cons c m ih =>
    obtain ⟨a, v⟩ := c
    have hc := Memory.wfFrom_cons.1 hm
    cases n with
    | nil =>
      have := h a
      simp [Memory.read] at this
      exact absurd this hc.2.2.1
    | cons d n =>
      obtain ⟨b, w⟩ := d
      have hd := Memory.wfFrom_cons.1 hn
      have hab : a = b := by
        rcases Nat.lt_trichotomy a b with hlt | heq | hgt
        · have h1 := h a
          rw [Memory.read_of_lt (lo := b) (Memory.wfFrom_cons.2 ⟨Nat.le_refl b, hd.2⟩) hlt] at h1
          simp [Memory.read] at h1
          exact absurd h1 hc.2.2.1
        · exact heq
        · have h1 := h b
          rw [Memory.read_of_lt (lo := a) (Memory.wfFrom_cons.2 ⟨Nat.le_refl a, hc.2⟩) hgt] at h1
          simp [Memory.read] at h1
          exact absurd h1.symm hd.2.2.1
      subst hab
      have hv : v = w := by have := h a; simpa [Memory.read] using this
      subst hv
      congr 1
      refine ih hc.2.2.2 hd.2.2.2 (fun k => ?_)
      by_cases hk : k < a + 1
      · rw [Memory.read_of_lt hc.2.2.2 hk, Memory.read_of_lt hd.2.2.2 hk]
      · have := h k
        rwa [Memory.read, Memory.read, if_neg (by omega), if_neg (by omega)] at this

/-- The canonical form is canonical: two memories in it that read alike are equal data. -/
theorem Memory.eq_of_read {m n : Memory} (hm : m.wf = true) (hn : n.wf = true) (h : ∀ a, m.read a = n.read a) : m = n :=
  Memory.eq_of_read_wfFrom hm hn h

/-- Copying an image keeps the canonical form. -/
theorem Memory.wf_writeBytes {bs : List Byte} {base : Addr} {m : Memory} (hm : m.wf = true) :
    (Memory.writeBytes base bs m).wf = true := by
  induction bs generalizing base with
  | nil => exact hm
  | cons b bs ih => exact Memory.wf_write ih base.isLt

/-- What a block copy leaves: image byte `i` at `base + i`, everything else as before (R50). -/
theorem Memory.read_writeBytes {bs : List Byte} {base : Addr} {m : Memory} (hm : m.wf = true)
    (hfit : base.toNat + bs.length ≤ arraySize) (a : Nat) :
    (Memory.writeBytes base bs m).read a =
      if base.toNat ≤ a ∧ a < base.toNat + bs.length then (bs[a - base.toNat]?).getD 0 else m.read a := by
  induction bs generalizing base with
  | nil => simp [Memory.writeBytes]
  | cons b bs ih =>
    rw [Memory.writeBytes, Memory.read_write (Memory.wf_writeBytes hm)]
    simp only [List.length_cons] at hfit ⊢
    by_cases ha : a = base.toNat
    · subst ha; simp
    · rw [if_neg ha]
      by_cases hnil : bs = []
      · subst hnil
        simp only [Memory.writeBytes, List.length_nil]
        rw [if_neg (by omega)]
      · have hpos : 0 < bs.length := List.length_pos_of_ne_nil hnil
        have hb : (base + 1).toNat = base.toNat + 1 := by
          rw [BitVec.toNat_add]
          simp only [arraySize] at hfit
          have : (1 : Addr).toNat = 1 := rfl
          omega
        rw [ih (by rw [hb]; omega), hb]
        by_cases hin : base.toNat ≤ a ∧ a < base.toNat + (bs.length + 1)
        · rw [if_pos (by omega), if_pos hin]
          have : a - base.toNat = (a - (base.toNat + 1)) + 1 := by omega
          rw [this, List.getElem?_cons_succ]
        · rw [if_neg (by omega), if_neg hin]

theorem Memory.wfFrom_filter {lo : Nat} {m : Memory} (p : Host.Cell → Bool) (hm : Memory.wfFrom lo m = true) :
    Memory.wfFrom lo (List.filter p m) = true := by
  induction m generalizing lo with
  | nil => rfl
  | cons c m ih =>
    obtain ⟨a, v⟩ := c
    have hc := Memory.wfFrom_cons.1 hm
    rw [List.filter_cons]
    split
    · exact Memory.wfFrom_cons.2 ⟨hc.1, hc.2.1, hc.2.2.1, ih hc.2.2.2⟩
    · exact Memory.wfFrom_mono (by omega) (ih hc.2.2.2)

/-- Finishing a zero-fill keeps the canonical form. -/
theorem Memory.wf_clearFrom {order k : Nat} {m : Memory} (hm : m.wf = true) : (m.clearFrom order k).wf = true :=
  Memory.wfFrom_filter _ hm

theorem Memory.read_filter_of_false {p : Host.Cell → Bool} {m : Memory} {a : Nat} (h : ∀ v, p (a, v) = false) :
    Memory.read (List.filter p m) a = 0 := by
  induction m with
  | nil => rfl
  | cons c m ih =>
    obtain ⟨b, w⟩ := c
    rw [List.filter_cons]
    split
    · rename_i hp
      rw [Memory.read, if_neg ?_]
      · exact ih
      · rintro rfl; rw [h w] at hp; cases hp
    · exact ih

theorem Memory.read_filter_of_true {p : Host.Cell → Bool} {m : Memory} {a : Nat} (h : ∀ v, p (a, v) = true) :
    Memory.read (List.filter p m) a = m.read a := by
  induction m with
  | nil => rfl
  | cons c m ih =>
    obtain ⟨b, w⟩ := c
    rw [List.filter_cons, Memory.read]
    by_cases hab : a = b
    · subst hab; simp [h, Memory.read]
    · rw [if_neg hab]
      split
      · rw [Memory.read, if_neg hab]; exact ih
      · exact ih

/-- What finishing a zero-fill leaves: zero at every address still to be visited, the rest as before. -/
theorem Memory.read_clearFrom {order k : Nat} {m : Memory} (a : Nat) :
    (m.clearFrom order k).read a =
      if ((Config.fillOrder order).symm (BitVec.ofNat 16 a)).toNat < k then m.read a else 0 := by
  unfold Memory.clearFrom
  split
  · rename_i h; exact Memory.read_filter_of_true (fun v => by simpa using h)
  · rename_i h; exact Memory.read_filter_of_false (fun v => by simpa using h)

/-- No byte is listed beyond the array. -/
theorem Memory.read_above {m : Memory} (hw : m.wf = true) {a : Nat} (ha : ¬ a < 65536) : m.read a = 0 := by
  unfold Memory.wf at hw
  generalize 0 = lo at hw
  induction m generalizing lo with
  | nil => rfl
  | cons c m ih =>
    obtain ⟨b, v⟩ := c
    rw [Memory.wfFrom_cons] at hw
    have hlt : b < 65536 := hw.2.1
    rw [Memory.read, if_neg (by omega)]
    exact ih _ hw.2.2.2

/-- One more byte of a zero-fill: what is left is the same (R57). -/
theorem Memory.clearFrom_write_fillAddr {m : Memory} (hw : m.wf = true) (order k : Nat) (hk : k < 65536) :
    (m.write (fillAddr order k).toNat 0).clearFrom order (k + 1) = m.clearFrom order k := by
  have hw2 : (m.write (fillAddr order k).toNat 0).wf = true := Memory.wf_write hw (BitVec.isLt _)
  apply Memory.eq_of_read (Memory.wf_clearFrom hw2) (Memory.wf_clearFrom hw)
  intro a
  rw [Memory.read_clearFrom, Memory.read_clearFrom]
  simp only [Memory.read_write hw]
  by_cases hlt : a < 65536
  · have key : a = (fillAddr order k).toNat ↔ ((Config.fillOrder order).symm (BitVec.ofNat 16 a)).toNat = k := by
      unfold fillAddr
      constructor
      · intro h
        have h' : BitVec.ofNat 16 a = (Config.fillOrder order) (BitVec.ofNat 16 k) := by
          rw [h]; simp
        rw [h', Equiv.symm_apply_apply]; simp; omega
      · intro h
        have h' : (Config.fillOrder order).symm (BitVec.ofNat 16 a) = BitVec.ofNat 16 k := by
          apply BitVec.eq_of_toNat_eq; rw [h]; simp; omega
        rw [← h', Equiv.apply_symm_apply]; simp; omega
    by_cases ha : a = (fillAddr order k).toNat
    · have := key.1 ha
      rw [if_pos (by omega), if_pos ha, if_neg (by omega)]
    · have : ¬ _ := fun h => ha (key.2 h)
      rw [if_neg ha]
      by_cases h2 : ((Config.fillOrder order).symm (BitVec.ofNat 16 a)).toNat < k
      · rw [if_pos (by omega), if_pos h2]
      · rw [if_neg (by omega), if_neg h2]
  · have h0 : m.read a = 0 := Memory.read_above hw hlt
    have hne : a ≠ (fillAddr order k).toNat := by have := (fillAddr order k).isLt; omega
    simp [hne, h0]

/-- After 65536 bytes a zero-fill has nothing left. -/
theorem Memory.clearFrom_all {m : Memory} (hw : m.wf = true) (order k : Nat) (hk : 65536 ≤ k) : m.clearFrom order k = m := by
  apply Memory.eq_of_read (Memory.wf_clearFrom hw) hw
  intro a
  rw [Memory.read_clearFrom, if_pos]
  have := ((Config.fillOrder order).symm (BitVec.ofNat 16 a)).isLt
  omega

end Sys2Proof.Machine
end

