-- ==== Sys2Proof/Laws/State.lean ====
section
/-! SUPPORT. The state's record updates, field by field: each true by rfl, so that no later proof unfolds one. -/
namespace Sys2Proof.Machine

@[simp] theorem State.setRam_ram (s : State) (x : Memory) : (s.setRam x).ram = x := rfl
@[simp] theorem State.setRam_rom (s : State) (x : Memory) : (s.setRam x).rom = s.rom := rfl
@[simp] theorem State.setRam_km (s : State) (x : Memory) : (s.setRam x).km = s.km := rfl
@[simp] theorem State.setRam_lft (s : State) (x : Memory) : (s.setRam x).lft = s.lft := rfl
@[simp] theorem State.setRam_fReset (s : State) (x : Memory) : (s.setRam x).fReset = s.fReset := rfl
@[simp] theorem State.setRam_fPaused (s : State) (x : Memory) : (s.setRam x).fPaused = s.fPaused := rfl
@[simp] theorem State.setRam_fQuit (s : State) (x : Memory) : (s.setRam x).fQuit = s.fQuit := rfl
@[simp] theorem State.setRam_fDebug (s : State) (x : Memory) : (s.setRam x).fDebug = s.fDebug := rfl
@[simp] theorem State.setRam_inited (s : State) (x : Memory) : (s.setRam x).inited = s.inited := rfl
@[simp] theorem State.setRam_stopped (s : State) (x : Memory) : (s.setRam x).stopped = s.stopped := rfl
@[simp] theorem State.setRam_loop (s : State) (x : Memory) : (s.setRam x).loop = s.loop := rfl
@[simp] theorem State.setRam_waitStop (s : State) (x : Memory) : (s.setRam x).waitStop = s.waitStop := rfl
@[simp] theorem State.setRam_calls (s : State) (x : Memory) : (s.setRam x).calls = s.calls := rfl
@[simp] theorem State.setRam_trace (s : State) (x : Memory) : (s.setRam x).trace = s.trace := rfl
@[simp] theorem State.setRam_control (s : State) (x : Memory) : (s.setRam x).control = s.control := rfl
@[simp] theorem State.setRam_hostResp (s : State) (x : Memory) : (s.setRam x).hostResp = s.hostResp := rfl
@[simp] theorem State.setRam_engineResp (s : State) (x : Memory) : (s.setRam x).engineResp = s.engineResp := rfl
@[simp] theorem State.setRam_images (s : State) (x : Memory) : (s.setRam x).images = s.images := rfl
@[simp] theorem State.setRam_eng (s : State) (x : Memory) : (s.setRam x).eng = s.eng := rfl
@[simp] theorem State.setRam_clock (s : State) (x : Memory) : (s.setRam x).clock = s.clock := rfl
@[simp] theorem State.setRam_timeIn (s : State) (x : Memory) : (s.setRam x).timeIn = s.timeIn := rfl
@[simp] theorem State.setRam_inbox (s : State) (x : Memory) : (s.setRam x).inbox = s.inbox := rfl
@[simp] theorem State.setRam_draws (s : State) (x : Memory) : (s.setRam x).draws = s.draws := rfl
@[simp] theorem State.setRam_cfg (s : State) (x : Memory) : (s.setRam x).cfg = s.cfg := rfl

@[simp] theorem State.setRom_ram (s : State) (x : Memory) : (s.setRom x).ram = s.ram := rfl
@[simp] theorem State.setRom_rom (s : State) (x : Memory) : (s.setRom x).rom = x := rfl
@[simp] theorem State.setRom_km (s : State) (x : Memory) : (s.setRom x).km = s.km := rfl
@[simp] theorem State.setRom_lft (s : State) (x : Memory) : (s.setRom x).lft = s.lft := rfl
@[simp] theorem State.setRom_fReset (s : State) (x : Memory) : (s.setRom x).fReset = s.fReset := rfl
@[simp] theorem State.setRom_fPaused (s : State) (x : Memory) : (s.setRom x).fPaused = s.fPaused := rfl
@[simp] theorem State.setRom_fQuit (s : State) (x : Memory) : (s.setRom x).fQuit = s.fQuit := rfl
@[simp] theorem State.setRom_fDebug (s : State) (x : Memory) : (s.setRom x).fDebug = s.fDebug := rfl
@[simp] theorem State.setRom_inited (s : State) (x : Memory) : (s.setRom x).inited = s.inited := rfl
@[simp] theorem State.setRom_stopped (s : State) (x : Memory) : (s.setRom x).stopped = s.stopped := rfl
@[simp] theorem State.setRom_loop (s : State) (x : Memory) : (s.setRom x).loop = s.loop := rfl
@[simp] theorem State.setRom_waitStop (s : State) (x : Memory) : (s.setRom x).waitStop = s.waitStop := rfl
@[simp] theorem State.setRom_calls (s : State) (x : Memory) : (s.setRom x).calls = s.calls := rfl
@[simp] theorem State.setRom_trace (s : State) (x : Memory) : (s.setRom x).trace = s.trace := rfl
@[simp] theorem State.setRom_control (s : State) (x : Memory) : (s.setRom x).control = s.control := rfl
@[simp] theorem State.setRom_hostResp (s : State) (x : Memory) : (s.setRom x).hostResp = s.hostResp := rfl
@[simp] theorem State.setRom_engineResp (s : State) (x : Memory) : (s.setRom x).engineResp = s.engineResp := rfl
@[simp] theorem State.setRom_images (s : State) (x : Memory) : (s.setRom x).images = s.images := rfl
@[simp] theorem State.setRom_eng (s : State) (x : Memory) : (s.setRom x).eng = s.eng := rfl
@[simp] theorem State.setRom_clock (s : State) (x : Memory) : (s.setRom x).clock = s.clock := rfl
@[simp] theorem State.setRom_timeIn (s : State) (x : Memory) : (s.setRom x).timeIn = s.timeIn := rfl
@[simp] theorem State.setRom_inbox (s : State) (x : Memory) : (s.setRom x).inbox = s.inbox := rfl
@[simp] theorem State.setRom_draws (s : State) (x : Memory) : (s.setRom x).draws = s.draws := rfl
@[simp] theorem State.setRom_cfg (s : State) (x : Memory) : (s.setRom x).cfg = s.cfg := rfl

@[simp] theorem State.setKm_ram (s : State) (x : Vector Byte 8) : (s.setKm x).ram = s.ram := rfl
@[simp] theorem State.setKm_rom (s : State) (x : Vector Byte 8) : (s.setKm x).rom = s.rom := rfl
@[simp] theorem State.setKm_km (s : State) (x : Vector Byte 8) : (s.setKm x).km = x := rfl
@[simp] theorem State.setKm_lft (s : State) (x : Vector Byte 8) : (s.setKm x).lft = s.lft := rfl
@[simp] theorem State.setKm_fReset (s : State) (x : Vector Byte 8) : (s.setKm x).fReset = s.fReset := rfl
@[simp] theorem State.setKm_fPaused (s : State) (x : Vector Byte 8) : (s.setKm x).fPaused = s.fPaused := rfl
@[simp] theorem State.setKm_fQuit (s : State) (x : Vector Byte 8) : (s.setKm x).fQuit = s.fQuit := rfl
@[simp] theorem State.setKm_fDebug (s : State) (x : Vector Byte 8) : (s.setKm x).fDebug = s.fDebug := rfl
@[simp] theorem State.setKm_inited (s : State) (x : Vector Byte 8) : (s.setKm x).inited = s.inited := rfl
@[simp] theorem State.setKm_stopped (s : State) (x : Vector Byte 8) : (s.setKm x).stopped = s.stopped := rfl
@[simp] theorem State.setKm_loop (s : State) (x : Vector Byte 8) : (s.setKm x).loop = s.loop := rfl
@[simp] theorem State.setKm_waitStop (s : State) (x : Vector Byte 8) : (s.setKm x).waitStop = s.waitStop := rfl
@[simp] theorem State.setKm_calls (s : State) (x : Vector Byte 8) : (s.setKm x).calls = s.calls := rfl
@[simp] theorem State.setKm_trace (s : State) (x : Vector Byte 8) : (s.setKm x).trace = s.trace := rfl
@[simp] theorem State.setKm_control (s : State) (x : Vector Byte 8) : (s.setKm x).control = s.control := rfl
@[simp] theorem State.setKm_hostResp (s : State) (x : Vector Byte 8) : (s.setKm x).hostResp = s.hostResp := rfl
@[simp] theorem State.setKm_engineResp (s : State) (x : Vector Byte 8) : (s.setKm x).engineResp = s.engineResp := rfl
@[simp] theorem State.setKm_images (s : State) (x : Vector Byte 8) : (s.setKm x).images = s.images := rfl
@[simp] theorem State.setKm_eng (s : State) (x : Vector Byte 8) : (s.setKm x).eng = s.eng := rfl
@[simp] theorem State.setKm_clock (s : State) (x : Vector Byte 8) : (s.setKm x).clock = s.clock := rfl
@[simp] theorem State.setKm_timeIn (s : State) (x : Vector Byte 8) : (s.setKm x).timeIn = s.timeIn := rfl
@[simp] theorem State.setKm_inbox (s : State) (x : Vector Byte 8) : (s.setKm x).inbox = s.inbox := rfl
@[simp] theorem State.setKm_draws (s : State) (x : Vector Byte 8) : (s.setKm x).draws = s.draws := rfl
@[simp] theorem State.setKm_cfg (s : State) (x : Vector Byte 8) : (s.setKm x).cfg = s.cfg := rfl

@[simp] theorem State.setLft_ram (s : State) (x : Nat) : (s.setLft x).ram = s.ram := rfl
@[simp] theorem State.setLft_rom (s : State) (x : Nat) : (s.setLft x).rom = s.rom := rfl
@[simp] theorem State.setLft_km (s : State) (x : Nat) : (s.setLft x).km = s.km := rfl
@[simp] theorem State.setLft_lft (s : State) (x : Nat) : (s.setLft x).lft = x := rfl
@[simp] theorem State.setLft_fReset (s : State) (x : Nat) : (s.setLft x).fReset = s.fReset := rfl
@[simp] theorem State.setLft_fPaused (s : State) (x : Nat) : (s.setLft x).fPaused = s.fPaused := rfl
@[simp] theorem State.setLft_fQuit (s : State) (x : Nat) : (s.setLft x).fQuit = s.fQuit := rfl
@[simp] theorem State.setLft_fDebug (s : State) (x : Nat) : (s.setLft x).fDebug = s.fDebug := rfl
@[simp] theorem State.setLft_inited (s : State) (x : Nat) : (s.setLft x).inited = s.inited := rfl
@[simp] theorem State.setLft_stopped (s : State) (x : Nat) : (s.setLft x).stopped = s.stopped := rfl
@[simp] theorem State.setLft_loop (s : State) (x : Nat) : (s.setLft x).loop = s.loop := rfl
@[simp] theorem State.setLft_waitStop (s : State) (x : Nat) : (s.setLft x).waitStop = s.waitStop := rfl
@[simp] theorem State.setLft_calls (s : State) (x : Nat) : (s.setLft x).calls = s.calls := rfl
@[simp] theorem State.setLft_trace (s : State) (x : Nat) : (s.setLft x).trace = s.trace := rfl
@[simp] theorem State.setLft_control (s : State) (x : Nat) : (s.setLft x).control = s.control := rfl
@[simp] theorem State.setLft_hostResp (s : State) (x : Nat) : (s.setLft x).hostResp = s.hostResp := rfl
@[simp] theorem State.setLft_engineResp (s : State) (x : Nat) : (s.setLft x).engineResp = s.engineResp := rfl
@[simp] theorem State.setLft_images (s : State) (x : Nat) : (s.setLft x).images = s.images := rfl
@[simp] theorem State.setLft_eng (s : State) (x : Nat) : (s.setLft x).eng = s.eng := rfl
@[simp] theorem State.setLft_clock (s : State) (x : Nat) : (s.setLft x).clock = s.clock := rfl
@[simp] theorem State.setLft_timeIn (s : State) (x : Nat) : (s.setLft x).timeIn = s.timeIn := rfl
@[simp] theorem State.setLft_inbox (s : State) (x : Nat) : (s.setLft x).inbox = s.inbox := rfl
@[simp] theorem State.setLft_draws (s : State) (x : Nat) : (s.setLft x).draws = s.draws := rfl
@[simp] theorem State.setLft_cfg (s : State) (x : Nat) : (s.setLft x).cfg = s.cfg := rfl

@[simp] theorem State.setReset_ram (s : State) (x : Bool) : (s.setReset x).ram = s.ram := rfl
@[simp] theorem State.setReset_rom (s : State) (x : Bool) : (s.setReset x).rom = s.rom := rfl
@[simp] theorem State.setReset_km (s : State) (x : Bool) : (s.setReset x).km = s.km := rfl
@[simp] theorem State.setReset_lft (s : State) (x : Bool) : (s.setReset x).lft = s.lft := rfl
@[simp] theorem State.setReset_fReset (s : State) (x : Bool) : (s.setReset x).fReset = x := rfl
@[simp] theorem State.setReset_fPaused (s : State) (x : Bool) : (s.setReset x).fPaused = s.fPaused := rfl
@[simp] theorem State.setReset_fQuit (s : State) (x : Bool) : (s.setReset x).fQuit = s.fQuit := rfl
@[simp] theorem State.setReset_fDebug (s : State) (x : Bool) : (s.setReset x).fDebug = s.fDebug := rfl
@[simp] theorem State.setReset_inited (s : State) (x : Bool) : (s.setReset x).inited = s.inited := rfl
@[simp] theorem State.setReset_stopped (s : State) (x : Bool) : (s.setReset x).stopped = s.stopped := rfl
@[simp] theorem State.setReset_loop (s : State) (x : Bool) : (s.setReset x).loop = s.loop := rfl
@[simp] theorem State.setReset_waitStop (s : State) (x : Bool) : (s.setReset x).waitStop = s.waitStop := rfl
@[simp] theorem State.setReset_calls (s : State) (x : Bool) : (s.setReset x).calls = s.calls := rfl
@[simp] theorem State.setReset_trace (s : State) (x : Bool) : (s.setReset x).trace = s.trace := rfl
@[simp] theorem State.setReset_control (s : State) (x : Bool) : (s.setReset x).control = s.control := rfl
@[simp] theorem State.setReset_hostResp (s : State) (x : Bool) : (s.setReset x).hostResp = s.hostResp := rfl
@[simp] theorem State.setReset_engineResp (s : State) (x : Bool) : (s.setReset x).engineResp = s.engineResp := rfl
@[simp] theorem State.setReset_images (s : State) (x : Bool) : (s.setReset x).images = s.images := rfl
@[simp] theorem State.setReset_eng (s : State) (x : Bool) : (s.setReset x).eng = s.eng := rfl
@[simp] theorem State.setReset_clock (s : State) (x : Bool) : (s.setReset x).clock = s.clock := rfl
@[simp] theorem State.setReset_timeIn (s : State) (x : Bool) : (s.setReset x).timeIn = s.timeIn := rfl
@[simp] theorem State.setReset_inbox (s : State) (x : Bool) : (s.setReset x).inbox = s.inbox := rfl
@[simp] theorem State.setReset_draws (s : State) (x : Bool) : (s.setReset x).draws = s.draws := rfl
@[simp] theorem State.setReset_cfg (s : State) (x : Bool) : (s.setReset x).cfg = s.cfg := rfl

@[simp] theorem State.setPaused_ram (s : State) (x : Bool) : (s.setPaused x).ram = s.ram := rfl
@[simp] theorem State.setPaused_rom (s : State) (x : Bool) : (s.setPaused x).rom = s.rom := rfl
@[simp] theorem State.setPaused_km (s : State) (x : Bool) : (s.setPaused x).km = s.km := rfl
@[simp] theorem State.setPaused_lft (s : State) (x : Bool) : (s.setPaused x).lft = s.lft := rfl
@[simp] theorem State.setPaused_fReset (s : State) (x : Bool) : (s.setPaused x).fReset = s.fReset := rfl
@[simp] theorem State.setPaused_fPaused (s : State) (x : Bool) : (s.setPaused x).fPaused = x := rfl
@[simp] theorem State.setPaused_fQuit (s : State) (x : Bool) : (s.setPaused x).fQuit = s.fQuit := rfl
@[simp] theorem State.setPaused_fDebug (s : State) (x : Bool) : (s.setPaused x).fDebug = s.fDebug := rfl
@[simp] theorem State.setPaused_inited (s : State) (x : Bool) : (s.setPaused x).inited = s.inited := rfl
@[simp] theorem State.setPaused_stopped (s : State) (x : Bool) : (s.setPaused x).stopped = s.stopped := rfl
@[simp] theorem State.setPaused_loop (s : State) (x : Bool) : (s.setPaused x).loop = s.loop := rfl
@[simp] theorem State.setPaused_waitStop (s : State) (x : Bool) : (s.setPaused x).waitStop = s.waitStop := rfl
@[simp] theorem State.setPaused_calls (s : State) (x : Bool) : (s.setPaused x).calls = s.calls := rfl
@[simp] theorem State.setPaused_trace (s : State) (x : Bool) : (s.setPaused x).trace = s.trace := rfl
@[simp] theorem State.setPaused_control (s : State) (x : Bool) : (s.setPaused x).control = s.control := rfl
@[simp] theorem State.setPaused_hostResp (s : State) (x : Bool) : (s.setPaused x).hostResp = s.hostResp := rfl
@[simp] theorem State.setPaused_engineResp (s : State) (x : Bool) : (s.setPaused x).engineResp = s.engineResp := rfl
@[simp] theorem State.setPaused_images (s : State) (x : Bool) : (s.setPaused x).images = s.images := rfl
@[simp] theorem State.setPaused_eng (s : State) (x : Bool) : (s.setPaused x).eng = s.eng := rfl
@[simp] theorem State.setPaused_clock (s : State) (x : Bool) : (s.setPaused x).clock = s.clock := rfl
@[simp] theorem State.setPaused_timeIn (s : State) (x : Bool) : (s.setPaused x).timeIn = s.timeIn := rfl
@[simp] theorem State.setPaused_inbox (s : State) (x : Bool) : (s.setPaused x).inbox = s.inbox := rfl
@[simp] theorem State.setPaused_draws (s : State) (x : Bool) : (s.setPaused x).draws = s.draws := rfl
@[simp] theorem State.setPaused_cfg (s : State) (x : Bool) : (s.setPaused x).cfg = s.cfg := rfl

@[simp] theorem State.setQuit_ram (s : State) (x : Bool) : (s.setQuit x).ram = s.ram := rfl
@[simp] theorem State.setQuit_rom (s : State) (x : Bool) : (s.setQuit x).rom = s.rom := rfl
@[simp] theorem State.setQuit_km (s : State) (x : Bool) : (s.setQuit x).km = s.km := rfl
@[simp] theorem State.setQuit_lft (s : State) (x : Bool) : (s.setQuit x).lft = s.lft := rfl
@[simp] theorem State.setQuit_fReset (s : State) (x : Bool) : (s.setQuit x).fReset = s.fReset := rfl
@[simp] theorem State.setQuit_fPaused (s : State) (x : Bool) : (s.setQuit x).fPaused = s.fPaused := rfl
@[simp] theorem State.setQuit_fQuit (s : State) (x : Bool) : (s.setQuit x).fQuit = x := rfl
@[simp] theorem State.setQuit_fDebug (s : State) (x : Bool) : (s.setQuit x).fDebug = s.fDebug := rfl
@[simp] theorem State.setQuit_inited (s : State) (x : Bool) : (s.setQuit x).inited = s.inited := rfl
@[simp] theorem State.setQuit_stopped (s : State) (x : Bool) : (s.setQuit x).stopped = s.stopped := rfl
@[simp] theorem State.setQuit_loop (s : State) (x : Bool) : (s.setQuit x).loop = s.loop := rfl
@[simp] theorem State.setQuit_waitStop (s : State) (x : Bool) : (s.setQuit x).waitStop = s.waitStop := rfl
@[simp] theorem State.setQuit_calls (s : State) (x : Bool) : (s.setQuit x).calls = s.calls := rfl
@[simp] theorem State.setQuit_trace (s : State) (x : Bool) : (s.setQuit x).trace = s.trace := rfl
@[simp] theorem State.setQuit_control (s : State) (x : Bool) : (s.setQuit x).control = s.control := rfl
@[simp] theorem State.setQuit_hostResp (s : State) (x : Bool) : (s.setQuit x).hostResp = s.hostResp := rfl
@[simp] theorem State.setQuit_engineResp (s : State) (x : Bool) : (s.setQuit x).engineResp = s.engineResp := rfl
@[simp] theorem State.setQuit_images (s : State) (x : Bool) : (s.setQuit x).images = s.images := rfl
@[simp] theorem State.setQuit_eng (s : State) (x : Bool) : (s.setQuit x).eng = s.eng := rfl
@[simp] theorem State.setQuit_clock (s : State) (x : Bool) : (s.setQuit x).clock = s.clock := rfl
@[simp] theorem State.setQuit_timeIn (s : State) (x : Bool) : (s.setQuit x).timeIn = s.timeIn := rfl
@[simp] theorem State.setQuit_inbox (s : State) (x : Bool) : (s.setQuit x).inbox = s.inbox := rfl
@[simp] theorem State.setQuit_draws (s : State) (x : Bool) : (s.setQuit x).draws = s.draws := rfl
@[simp] theorem State.setQuit_cfg (s : State) (x : Bool) : (s.setQuit x).cfg = s.cfg := rfl

@[simp] theorem State.setDebug_ram (s : State) (x : Bool) : (s.setDebug x).ram = s.ram := rfl
@[simp] theorem State.setDebug_rom (s : State) (x : Bool) : (s.setDebug x).rom = s.rom := rfl
@[simp] theorem State.setDebug_km (s : State) (x : Bool) : (s.setDebug x).km = s.km := rfl
@[simp] theorem State.setDebug_lft (s : State) (x : Bool) : (s.setDebug x).lft = s.lft := rfl
@[simp] theorem State.setDebug_fReset (s : State) (x : Bool) : (s.setDebug x).fReset = s.fReset := rfl
@[simp] theorem State.setDebug_fPaused (s : State) (x : Bool) : (s.setDebug x).fPaused = s.fPaused := rfl
@[simp] theorem State.setDebug_fQuit (s : State) (x : Bool) : (s.setDebug x).fQuit = s.fQuit := rfl
@[simp] theorem State.setDebug_fDebug (s : State) (x : Bool) : (s.setDebug x).fDebug = x := rfl
@[simp] theorem State.setDebug_inited (s : State) (x : Bool) : (s.setDebug x).inited = s.inited := rfl
@[simp] theorem State.setDebug_stopped (s : State) (x : Bool) : (s.setDebug x).stopped = s.stopped := rfl
@[simp] theorem State.setDebug_loop (s : State) (x : Bool) : (s.setDebug x).loop = s.loop := rfl
@[simp] theorem State.setDebug_waitStop (s : State) (x : Bool) : (s.setDebug x).waitStop = s.waitStop := rfl
@[simp] theorem State.setDebug_calls (s : State) (x : Bool) : (s.setDebug x).calls = s.calls := rfl
@[simp] theorem State.setDebug_trace (s : State) (x : Bool) : (s.setDebug x).trace = s.trace := rfl
@[simp] theorem State.setDebug_control (s : State) (x : Bool) : (s.setDebug x).control = s.control := rfl
@[simp] theorem State.setDebug_hostResp (s : State) (x : Bool) : (s.setDebug x).hostResp = s.hostResp := rfl
@[simp] theorem State.setDebug_engineResp (s : State) (x : Bool) : (s.setDebug x).engineResp = s.engineResp := rfl
@[simp] theorem State.setDebug_images (s : State) (x : Bool) : (s.setDebug x).images = s.images := rfl
@[simp] theorem State.setDebug_eng (s : State) (x : Bool) : (s.setDebug x).eng = s.eng := rfl
@[simp] theorem State.setDebug_clock (s : State) (x : Bool) : (s.setDebug x).clock = s.clock := rfl
@[simp] theorem State.setDebug_timeIn (s : State) (x : Bool) : (s.setDebug x).timeIn = s.timeIn := rfl
@[simp] theorem State.setDebug_inbox (s : State) (x : Bool) : (s.setDebug x).inbox = s.inbox := rfl
@[simp] theorem State.setDebug_draws (s : State) (x : Bool) : (s.setDebug x).draws = s.draws := rfl
@[simp] theorem State.setDebug_cfg (s : State) (x : Bool) : (s.setDebug x).cfg = s.cfg := rfl

@[simp] theorem State.setInited_ram (s : State) (x : Bool) : (s.setInited x).ram = s.ram := rfl
@[simp] theorem State.setInited_rom (s : State) (x : Bool) : (s.setInited x).rom = s.rom := rfl
@[simp] theorem State.setInited_km (s : State) (x : Bool) : (s.setInited x).km = s.km := rfl
@[simp] theorem State.setInited_lft (s : State) (x : Bool) : (s.setInited x).lft = s.lft := rfl
@[simp] theorem State.setInited_fReset (s : State) (x : Bool) : (s.setInited x).fReset = s.fReset := rfl
@[simp] theorem State.setInited_fPaused (s : State) (x : Bool) : (s.setInited x).fPaused = s.fPaused := rfl
@[simp] theorem State.setInited_fQuit (s : State) (x : Bool) : (s.setInited x).fQuit = s.fQuit := rfl
@[simp] theorem State.setInited_fDebug (s : State) (x : Bool) : (s.setInited x).fDebug = s.fDebug := rfl
@[simp] theorem State.setInited_inited (s : State) (x : Bool) : (s.setInited x).inited = x := rfl
@[simp] theorem State.setInited_stopped (s : State) (x : Bool) : (s.setInited x).stopped = s.stopped := rfl
@[simp] theorem State.setInited_loop (s : State) (x : Bool) : (s.setInited x).loop = s.loop := rfl
@[simp] theorem State.setInited_waitStop (s : State) (x : Bool) : (s.setInited x).waitStop = s.waitStop := rfl
@[simp] theorem State.setInited_calls (s : State) (x : Bool) : (s.setInited x).calls = s.calls := rfl
@[simp] theorem State.setInited_trace (s : State) (x : Bool) : (s.setInited x).trace = s.trace := rfl
@[simp] theorem State.setInited_control (s : State) (x : Bool) : (s.setInited x).control = s.control := rfl
@[simp] theorem State.setInited_hostResp (s : State) (x : Bool) : (s.setInited x).hostResp = s.hostResp := rfl
@[simp] theorem State.setInited_engineResp (s : State) (x : Bool) : (s.setInited x).engineResp = s.engineResp := rfl
@[simp] theorem State.setInited_images (s : State) (x : Bool) : (s.setInited x).images = s.images := rfl
@[simp] theorem State.setInited_eng (s : State) (x : Bool) : (s.setInited x).eng = s.eng := rfl
@[simp] theorem State.setInited_clock (s : State) (x : Bool) : (s.setInited x).clock = s.clock := rfl
@[simp] theorem State.setInited_timeIn (s : State) (x : Bool) : (s.setInited x).timeIn = s.timeIn := rfl
@[simp] theorem State.setInited_inbox (s : State) (x : Bool) : (s.setInited x).inbox = s.inbox := rfl
@[simp] theorem State.setInited_draws (s : State) (x : Bool) : (s.setInited x).draws = s.draws := rfl
@[simp] theorem State.setInited_cfg (s : State) (x : Bool) : (s.setInited x).cfg = s.cfg := rfl

@[simp] theorem State.setStopped_ram (s : State) (x : Bool) : (s.setStopped x).ram = s.ram := rfl
@[simp] theorem State.setStopped_rom (s : State) (x : Bool) : (s.setStopped x).rom = s.rom := rfl
@[simp] theorem State.setStopped_km (s : State) (x : Bool) : (s.setStopped x).km = s.km := rfl
@[simp] theorem State.setStopped_lft (s : State) (x : Bool) : (s.setStopped x).lft = s.lft := rfl
@[simp] theorem State.setStopped_fReset (s : State) (x : Bool) : (s.setStopped x).fReset = s.fReset := rfl
@[simp] theorem State.setStopped_fPaused (s : State) (x : Bool) : (s.setStopped x).fPaused = s.fPaused := rfl
@[simp] theorem State.setStopped_fQuit (s : State) (x : Bool) : (s.setStopped x).fQuit = s.fQuit := rfl
@[simp] theorem State.setStopped_fDebug (s : State) (x : Bool) : (s.setStopped x).fDebug = s.fDebug := rfl
@[simp] theorem State.setStopped_inited (s : State) (x : Bool) : (s.setStopped x).inited = s.inited := rfl
@[simp] theorem State.setStopped_stopped (s : State) (x : Bool) : (s.setStopped x).stopped = x := rfl
@[simp] theorem State.setStopped_loop (s : State) (x : Bool) : (s.setStopped x).loop = s.loop := rfl
@[simp] theorem State.setStopped_waitStop (s : State) (x : Bool) : (s.setStopped x).waitStop = s.waitStop := rfl
@[simp] theorem State.setStopped_calls (s : State) (x : Bool) : (s.setStopped x).calls = s.calls := rfl
@[simp] theorem State.setStopped_trace (s : State) (x : Bool) : (s.setStopped x).trace = s.trace := rfl
@[simp] theorem State.setStopped_control (s : State) (x : Bool) : (s.setStopped x).control = s.control := rfl
@[simp] theorem State.setStopped_hostResp (s : State) (x : Bool) : (s.setStopped x).hostResp = s.hostResp := rfl
@[simp] theorem State.setStopped_engineResp (s : State) (x : Bool) : (s.setStopped x).engineResp = s.engineResp := rfl
@[simp] theorem State.setStopped_images (s : State) (x : Bool) : (s.setStopped x).images = s.images := rfl
@[simp] theorem State.setStopped_eng (s : State) (x : Bool) : (s.setStopped x).eng = s.eng := rfl
@[simp] theorem State.setStopped_clock (s : State) (x : Bool) : (s.setStopped x).clock = s.clock := rfl
@[simp] theorem State.setStopped_timeIn (s : State) (x : Bool) : (s.setStopped x).timeIn = s.timeIn := rfl
@[simp] theorem State.setStopped_inbox (s : State) (x : Bool) : (s.setStopped x).inbox = s.inbox := rfl
@[simp] theorem State.setStopped_draws (s : State) (x : Bool) : (s.setStopped x).draws = s.draws := rfl
@[simp] theorem State.setStopped_cfg (s : State) (x : Bool) : (s.setStopped x).cfg = s.cfg := rfl

@[simp] theorem State.setLoop_ram (s : State) (x : LoopPos) : (s.setLoop x).ram = s.ram := rfl
@[simp] theorem State.setLoop_rom (s : State) (x : LoopPos) : (s.setLoop x).rom = s.rom := rfl
@[simp] theorem State.setLoop_km (s : State) (x : LoopPos) : (s.setLoop x).km = s.km := rfl
@[simp] theorem State.setLoop_lft (s : State) (x : LoopPos) : (s.setLoop x).lft = s.lft := rfl
@[simp] theorem State.setLoop_fReset (s : State) (x : LoopPos) : (s.setLoop x).fReset = s.fReset := rfl
@[simp] theorem State.setLoop_fPaused (s : State) (x : LoopPos) : (s.setLoop x).fPaused = s.fPaused := rfl
@[simp] theorem State.setLoop_fQuit (s : State) (x : LoopPos) : (s.setLoop x).fQuit = s.fQuit := rfl
@[simp] theorem State.setLoop_fDebug (s : State) (x : LoopPos) : (s.setLoop x).fDebug = s.fDebug := rfl
@[simp] theorem State.setLoop_inited (s : State) (x : LoopPos) : (s.setLoop x).inited = s.inited := rfl
@[simp] theorem State.setLoop_stopped (s : State) (x : LoopPos) : (s.setLoop x).stopped = s.stopped := rfl
@[simp] theorem State.setLoop_loop (s : State) (x : LoopPos) : (s.setLoop x).loop = x := rfl
@[simp] theorem State.setLoop_waitStop (s : State) (x : LoopPos) : (s.setLoop x).waitStop = s.waitStop := rfl
@[simp] theorem State.setLoop_calls (s : State) (x : LoopPos) : (s.setLoop x).calls = s.calls := rfl
@[simp] theorem State.setLoop_trace (s : State) (x : LoopPos) : (s.setLoop x).trace = s.trace := rfl
@[simp] theorem State.setLoop_control (s : State) (x : LoopPos) : (s.setLoop x).control = s.control := rfl
@[simp] theorem State.setLoop_hostResp (s : State) (x : LoopPos) : (s.setLoop x).hostResp = s.hostResp := rfl
@[simp] theorem State.setLoop_engineResp (s : State) (x : LoopPos) : (s.setLoop x).engineResp = s.engineResp := rfl
@[simp] theorem State.setLoop_images (s : State) (x : LoopPos) : (s.setLoop x).images = s.images := rfl
@[simp] theorem State.setLoop_eng (s : State) (x : LoopPos) : (s.setLoop x).eng = s.eng := rfl
@[simp] theorem State.setLoop_clock (s : State) (x : LoopPos) : (s.setLoop x).clock = s.clock := rfl
@[simp] theorem State.setLoop_timeIn (s : State) (x : LoopPos) : (s.setLoop x).timeIn = s.timeIn := rfl
@[simp] theorem State.setLoop_inbox (s : State) (x : LoopPos) : (s.setLoop x).inbox = s.inbox := rfl
@[simp] theorem State.setLoop_draws (s : State) (x : LoopPos) : (s.setLoop x).draws = s.draws := rfl
@[simp] theorem State.setLoop_cfg (s : State) (x : LoopPos) : (s.setLoop x).cfg = s.cfg := rfl

@[simp] theorem State.setWaitStop_ram (s : State) (x : Bool) : (s.setWaitStop x).ram = s.ram := rfl
@[simp] theorem State.setWaitStop_rom (s : State) (x : Bool) : (s.setWaitStop x).rom = s.rom := rfl
@[simp] theorem State.setWaitStop_km (s : State) (x : Bool) : (s.setWaitStop x).km = s.km := rfl
@[simp] theorem State.setWaitStop_lft (s : State) (x : Bool) : (s.setWaitStop x).lft = s.lft := rfl
@[simp] theorem State.setWaitStop_fReset (s : State) (x : Bool) : (s.setWaitStop x).fReset = s.fReset := rfl
@[simp] theorem State.setWaitStop_fPaused (s : State) (x : Bool) : (s.setWaitStop x).fPaused = s.fPaused := rfl
@[simp] theorem State.setWaitStop_fQuit (s : State) (x : Bool) : (s.setWaitStop x).fQuit = s.fQuit := rfl
@[simp] theorem State.setWaitStop_fDebug (s : State) (x : Bool) : (s.setWaitStop x).fDebug = s.fDebug := rfl
@[simp] theorem State.setWaitStop_inited (s : State) (x : Bool) : (s.setWaitStop x).inited = s.inited := rfl
@[simp] theorem State.setWaitStop_stopped (s : State) (x : Bool) : (s.setWaitStop x).stopped = s.stopped := rfl
@[simp] theorem State.setWaitStop_loop (s : State) (x : Bool) : (s.setWaitStop x).loop = s.loop := rfl
@[simp] theorem State.setWaitStop_waitStop (s : State) (x : Bool) : (s.setWaitStop x).waitStop = x := rfl
@[simp] theorem State.setWaitStop_calls (s : State) (x : Bool) : (s.setWaitStop x).calls = s.calls := rfl
@[simp] theorem State.setWaitStop_trace (s : State) (x : Bool) : (s.setWaitStop x).trace = s.trace := rfl
@[simp] theorem State.setWaitStop_control (s : State) (x : Bool) : (s.setWaitStop x).control = s.control := rfl
@[simp] theorem State.setWaitStop_hostResp (s : State) (x : Bool) : (s.setWaitStop x).hostResp = s.hostResp := rfl
@[simp] theorem State.setWaitStop_engineResp (s : State) (x : Bool) : (s.setWaitStop x).engineResp = s.engineResp := rfl
@[simp] theorem State.setWaitStop_images (s : State) (x : Bool) : (s.setWaitStop x).images = s.images := rfl
@[simp] theorem State.setWaitStop_eng (s : State) (x : Bool) : (s.setWaitStop x).eng = s.eng := rfl
@[simp] theorem State.setWaitStop_clock (s : State) (x : Bool) : (s.setWaitStop x).clock = s.clock := rfl
@[simp] theorem State.setWaitStop_timeIn (s : State) (x : Bool) : (s.setWaitStop x).timeIn = s.timeIn := rfl
@[simp] theorem State.setWaitStop_inbox (s : State) (x : Bool) : (s.setWaitStop x).inbox = s.inbox := rfl
@[simp] theorem State.setWaitStop_draws (s : State) (x : Bool) : (s.setWaitStop x).draws = s.draws := rfl
@[simp] theorem State.setWaitStop_cfg (s : State) (x : Bool) : (s.setWaitStop x).cfg = s.cfg := rfl

@[simp] theorem State.setCalls_ram (s : State) (x : List HostCall) : (s.setCalls x).ram = s.ram := rfl
@[simp] theorem State.setCalls_rom (s : State) (x : List HostCall) : (s.setCalls x).rom = s.rom := rfl
@[simp] theorem State.setCalls_km (s : State) (x : List HostCall) : (s.setCalls x).km = s.km := rfl
@[simp] theorem State.setCalls_lft (s : State) (x : List HostCall) : (s.setCalls x).lft = s.lft := rfl
@[simp] theorem State.setCalls_fReset (s : State) (x : List HostCall) : (s.setCalls x).fReset = s.fReset := rfl
@[simp] theorem State.setCalls_fPaused (s : State) (x : List HostCall) : (s.setCalls x).fPaused = s.fPaused := rfl
@[simp] theorem State.setCalls_fQuit (s : State) (x : List HostCall) : (s.setCalls x).fQuit = s.fQuit := rfl
@[simp] theorem State.setCalls_fDebug (s : State) (x : List HostCall) : (s.setCalls x).fDebug = s.fDebug := rfl
@[simp] theorem State.setCalls_inited (s : State) (x : List HostCall) : (s.setCalls x).inited = s.inited := rfl
@[simp] theorem State.setCalls_stopped (s : State) (x : List HostCall) : (s.setCalls x).stopped = s.stopped := rfl
@[simp] theorem State.setCalls_loop (s : State) (x : List HostCall) : (s.setCalls x).loop = s.loop := rfl
@[simp] theorem State.setCalls_waitStop (s : State) (x : List HostCall) : (s.setCalls x).waitStop = s.waitStop := rfl
@[simp] theorem State.setCalls_calls (s : State) (x : List HostCall) : (s.setCalls x).calls = x := rfl
@[simp] theorem State.setCalls_trace (s : State) (x : List HostCall) : (s.setCalls x).trace = s.trace := rfl
@[simp] theorem State.setCalls_control (s : State) (x : List HostCall) : (s.setCalls x).control = s.control := rfl
@[simp] theorem State.setCalls_hostResp (s : State) (x : List HostCall) : (s.setCalls x).hostResp = s.hostResp := rfl
@[simp] theorem State.setCalls_engineResp (s : State) (x : List HostCall) : (s.setCalls x).engineResp = s.engineResp := rfl
@[simp] theorem State.setCalls_images (s : State) (x : List HostCall) : (s.setCalls x).images = s.images := rfl
@[simp] theorem State.setCalls_eng (s : State) (x : List HostCall) : (s.setCalls x).eng = s.eng := rfl
@[simp] theorem State.setCalls_clock (s : State) (x : List HostCall) : (s.setCalls x).clock = s.clock := rfl
@[simp] theorem State.setCalls_timeIn (s : State) (x : List HostCall) : (s.setCalls x).timeIn = s.timeIn := rfl
@[simp] theorem State.setCalls_inbox (s : State) (x : List HostCall) : (s.setCalls x).inbox = s.inbox := rfl
@[simp] theorem State.setCalls_draws (s : State) (x : List HostCall) : (s.setCalls x).draws = s.draws := rfl
@[simp] theorem State.setCalls_cfg (s : State) (x : List HostCall) : (s.setCalls x).cfg = s.cfg := rfl

@[simp] theorem State.setTrace_ram (s : State) (x : List TraceRec) : (s.setTrace x).ram = s.ram := rfl
@[simp] theorem State.setTrace_rom (s : State) (x : List TraceRec) : (s.setTrace x).rom = s.rom := rfl
@[simp] theorem State.setTrace_km (s : State) (x : List TraceRec) : (s.setTrace x).km = s.km := rfl
@[simp] theorem State.setTrace_lft (s : State) (x : List TraceRec) : (s.setTrace x).lft = s.lft := rfl
@[simp] theorem State.setTrace_fReset (s : State) (x : List TraceRec) : (s.setTrace x).fReset = s.fReset := rfl
@[simp] theorem State.setTrace_fPaused (s : State) (x : List TraceRec) : (s.setTrace x).fPaused = s.fPaused := rfl
@[simp] theorem State.setTrace_fQuit (s : State) (x : List TraceRec) : (s.setTrace x).fQuit = s.fQuit := rfl
@[simp] theorem State.setTrace_fDebug (s : State) (x : List TraceRec) : (s.setTrace x).fDebug = s.fDebug := rfl
@[simp] theorem State.setTrace_inited (s : State) (x : List TraceRec) : (s.setTrace x).inited = s.inited := rfl
@[simp] theorem State.setTrace_stopped (s : State) (x : List TraceRec) : (s.setTrace x).stopped = s.stopped := rfl
@[simp] theorem State.setTrace_loop (s : State) (x : List TraceRec) : (s.setTrace x).loop = s.loop := rfl
@[simp] theorem State.setTrace_waitStop (s : State) (x : List TraceRec) : (s.setTrace x).waitStop = s.waitStop := rfl
@[simp] theorem State.setTrace_calls (s : State) (x : List TraceRec) : (s.setTrace x).calls = s.calls := rfl
@[simp] theorem State.setTrace_trace (s : State) (x : List TraceRec) : (s.setTrace x).trace = x := rfl
@[simp] theorem State.setTrace_control (s : State) (x : List TraceRec) : (s.setTrace x).control = s.control := rfl
@[simp] theorem State.setTrace_hostResp (s : State) (x : List TraceRec) : (s.setTrace x).hostResp = s.hostResp := rfl
@[simp] theorem State.setTrace_engineResp (s : State) (x : List TraceRec) : (s.setTrace x).engineResp = s.engineResp := rfl
@[simp] theorem State.setTrace_images (s : State) (x : List TraceRec) : (s.setTrace x).images = s.images := rfl
@[simp] theorem State.setTrace_eng (s : State) (x : List TraceRec) : (s.setTrace x).eng = s.eng := rfl
@[simp] theorem State.setTrace_clock (s : State) (x : List TraceRec) : (s.setTrace x).clock = s.clock := rfl
@[simp] theorem State.setTrace_timeIn (s : State) (x : List TraceRec) : (s.setTrace x).timeIn = s.timeIn := rfl
@[simp] theorem State.setTrace_inbox (s : State) (x : List TraceRec) : (s.setTrace x).inbox = s.inbox := rfl
@[simp] theorem State.setTrace_draws (s : State) (x : List TraceRec) : (s.setTrace x).draws = s.draws := rfl
@[simp] theorem State.setTrace_cfg (s : State) (x : List TraceRec) : (s.setTrace x).cfg = s.cfg := rfl

@[simp] theorem State.setControl_ram (s : State) (x : List Strobe) : (s.setControl x).ram = s.ram := rfl
@[simp] theorem State.setControl_rom (s : State) (x : List Strobe) : (s.setControl x).rom = s.rom := rfl
@[simp] theorem State.setControl_km (s : State) (x : List Strobe) : (s.setControl x).km = s.km := rfl
@[simp] theorem State.setControl_lft (s : State) (x : List Strobe) : (s.setControl x).lft = s.lft := rfl
@[simp] theorem State.setControl_fReset (s : State) (x : List Strobe) : (s.setControl x).fReset = s.fReset := rfl
@[simp] theorem State.setControl_fPaused (s : State) (x : List Strobe) : (s.setControl x).fPaused = s.fPaused := rfl
@[simp] theorem State.setControl_fQuit (s : State) (x : List Strobe) : (s.setControl x).fQuit = s.fQuit := rfl
@[simp] theorem State.setControl_fDebug (s : State) (x : List Strobe) : (s.setControl x).fDebug = s.fDebug := rfl
@[simp] theorem State.setControl_inited (s : State) (x : List Strobe) : (s.setControl x).inited = s.inited := rfl
@[simp] theorem State.setControl_stopped (s : State) (x : List Strobe) : (s.setControl x).stopped = s.stopped := rfl
@[simp] theorem State.setControl_loop (s : State) (x : List Strobe) : (s.setControl x).loop = s.loop := rfl
@[simp] theorem State.setControl_waitStop (s : State) (x : List Strobe) : (s.setControl x).waitStop = s.waitStop := rfl
@[simp] theorem State.setControl_calls (s : State) (x : List Strobe) : (s.setControl x).calls = s.calls := rfl
@[simp] theorem State.setControl_trace (s : State) (x : List Strobe) : (s.setControl x).trace = s.trace := rfl
@[simp] theorem State.setControl_control (s : State) (x : List Strobe) : (s.setControl x).control = x := rfl
@[simp] theorem State.setControl_hostResp (s : State) (x : List Strobe) : (s.setControl x).hostResp = s.hostResp := rfl
@[simp] theorem State.setControl_engineResp (s : State) (x : List Strobe) : (s.setControl x).engineResp = s.engineResp := rfl
@[simp] theorem State.setControl_images (s : State) (x : List Strobe) : (s.setControl x).images = s.images := rfl
@[simp] theorem State.setControl_eng (s : State) (x : List Strobe) : (s.setControl x).eng = s.eng := rfl
@[simp] theorem State.setControl_clock (s : State) (x : List Strobe) : (s.setControl x).clock = s.clock := rfl
@[simp] theorem State.setControl_timeIn (s : State) (x : List Strobe) : (s.setControl x).timeIn = s.timeIn := rfl
@[simp] theorem State.setControl_inbox (s : State) (x : List Strobe) : (s.setControl x).inbox = s.inbox := rfl
@[simp] theorem State.setControl_draws (s : State) (x : List Strobe) : (s.setControl x).draws = s.draws := rfl
@[simp] theorem State.setControl_cfg (s : State) (x : List Strobe) : (s.setControl x).cfg = s.cfg := rfl

@[simp] theorem State.setHostResp_ram (s : State) (x : Option Response) : (s.setHostResp x).ram = s.ram := rfl
@[simp] theorem State.setHostResp_rom (s : State) (x : Option Response) : (s.setHostResp x).rom = s.rom := rfl
@[simp] theorem State.setHostResp_km (s : State) (x : Option Response) : (s.setHostResp x).km = s.km := rfl
@[simp] theorem State.setHostResp_lft (s : State) (x : Option Response) : (s.setHostResp x).lft = s.lft := rfl
@[simp] theorem State.setHostResp_fReset (s : State) (x : Option Response) : (s.setHostResp x).fReset = s.fReset := rfl
@[simp] theorem State.setHostResp_fPaused (s : State) (x : Option Response) : (s.setHostResp x).fPaused = s.fPaused := rfl
@[simp] theorem State.setHostResp_fQuit (s : State) (x : Option Response) : (s.setHostResp x).fQuit = s.fQuit := rfl
@[simp] theorem State.setHostResp_fDebug (s : State) (x : Option Response) : (s.setHostResp x).fDebug = s.fDebug := rfl
@[simp] theorem State.setHostResp_inited (s : State) (x : Option Response) : (s.setHostResp x).inited = s.inited := rfl
@[simp] theorem State.setHostResp_stopped (s : State) (x : Option Response) : (s.setHostResp x).stopped = s.stopped := rfl
@[simp] theorem State.setHostResp_loop (s : State) (x : Option Response) : (s.setHostResp x).loop = s.loop := rfl
@[simp] theorem State.setHostResp_waitStop (s : State) (x : Option Response) : (s.setHostResp x).waitStop = s.waitStop := rfl
@[simp] theorem State.setHostResp_calls (s : State) (x : Option Response) : (s.setHostResp x).calls = s.calls := rfl
@[simp] theorem State.setHostResp_trace (s : State) (x : Option Response) : (s.setHostResp x).trace = s.trace := rfl
@[simp] theorem State.setHostResp_control (s : State) (x : Option Response) : (s.setHostResp x).control = s.control := rfl
@[simp] theorem State.setHostResp_hostResp (s : State) (x : Option Response) : (s.setHostResp x).hostResp = x := rfl
@[simp] theorem State.setHostResp_engineResp (s : State) (x : Option Response) : (s.setHostResp x).engineResp = s.engineResp := rfl
@[simp] theorem State.setHostResp_images (s : State) (x : Option Response) : (s.setHostResp x).images = s.images := rfl
@[simp] theorem State.setHostResp_eng (s : State) (x : Option Response) : (s.setHostResp x).eng = s.eng := rfl
@[simp] theorem State.setHostResp_clock (s : State) (x : Option Response) : (s.setHostResp x).clock = s.clock := rfl
@[simp] theorem State.setHostResp_timeIn (s : State) (x : Option Response) : (s.setHostResp x).timeIn = s.timeIn := rfl
@[simp] theorem State.setHostResp_inbox (s : State) (x : Option Response) : (s.setHostResp x).inbox = s.inbox := rfl
@[simp] theorem State.setHostResp_draws (s : State) (x : Option Response) : (s.setHostResp x).draws = s.draws := rfl
@[simp] theorem State.setHostResp_cfg (s : State) (x : Option Response) : (s.setHostResp x).cfg = s.cfg := rfl

@[simp] theorem State.setEngineResp_ram (s : State) (x : Option Response) : (s.setEngineResp x).ram = s.ram := rfl
@[simp] theorem State.setEngineResp_rom (s : State) (x : Option Response) : (s.setEngineResp x).rom = s.rom := rfl
@[simp] theorem State.setEngineResp_km (s : State) (x : Option Response) : (s.setEngineResp x).km = s.km := rfl
@[simp] theorem State.setEngineResp_lft (s : State) (x : Option Response) : (s.setEngineResp x).lft = s.lft := rfl
@[simp] theorem State.setEngineResp_fReset (s : State) (x : Option Response) : (s.setEngineResp x).fReset = s.fReset := rfl
@[simp] theorem State.setEngineResp_fPaused (s : State) (x : Option Response) : (s.setEngineResp x).fPaused = s.fPaused := rfl
@[simp] theorem State.setEngineResp_fQuit (s : State) (x : Option Response) : (s.setEngineResp x).fQuit = s.fQuit := rfl
@[simp] theorem State.setEngineResp_fDebug (s : State) (x : Option Response) : (s.setEngineResp x).fDebug = s.fDebug := rfl
@[simp] theorem State.setEngineResp_inited (s : State) (x : Option Response) : (s.setEngineResp x).inited = s.inited := rfl
@[simp] theorem State.setEngineResp_stopped (s : State) (x : Option Response) : (s.setEngineResp x).stopped = s.stopped := rfl
@[simp] theorem State.setEngineResp_loop (s : State) (x : Option Response) : (s.setEngineResp x).loop = s.loop := rfl
@[simp] theorem State.setEngineResp_waitStop (s : State) (x : Option Response) : (s.setEngineResp x).waitStop = s.waitStop := rfl
@[simp] theorem State.setEngineResp_calls (s : State) (x : Option Response) : (s.setEngineResp x).calls = s.calls := rfl
@[simp] theorem State.setEngineResp_trace (s : State) (x : Option Response) : (s.setEngineResp x).trace = s.trace := rfl
@[simp] theorem State.setEngineResp_control (s : State) (x : Option Response) : (s.setEngineResp x).control = s.control := rfl
@[simp] theorem State.setEngineResp_hostResp (s : State) (x : Option Response) : (s.setEngineResp x).hostResp = s.hostResp := rfl
@[simp] theorem State.setEngineResp_engineResp (s : State) (x : Option Response) : (s.setEngineResp x).engineResp = x := rfl
@[simp] theorem State.setEngineResp_images (s : State) (x : Option Response) : (s.setEngineResp x).images = s.images := rfl
@[simp] theorem State.setEngineResp_eng (s : State) (x : Option Response) : (s.setEngineResp x).eng = s.eng := rfl
@[simp] theorem State.setEngineResp_clock (s : State) (x : Option Response) : (s.setEngineResp x).clock = s.clock := rfl
@[simp] theorem State.setEngineResp_timeIn (s : State) (x : Option Response) : (s.setEngineResp x).timeIn = s.timeIn := rfl
@[simp] theorem State.setEngineResp_inbox (s : State) (x : Option Response) : (s.setEngineResp x).inbox = s.inbox := rfl
@[simp] theorem State.setEngineResp_draws (s : State) (x : Option Response) : (s.setEngineResp x).draws = s.draws := rfl
@[simp] theorem State.setEngineResp_cfg (s : State) (x : Option Response) : (s.setEngineResp x).cfg = s.cfg := rfl

@[simp] theorem State.setImages_ram (s : State) (x : Images) : (s.setImages x).ram = s.ram := rfl
@[simp] theorem State.setImages_rom (s : State) (x : Images) : (s.setImages x).rom = s.rom := rfl
@[simp] theorem State.setImages_km (s : State) (x : Images) : (s.setImages x).km = s.km := rfl
@[simp] theorem State.setImages_lft (s : State) (x : Images) : (s.setImages x).lft = s.lft := rfl
@[simp] theorem State.setImages_fReset (s : State) (x : Images) : (s.setImages x).fReset = s.fReset := rfl
@[simp] theorem State.setImages_fPaused (s : State) (x : Images) : (s.setImages x).fPaused = s.fPaused := rfl
@[simp] theorem State.setImages_fQuit (s : State) (x : Images) : (s.setImages x).fQuit = s.fQuit := rfl
@[simp] theorem State.setImages_fDebug (s : State) (x : Images) : (s.setImages x).fDebug = s.fDebug := rfl
@[simp] theorem State.setImages_inited (s : State) (x : Images) : (s.setImages x).inited = s.inited := rfl
@[simp] theorem State.setImages_stopped (s : State) (x : Images) : (s.setImages x).stopped = s.stopped := rfl
@[simp] theorem State.setImages_loop (s : State) (x : Images) : (s.setImages x).loop = s.loop := rfl
@[simp] theorem State.setImages_waitStop (s : State) (x : Images) : (s.setImages x).waitStop = s.waitStop := rfl
@[simp] theorem State.setImages_calls (s : State) (x : Images) : (s.setImages x).calls = s.calls := rfl
@[simp] theorem State.setImages_trace (s : State) (x : Images) : (s.setImages x).trace = s.trace := rfl
@[simp] theorem State.setImages_control (s : State) (x : Images) : (s.setImages x).control = s.control := rfl
@[simp] theorem State.setImages_hostResp (s : State) (x : Images) : (s.setImages x).hostResp = s.hostResp := rfl
@[simp] theorem State.setImages_engineResp (s : State) (x : Images) : (s.setImages x).engineResp = s.engineResp := rfl
@[simp] theorem State.setImages_images (s : State) (x : Images) : (s.setImages x).images = x := rfl
@[simp] theorem State.setImages_eng (s : State) (x : Images) : (s.setImages x).eng = s.eng := rfl
@[simp] theorem State.setImages_clock (s : State) (x : Images) : (s.setImages x).clock = s.clock := rfl
@[simp] theorem State.setImages_timeIn (s : State) (x : Images) : (s.setImages x).timeIn = s.timeIn := rfl
@[simp] theorem State.setImages_inbox (s : State) (x : Images) : (s.setImages x).inbox = s.inbox := rfl
@[simp] theorem State.setImages_draws (s : State) (x : Images) : (s.setImages x).draws = s.draws := rfl
@[simp] theorem State.setImages_cfg (s : State) (x : Images) : (s.setImages x).cfg = s.cfg := rfl

@[simp] theorem State.setEng_ram (s : State) (x : EngineState) : (s.setEng x).ram = s.ram := rfl
@[simp] theorem State.setEng_rom (s : State) (x : EngineState) : (s.setEng x).rom = s.rom := rfl
@[simp] theorem State.setEng_km (s : State) (x : EngineState) : (s.setEng x).km = s.km := rfl
@[simp] theorem State.setEng_lft (s : State) (x : EngineState) : (s.setEng x).lft = s.lft := rfl
@[simp] theorem State.setEng_fReset (s : State) (x : EngineState) : (s.setEng x).fReset = s.fReset := rfl
@[simp] theorem State.setEng_fPaused (s : State) (x : EngineState) : (s.setEng x).fPaused = s.fPaused := rfl
@[simp] theorem State.setEng_fQuit (s : State) (x : EngineState) : (s.setEng x).fQuit = s.fQuit := rfl
@[simp] theorem State.setEng_fDebug (s : State) (x : EngineState) : (s.setEng x).fDebug = s.fDebug := rfl
@[simp] theorem State.setEng_inited (s : State) (x : EngineState) : (s.setEng x).inited = s.inited := rfl
@[simp] theorem State.setEng_stopped (s : State) (x : EngineState) : (s.setEng x).stopped = s.stopped := rfl
@[simp] theorem State.setEng_loop (s : State) (x : EngineState) : (s.setEng x).loop = s.loop := rfl
@[simp] theorem State.setEng_waitStop (s : State) (x : EngineState) : (s.setEng x).waitStop = s.waitStop := rfl
@[simp] theorem State.setEng_calls (s : State) (x : EngineState) : (s.setEng x).calls = s.calls := rfl
@[simp] theorem State.setEng_trace (s : State) (x : EngineState) : (s.setEng x).trace = s.trace := rfl
@[simp] theorem State.setEng_control (s : State) (x : EngineState) : (s.setEng x).control = s.control := rfl
@[simp] theorem State.setEng_hostResp (s : State) (x : EngineState) : (s.setEng x).hostResp = s.hostResp := rfl
@[simp] theorem State.setEng_engineResp (s : State) (x : EngineState) : (s.setEng x).engineResp = s.engineResp := rfl
@[simp] theorem State.setEng_images (s : State) (x : EngineState) : (s.setEng x).images = s.images := rfl
@[simp] theorem State.setEng_eng (s : State) (x : EngineState) : (s.setEng x).eng = x := rfl
@[simp] theorem State.setEng_clock (s : State) (x : EngineState) : (s.setEng x).clock = s.clock := rfl
@[simp] theorem State.setEng_timeIn (s : State) (x : EngineState) : (s.setEng x).timeIn = s.timeIn := rfl
@[simp] theorem State.setEng_inbox (s : State) (x : EngineState) : (s.setEng x).inbox = s.inbox := rfl
@[simp] theorem State.setEng_draws (s : State) (x : EngineState) : (s.setEng x).draws = s.draws := rfl
@[simp] theorem State.setEng_cfg (s : State) (x : EngineState) : (s.setEng x).cfg = s.cfg := rfl

@[simp] theorem State.setClock_ram (s : State) (x : Nat) : (s.setClock x).ram = s.ram := rfl
@[simp] theorem State.setClock_rom (s : State) (x : Nat) : (s.setClock x).rom = s.rom := rfl
@[simp] theorem State.setClock_km (s : State) (x : Nat) : (s.setClock x).km = s.km := rfl
@[simp] theorem State.setClock_lft (s : State) (x : Nat) : (s.setClock x).lft = s.lft := rfl
@[simp] theorem State.setClock_fReset (s : State) (x : Nat) : (s.setClock x).fReset = s.fReset := rfl
@[simp] theorem State.setClock_fPaused (s : State) (x : Nat) : (s.setClock x).fPaused = s.fPaused := rfl
@[simp] theorem State.setClock_fQuit (s : State) (x : Nat) : (s.setClock x).fQuit = s.fQuit := rfl
@[simp] theorem State.setClock_fDebug (s : State) (x : Nat) : (s.setClock x).fDebug = s.fDebug := rfl
@[simp] theorem State.setClock_inited (s : State) (x : Nat) : (s.setClock x).inited = s.inited := rfl
@[simp] theorem State.setClock_stopped (s : State) (x : Nat) : (s.setClock x).stopped = s.stopped := rfl
@[simp] theorem State.setClock_loop (s : State) (x : Nat) : (s.setClock x).loop = s.loop := rfl
@[simp] theorem State.setClock_waitStop (s : State) (x : Nat) : (s.setClock x).waitStop = s.waitStop := rfl
@[simp] theorem State.setClock_calls (s : State) (x : Nat) : (s.setClock x).calls = s.calls := rfl
@[simp] theorem State.setClock_trace (s : State) (x : Nat) : (s.setClock x).trace = s.trace := rfl
@[simp] theorem State.setClock_control (s : State) (x : Nat) : (s.setClock x).control = s.control := rfl
@[simp] theorem State.setClock_hostResp (s : State) (x : Nat) : (s.setClock x).hostResp = s.hostResp := rfl
@[simp] theorem State.setClock_engineResp (s : State) (x : Nat) : (s.setClock x).engineResp = s.engineResp := rfl
@[simp] theorem State.setClock_images (s : State) (x : Nat) : (s.setClock x).images = s.images := rfl
@[simp] theorem State.setClock_eng (s : State) (x : Nat) : (s.setClock x).eng = s.eng := rfl
@[simp] theorem State.setClock_clock (s : State) (x : Nat) : (s.setClock x).clock = x := rfl
@[simp] theorem State.setClock_timeIn (s : State) (x : Nat) : (s.setClock x).timeIn = s.timeIn := rfl
@[simp] theorem State.setClock_inbox (s : State) (x : Nat) : (s.setClock x).inbox = s.inbox := rfl
@[simp] theorem State.setClock_draws (s : State) (x : Nat) : (s.setClock x).draws = s.draws := rfl
@[simp] theorem State.setClock_cfg (s : State) (x : Nat) : (s.setClock x).cfg = s.cfg := rfl

@[simp] theorem State.setTimeIn_ram (s : State) (x : Option Nat) : (s.setTimeIn x).ram = s.ram := rfl
@[simp] theorem State.setTimeIn_rom (s : State) (x : Option Nat) : (s.setTimeIn x).rom = s.rom := rfl
@[simp] theorem State.setTimeIn_km (s : State) (x : Option Nat) : (s.setTimeIn x).km = s.km := rfl
@[simp] theorem State.setTimeIn_lft (s : State) (x : Option Nat) : (s.setTimeIn x).lft = s.lft := rfl
@[simp] theorem State.setTimeIn_fReset (s : State) (x : Option Nat) : (s.setTimeIn x).fReset = s.fReset := rfl
@[simp] theorem State.setTimeIn_fPaused (s : State) (x : Option Nat) : (s.setTimeIn x).fPaused = s.fPaused := rfl
@[simp] theorem State.setTimeIn_fQuit (s : State) (x : Option Nat) : (s.setTimeIn x).fQuit = s.fQuit := rfl
@[simp] theorem State.setTimeIn_fDebug (s : State) (x : Option Nat) : (s.setTimeIn x).fDebug = s.fDebug := rfl
@[simp] theorem State.setTimeIn_inited (s : State) (x : Option Nat) : (s.setTimeIn x).inited = s.inited := rfl
@[simp] theorem State.setTimeIn_stopped (s : State) (x : Option Nat) : (s.setTimeIn x).stopped = s.stopped := rfl
@[simp] theorem State.setTimeIn_loop (s : State) (x : Option Nat) : (s.setTimeIn x).loop = s.loop := rfl
@[simp] theorem State.setTimeIn_waitStop (s : State) (x : Option Nat) : (s.setTimeIn x).waitStop = s.waitStop := rfl
@[simp] theorem State.setTimeIn_calls (s : State) (x : Option Nat) : (s.setTimeIn x).calls = s.calls := rfl
@[simp] theorem State.setTimeIn_trace (s : State) (x : Option Nat) : (s.setTimeIn x).trace = s.trace := rfl
@[simp] theorem State.setTimeIn_control (s : State) (x : Option Nat) : (s.setTimeIn x).control = s.control := rfl
@[simp] theorem State.setTimeIn_hostResp (s : State) (x : Option Nat) : (s.setTimeIn x).hostResp = s.hostResp := rfl
@[simp] theorem State.setTimeIn_engineResp (s : State) (x : Option Nat) : (s.setTimeIn x).engineResp = s.engineResp := rfl
@[simp] theorem State.setTimeIn_images (s : State) (x : Option Nat) : (s.setTimeIn x).images = s.images := rfl
@[simp] theorem State.setTimeIn_eng (s : State) (x : Option Nat) : (s.setTimeIn x).eng = s.eng := rfl
@[simp] theorem State.setTimeIn_clock (s : State) (x : Option Nat) : (s.setTimeIn x).clock = s.clock := rfl
@[simp] theorem State.setTimeIn_timeIn (s : State) (x : Option Nat) : (s.setTimeIn x).timeIn = x := rfl
@[simp] theorem State.setTimeIn_inbox (s : State) (x : Option Nat) : (s.setTimeIn x).inbox = s.inbox := rfl
@[simp] theorem State.setTimeIn_draws (s : State) (x : Option Nat) : (s.setTimeIn x).draws = s.draws := rfl
@[simp] theorem State.setTimeIn_cfg (s : State) (x : Option Nat) : (s.setTimeIn x).cfg = s.cfg := rfl

@[simp] theorem State.setInbox_ram (s : State) (x : List Event) : (s.setInbox x).ram = s.ram := rfl
@[simp] theorem State.setInbox_rom (s : State) (x : List Event) : (s.setInbox x).rom = s.rom := rfl
@[simp] theorem State.setInbox_km (s : State) (x : List Event) : (s.setInbox x).km = s.km := rfl
@[simp] theorem State.setInbox_lft (s : State) (x : List Event) : (s.setInbox x).lft = s.lft := rfl
@[simp] theorem State.setInbox_fReset (s : State) (x : List Event) : (s.setInbox x).fReset = s.fReset := rfl
@[simp] theorem State.setInbox_fPaused (s : State) (x : List Event) : (s.setInbox x).fPaused = s.fPaused := rfl
@[simp] theorem State.setInbox_fQuit (s : State) (x : List Event) : (s.setInbox x).fQuit = s.fQuit := rfl
@[simp] theorem State.setInbox_fDebug (s : State) (x : List Event) : (s.setInbox x).fDebug = s.fDebug := rfl
@[simp] theorem State.setInbox_inited (s : State) (x : List Event) : (s.setInbox x).inited = s.inited := rfl
@[simp] theorem State.setInbox_stopped (s : State) (x : List Event) : (s.setInbox x).stopped = s.stopped := rfl
@[simp] theorem State.setInbox_loop (s : State) (x : List Event) : (s.setInbox x).loop = s.loop := rfl
@[simp] theorem State.setInbox_waitStop (s : State) (x : List Event) : (s.setInbox x).waitStop = s.waitStop := rfl
@[simp] theorem State.setInbox_calls (s : State) (x : List Event) : (s.setInbox x).calls = s.calls := rfl
@[simp] theorem State.setInbox_trace (s : State) (x : List Event) : (s.setInbox x).trace = s.trace := rfl
@[simp] theorem State.setInbox_control (s : State) (x : List Event) : (s.setInbox x).control = s.control := rfl
@[simp] theorem State.setInbox_hostResp (s : State) (x : List Event) : (s.setInbox x).hostResp = s.hostResp := rfl
@[simp] theorem State.setInbox_engineResp (s : State) (x : List Event) : (s.setInbox x).engineResp = s.engineResp := rfl
@[simp] theorem State.setInbox_images (s : State) (x : List Event) : (s.setInbox x).images = s.images := rfl
@[simp] theorem State.setInbox_eng (s : State) (x : List Event) : (s.setInbox x).eng = s.eng := rfl
@[simp] theorem State.setInbox_clock (s : State) (x : List Event) : (s.setInbox x).clock = s.clock := rfl
@[simp] theorem State.setInbox_timeIn (s : State) (x : List Event) : (s.setInbox x).timeIn = s.timeIn := rfl
@[simp] theorem State.setInbox_inbox (s : State) (x : List Event) : (s.setInbox x).inbox = x := rfl
@[simp] theorem State.setInbox_draws (s : State) (x : List Event) : (s.setInbox x).draws = s.draws := rfl
@[simp] theorem State.setInbox_cfg (s : State) (x : List Event) : (s.setInbox x).cfg = s.cfg := rfl

@[simp] theorem State.setDraws_ram (s : State) (x : Nat) : (s.setDraws x).ram = s.ram := rfl
@[simp] theorem State.setDraws_rom (s : State) (x : Nat) : (s.setDraws x).rom = s.rom := rfl
@[simp] theorem State.setDraws_km (s : State) (x : Nat) : (s.setDraws x).km = s.km := rfl
@[simp] theorem State.setDraws_lft (s : State) (x : Nat) : (s.setDraws x).lft = s.lft := rfl
@[simp] theorem State.setDraws_fReset (s : State) (x : Nat) : (s.setDraws x).fReset = s.fReset := rfl
@[simp] theorem State.setDraws_fPaused (s : State) (x : Nat) : (s.setDraws x).fPaused = s.fPaused := rfl
@[simp] theorem State.setDraws_fQuit (s : State) (x : Nat) : (s.setDraws x).fQuit = s.fQuit := rfl
@[simp] theorem State.setDraws_fDebug (s : State) (x : Nat) : (s.setDraws x).fDebug = s.fDebug := rfl
@[simp] theorem State.setDraws_inited (s : State) (x : Nat) : (s.setDraws x).inited = s.inited := rfl
@[simp] theorem State.setDraws_stopped (s : State) (x : Nat) : (s.setDraws x).stopped = s.stopped := rfl
@[simp] theorem State.setDraws_loop (s : State) (x : Nat) : (s.setDraws x).loop = s.loop := rfl
@[simp] theorem State.setDraws_waitStop (s : State) (x : Nat) : (s.setDraws x).waitStop = s.waitStop := rfl
@[simp] theorem State.setDraws_calls (s : State) (x : Nat) : (s.setDraws x).calls = s.calls := rfl
@[simp] theorem State.setDraws_trace (s : State) (x : Nat) : (s.setDraws x).trace = s.trace := rfl
@[simp] theorem State.setDraws_control (s : State) (x : Nat) : (s.setDraws x).control = s.control := rfl
@[simp] theorem State.setDraws_hostResp (s : State) (x : Nat) : (s.setDraws x).hostResp = s.hostResp := rfl
@[simp] theorem State.setDraws_engineResp (s : State) (x : Nat) : (s.setDraws x).engineResp = s.engineResp := rfl
@[simp] theorem State.setDraws_images (s : State) (x : Nat) : (s.setDraws x).images = s.images := rfl
@[simp] theorem State.setDraws_eng (s : State) (x : Nat) : (s.setDraws x).eng = s.eng := rfl
@[simp] theorem State.setDraws_clock (s : State) (x : Nat) : (s.setDraws x).clock = s.clock := rfl
@[simp] theorem State.setDraws_timeIn (s : State) (x : Nat) : (s.setDraws x).timeIn = s.timeIn := rfl
@[simp] theorem State.setDraws_inbox (s : State) (x : Nat) : (s.setDraws x).inbox = s.inbox := rfl
@[simp] theorem State.setDraws_draws (s : State) (x : Nat) : (s.setDraws x).draws = x := rfl
@[simp] theorem State.setDraws_cfg (s : State) (x : Nat) : (s.setDraws x).cfg = s.cfg := rfl

end Sys2Proof.Machine
end

