-- ==== Sys2Proof/Laws/Ops.lean ====
section
/-! SUPPORT. What each shared operation over registers, outputs and the engine port can do, said once: which fields it writes
(every other field is untouched) and that `RAM` keeps its form. -/
namespace Sys2Proof.Machine

/-! ### Reads of the arrays and of the key matrix -/

theorem State.readRam_writeRam {s : State} {a b : Addr} {v : Byte} (h : s.ram.wf = true) :
    (s.writeRam a v).readRam b = if b = a then v else s.readRam b := by
  simp only [State.readRam, State.writeRam, State.setRam_ram, Memory.read_write h, BitVec.toNat_inj]

theorem State.kmRow_setKmRow (s : State) (r q : BitVec 3) (v : Byte) :
    (s.setKmRow r v).kmRow q = if q = r then v else s.kmRow q := by
  simp only [State.kmRow, State.setKmRow, State.setKm_km, Vector.getElem_set]
  by_cases h : q = r
  · subst h; simp
  · have : r.toNat ≠ q.toNat := fun h' => h (BitVec.eq_of_toNat_eq h'.symm)
    simp [h, this]

/-! ### Outputs -/

/-- A trace record writes the trace alone. -/
theorem State.traceRec_eq (s : State) (rec : TraceRec) :
    s.traceRec rec = s.setTrace (if s.fDebug then s.trace ++ [rec] else s.trace) := by
  unfold State.traceRec; split <;> rfl

/-- The end of a transaction writes the trace and the engine port's response. -/
theorem State.finishBus_eq (s : State) (rec : TraceRec) (v : Byte) :
    s.finishBus rec v =
      (s.setTrace (if s.fDebug then s.trace ++ [rec] else s.trace)).setEngineResp (some (okResponse v)) := by
  rw [State.finishBus, State.traceRec_eq]; rfl

/-! ### Bus transactions -/

/-- What a bus transaction may change: `RAM`, the trace, the engine port's response. -/
def BusEffect (s t : State) : Prop := t = { s with ram := t.ram, trace := t.trace, engineResp := t.engineResp }

theorem BusEffect.refl (s : State) : BusEffect s s := rfl

theorem BusEffect.trans {s t u : State} (h1 : BusEffect s t) (h2 : BusEffect t u) : BusEffect s u := by
  unfold BusEffect at *; rw [h2, h1]

theorem busEffect_writeRam (s : State) (a : Addr) (v : Byte) : BusEffect s (s.writeRam a v) := rfl

theorem busEffect_respondEngine (s : State) (q : Response) : BusEffect s (s.respondEngine q) := rfl

theorem busEffect_traceRec (s : State) (rec : TraceRec) : BusEffect s (s.traceRec rec) := by
  rw [State.traceRec_eq]; rfl

theorem busEffect_finishBus (s : State) (rec : TraceRec) (v : Byte) : BusEffect s (s.finishBus rec v) := by
  rw [State.finishBus_eq]; rfl

theorem busEffect_memRead (a : Addr) (s : State) : BusEffect s (memRead a s).2 := by
  unfold memRead; split <;> rfl

/-- A `BUS_READ` changes nothing but what a transaction may. -/
theorem busEffect_busRead (a : Addr) (s : State) : BusEffect s (busRead a s).2 := by
  unfold busRead
  split
  · rfl
  · exact (busEffect_memRead a s).trans (busEffect_finishBus _ _ _)

/-- A `BUS_WRITE` changes nothing but what a transaction may. -/
theorem busEffect_busWrite (a : Addr) (v : Byte) (s : State) : BusEffect s (busWrite a v s) := by
  unfold busWrite
  split
  · rfl
  · exact (busEffect_writeRam s a v).trans (busEffect_finishBus _ _ _)

/-! ### The form of `RAM` -/

theorem ramWf_writeRam {s : State} (h : s.ram.wf = true) (a : Addr) (v : Byte) : (s.writeRam a v).ram.wf = true :=
  Memory.wf_write h a.isLt

@[simp] theorem finishBus_ram (s : State) (rec : TraceRec) (v : Byte) : (s.finishBus rec v).ram = s.ram := by
  rw [State.finishBus_eq]; rfl

@[simp] theorem traceRec_ram (s : State) (rec : TraceRec) : (s.traceRec rec).ram = s.ram := by
  rw [State.traceRec_eq]; rfl

theorem ramWf_memRead {s : State} (h : s.ram.wf = true) (a : Addr) : (memRead a s).2.ram.wf = true := by
  unfold memRead
  split
  · exact ramWf_writeRam h _ _
  · exact h
  · exact h
  · exact h

theorem ramWf_busRead {s : State} (h : s.ram.wf = true) (a : Addr) : (busRead a s).2.ram.wf = true := by
  unfold busRead
  split
  · exact h
  · simpa using ramWf_memRead h a

theorem ramWf_busWrite {s : State} (h : s.ram.wf = true) (a : Addr) (v : Byte) : (busWrite a v s).ram.wf = true := by
  unfold busWrite
  split
  · exact h
  · simpa using ramWf_writeRam h a v

/-- `STOPPED <- 1` writes itself, the sequencer's position, the wait it lifts and the response it then owes. -/
theorem State.stopNow_eq (s : State) :
    s.stopNow = { s with
      stopped := true
      loop := .top
      waitStop := false
      hostResp := if s.waitStop then some (okResponse 0) else s.hostResp } := by
  unfold State.stopNow
  split
  · rename_i h; cases s; cases h; rfl
  · rename_i h; cases s; simp only [Bool.not_eq_true] at h; cases h; rfl

end Sys2Proof.Machine
end

