-- ==== Sys2Proof/Laws/AddressSpace.lean ====
section
/-! SUPPORT. The read decode and the two bus transactions, said once: what each answers, what it writes and what it records. -/
namespace Sys2Proof.Machine

theorem inBlock_iff {base size a : Nat} : inBlock base size a = true ↔ base ≤ a ∧ a < base + size := by
  simp only [inBlock, Bool.and_eq_true, decide_eq_true_eq]

/-- No address is in two of the decode's cases (R7). -/
theorem legal_regions_apart {p : Params} (h : p.legal = true) :
    (∀ a : Nat, ¬ (inBlock p.basicBase.toNat basicSize a = true ∧ inBlock p.kernelBase.toNat kernelSize a = true))
      ∧ inBlock p.basicBase.toNat basicSize p.kbdDataAddr.toNat = false
      ∧ inBlock p.kernelBase.toNat kernelSize p.kbdDataAddr.toNat = false := by
  simp only [Params.legal, Bool.and_eq_true, Params.windowsApart, Params.keyboardOutside, blocksApart, Bool.or_eq_true,
    decide_eq_true_eq, Bool.not_eq_true'] at h
  refine ⟨fun a ha => ?_, h.1.2.1, h.1.2.2⟩
  simp only [inBlock_iff] at ha
  omega

/-- A read of an address of an array kind: its byte, and nothing written but the record and the response (R86, R88). -/
theorem busRead_array {s : State} {a : Addr} (hs : s.stopped = false) (ha : region s.cfg.params a ≠ .keyboard) :
    busRead a s =
      (arrayRead (region s.cfg.params a) a s,
        s.finishBus (.read a (arrayRead (region s.cfg.params a) a s)) (arrayRead (region s.cfg.params a) a s)) := by
  simp only [busRead, hs, memRead]
  cases hr : region s.cfg.params a <;> first | exact absurd hr ha | rfl

/-- A read of the keyboard port: the scan with the mask cell, and the mirror written (R87). -/
theorem busRead_keyboard {s : State} {a : Addr} (hs : s.stopped = false) (ha : region s.cfg.params a = .keyboard) :
    busRead a s =
      (scan s.km s.rowSelectMask,
        (s.writeRam s.cfg.params.kbdDataAddr (scan s.km s.rowSelectMask)).finishBus
          (.read a (scan s.km s.rowSelectMask)) (scan s.km s.rowSelectMask)) := by
  simp only [busRead, hs, memRead, ha]
  rfl

/-- A write before `STOPPED = 1` (R89). -/
theorem busWrite_eq {s : State} {a : Addr} {v : Byte} (hs : s.stopped = false) :
    busWrite a v s = (s.writeRam a v).finishBus (.write a v) 0 := by
  simp only [busWrite, hs]
  rfl

/-- After `STOPPED = 1` both are refused and write the response alone (R143). -/
theorem busRead_stopped {s : State} (a : Addr) (hs : s.stopped = true) : busRead a s = (0xFF, s.respondEngine afterStop) := by
  simp only [busRead, hs, if_true]

theorem busWrite_stopped {s : State} (a : Addr) (v : Byte) (hs : s.stopped = true) :
    busWrite a v s = s.respondEngine afterStop := by
  simp only [busWrite, hs, if_true]

theorem trace_busRead {s : State} (a : Addr) (h : s.fDebug = false) : (busRead a s).2.trace = s.trace := by
  unfold busRead
  split
  · rfl
  · have hb := busEffect_memRead a s
    have ht : (memRead a s).2.trace = s.trace := by unfold memRead; split <;> rfl
    have hd : (memRead a s).2.fDebug = false := by rw [hb]; exact h
    simp [State.finishBus_eq, hd, ht]

theorem trace_busWrite {s : State} (a : Addr) (v : Byte) (h : s.fDebug = false) : (busWrite a v s).trace = s.trace := by
  unfold busWrite
  split
  · rfl
  · simp [State.finishBus_eq, State.writeRam, h]

end Sys2Proof.Machine
end

