-- ==== Sys2Proof/Laws/Control.lean ====
section
/-! SUPPORT. What `INIT` answers and what it loads, said once. -/
namespace Sys2Proof.Machine

/-- The block at `b` is read back as its image. -/
abbrev inRomBlock (p : Params) (b : RomBlock) (a : Nat) : Prop :=
  (blockBase p b).toNat ≤ a ∧ a < (blockBase p b).toNat + blockSize b

theorem imageOk_iff {im : Images} {b : RomBlock} :
    imageOk im b = true ↔ ∃ bytes, im.of b = some bytes ∧ bytes.length = blockSize b := by
  unfold imageOk
  split
  · rename_i bytes h; simp [h]
  · rename_i h; simp [h]

/-- The size checks pass just when the three images have the sizes of their blocks (R123). -/
theorem configErrorCode_none_iff {im : Images} : configErrorCode im = none ↔ ∀ b, imageOk im b = true := by
  unfold configErrorCode
  constructor
  · intro h b
    split at h
    · cases h
    · split at h
      · cases h
      · split at h
        · cases h
        · cases b <;> simp_all
  · intro h
    simp [h]

theorem bytes_length_of_imageOk {im : Images} {b : RomBlock} (h : imageOk im b = true) :
    (im.bytes b).length = blockSize b := by
  obtain ⟨bytes, hb, hl⟩ := imageOk_iff.1 h
  rw [Images.bytes, hb]
  exact hl

theorem legal_blocks_fit {p : Params} (h : p.legal = true) (b : RomBlock) :
    (blockBase p b).toNat + blockSize b ≤ arraySize := by
  have h1 : p.blocksFit = true := by simp [Params.legal] at h; exact h.1.1.1
  simp only [Params.blocksFit, Bool.and_eq_true, decide_eq_true_eq] at h1
  cases b
  · exact h1.1.1
  · exact h1.1.2
  · exact h1.2

/-- No offset lies in two ROM blocks (R7). -/
theorem legal_blocks_apart {p : Params} (h : p.legal = true) {b c : RomBlock} {a : Nat}
    (hb : inRomBlock p b a) (hc : inRomBlock p c a) : b = c := by
  simp only [Params.legal, Bool.and_eq_true, Params.windowsApart, Params.chargenApart, blocksApart, Bool.or_eq_true,
    decide_eq_true_eq] at h
  unfold inRomBlock at hb hc
  cases b <;> cases c <;> simp only [blockBase, blockSize] at hb hc <;> first | rfl | omega

theorem wf_loadedRom (p : Params) (im : Images) : (loadedRom p im).wf = true :=
  Memory.wf_writeBytes (Memory.wf_writeBytes (Memory.wf_writeBytes Memory.wf_zero))

/-- What `INIT` loads at an offset, block by block (R50, R123). -/
theorem read_loadedRom {p : Params} {im : Images} (hp : p.legal = true) (him : configErrorCode im = none) (a : Nat) :
    (loadedRom p im).read a =
      if inRomBlock p .basic a then ((im.bytes .basic)[a - (blockBase p .basic).toNat]?).getD 0
      else if inRomBlock p .chargen a then ((im.bytes .chargen)[a - (blockBase p .chargen).toNat]?).getD 0
      else if inRomBlock p .kernel a then ((im.bytes .kernel)[a - (blockBase p .kernel).toNat]?).getD 0
      else 0 := by
  have hl := fun c => bytes_length_of_imageOk (configErrorCode_none_iff.1 him c)
  have hfit : ∀ b, (blockBase p b).toNat + (im.bytes b).length ≤ arraySize := fun b => hl b ▸ legal_blocks_fit hp b
  have step : ∀ b m, m.wf = true → (Memory.writeBytes (blockBase p b) (im.bytes b) m).read a =
      if inRomBlock p b a then ((im.bytes b)[a - (blockBase p b).toNat]?).getD 0 else m.read a := by
    intro b m hm
    rw [Memory.read_writeBytes hm (hfit b), hl]
  have e : loadedRom p im = Memory.writeBytes (blockBase p .basic) (im.bytes .basic)
      (Memory.writeBytes (blockBase p .chargen) (im.bytes .chargen)
        (Memory.writeBytes (blockBase p .kernel) (im.bytes .kernel) Memory.zero)) := rfl
  rw [e, step _ _ (Memory.wf_writeBytes (Memory.wf_writeBytes Memory.wf_zero)),
    step _ _ (Memory.wf_writeBytes Memory.wf_zero), step _ _ Memory.wf_zero, Memory.read_zero]

/-- What `INIT` loads, inside a block: byte `i` of its image at `base + i` (R50, R123). -/
theorem read_loadedRom_in {p : Params} {im : Images} (hp : p.legal = true) (him : configErrorCode im = none) {b : RomBlock}
    {a : Nat} (ha : inRomBlock p b a) :
    (loadedRom p im).read a = ((im.bytes b)[a - (blockBase p b).toNat]?).getD 0 := by
  have happ : ∀ c, c ≠ b → ¬ inRomBlock p c a := fun c hne hc => hne (legal_blocks_apart hp hc ha)
  rw [read_loadedRom hp him]
  cases b
  · rw [if_pos ha]
  · rw [if_neg (happ .basic (by decide)), if_neg (happ .chargen (by decide)), if_pos ha]
  · rw [if_neg (happ .basic (by decide)), if_pos ha]

/-- What `INIT` loads, outside the three blocks: zero (R14, R123). -/
theorem read_loadedRom_out {p : Params} {im : Images} (hp : p.legal = true) (him : configErrorCode im = none) {a : Nat}
    (ha : ∀ b, ¬ inRomBlock p b a) : (loadedRom p im).read a = 0 := by
  rw [read_loadedRom hp him, if_neg (ha .basic), if_neg (ha .chargen), if_neg (ha .kernel)]

/-- Every answer an `INIT` can give when it answers with a next state: a refusal or an error, which write the response alone,
or what follows the checks. -/
theorem onInit_next {s k t : State} (h : s.onInit k = .next t) :
    (∃ q, t = s.respondHost q) ∨
      (t = k ∧ s.stopped = false ∧ s.inited = false ∧ s.fPaused = true ∧ s.loopInStep = false
        ∧ configErrorCode s.images = none) := by
  unfold State.onInit State.onHost at h
  split at h
  · exact .inl ⟨_, (Host.Outcome.next.inj h).symm⟩
  · split at h
    · exact .inl ⟨_, (Host.Outcome.next.inj h).symm⟩
    · split at h
      · cases h
      · split at h
        · exact .inl ⟨_, (Host.Outcome.next.inj h).symm⟩
        · exact .inr ⟨(Host.Outcome.next.inj h).symm, by simp_all⟩

end Sys2Proof.Machine
end

