-- ==== Sys2Proof/Laws/Encoding.lean ====
section
/-! SUPPORT. The fields of a packed word, and the packed word of a word's fields. -/
namespace Sys2Proof
open Sys2Proof.Machine

theorem shiftLeft_or_eq (x : Nat) {y n : Nat} (h : y < 2 ^ n) : x <<< n ||| y = x * 2 ^ n + y := by
  rw [← Nat.shiftLeft_add_eq_or_of_lt h, Nat.shiftLeft_eq]

theorem toNat_packWord (op : BitVec 4) (a : Addr) (d : Byte) :
    (packWord op a d).toNat = op.toNat * 268435456 + a.toNat * 256 + d.toNat := by
  have h1 := op.isLt
  have h2 := a.isLt
  have h3 := d.isLt
  unfold packWord
  rw [BitVec.toNat_append, BitVec.toNat_append, BitVec.toNat_append]
  rw [shiftLeft_or_eq _ h3, shiftLeft_or_eq _ h2, shiftLeft_or_eq _ (BitVec.isLt _), BitVec.toNat_ofNat]
  omega

/-- The fields of a packed word are what was packed. -/
theorem fields_packWord (op : BitVec 4) (a : Addr) (d : Byte) :
    opField (packWord op a d) = op ∧ zField (packWord op a d) = 0 ∧ aField (packWord op a d) = a
      ∧ dField (packWord op a d) = d := by
  have h := toNat_packWord op a d
  have h1 := op.isLt
  have h2 := a.isLt
  have h3 := d.isLt
  refine ⟨?_, ?_, ?_, ?_⟩ <;> apply BitVec.eq_of_toNat_eq <;>
    simp only [opField, zField, aField, dField, BitVec.extractLsb'_toNat, Nat.shiftRight_eq_div_pow, h, BitVec.ofNat_eq_ofNat,
      BitVec.toNat_ofNat] <;>
    omega

/-- A word whose `Z` field is zero is its three other fields, packed. -/
theorem packWord_fields {w : Word} (hz : zField w = 0) : packWord (opField w) (aField w) (dField w) = w := by
  have hw := w.isLt
  have hz' : (zField w).toNat = 0 := by rw [hz]; rfl
  apply BitVec.eq_of_toNat_eq
  rw [toNat_packWord]
  simp only [opField, zField, aField, dField, BitVec.extractLsb'_toNat, Nat.shiftRight_eq_div_pow] at hz' ⊢
  omega

theorem decodeWord_packWord (op : BitVec 4) (a : Addr) (d : Byte) : decodeWord (packWord op a d) = decodeFields op a d := by
  obtain ⟨h1, h2, h3, h4⟩ := fields_packWord op a d
  unfold decodeWord
  rw [h1, h2, h3, h4]
  rfl

/-- A coordinate, packed, has the fields it was packed from, and its other bits zero. -/
theorem coordinate_fields (row col : BitVec 3) :
    rowField (packCoordinate row col) = row ∧ colField (packCoordinate row col) = col
      ∧ (packCoordinate row col).extractLsb' 6 10 = 0 := by
  revert row col; decide

/-- A boolean, packed, is read back, and its other bits are zero. -/
theorem bool_fields (b : Bool) : boolField (packBool b) = b ∧ (packBool b).extractLsb' 1 7 = 0 := by
  revert b; decide

theorem packCoordinate_fields {a : Addr} (h : a.extractLsb' 6 10 = 0) : packCoordinate (rowField a) (colField a) = a := by
  have ha := a.isLt
  have h' : (a.extractLsb' 6 10).toNat = 0 := by rw [h]; rfl
  apply BitVec.eq_of_toNat_eq
  unfold packCoordinate rowField colField
  rw [BitVec.toNat_append, BitVec.toNat_append, shiftLeft_or_eq _ (BitVec.isLt _), shiftLeft_or_eq _ (BitVec.isLt _)]
  simp only [BitVec.extractLsb'_toNat, Nat.shiftRight_eq_div_pow, BitVec.toNat_ofNat] at h' ⊢
  omega

theorem packBool_field {d : Byte} (h : d.extractLsb' 1 7 = 0) : packBool (boolField d) = d := by
  revert d; decide

end Sys2Proof
end

