-- ==== Sys2Proof/Laws/Engine.lean ====
section
/-! SUPPORT. What the engine's operations and its strobes can do to the block, said once: the fields they write, the values
the engine-control port shows, and that `RAM` keeps its form. -/
namespace Sys2Proof.Machine

/-- What an engine program may change: what a transaction may, and the engine's own state. -/
def ProgEffect (s t : State) : Prop :=
  t = { s with ram := t.ram, trace := t.trace, engineResp := t.engineResp, eng := t.eng }

theorem BusEffect.prog {s t u : State} (h1 : BusEffect s t) (h2 : ProgEffect t u) : ProgEffect s u := by
  unfold BusEffect at h1; unfold ProgEffect at *; rw [h2, h1]

/-- However many transactions an engine program makes, it changes no flag, no key, no `ROM` byte and not `LFT`. -/
theorem progEffect_runProg (p : EngineProg) (s : State) : ProgEffect s (runProg p s) := by
  induction p generalizing s with
  | ret e => rfl
  | read a k ih => exact (busEffect_busRead a s).prog (ih _ _)
  | write a v k ih => exact (busEffect_busWrite a v s).prog (ih _)

theorem ramWf_runProg (p : EngineProg) {s : State} (h : s.ram.wf = true) : (runProg p s).ram.wf = true := by
  induction p generalizing s with
  | ret e => exact h
  | read a k ih => exact ih _ (ramWf_busRead h a)
  | write a v k ih => exact ih (ramWf_busWrite h a v)

/-- An overlap keeps how many operations the host has in progress, and which. -/
theorem disturbCalls_length (d : Nat) (cs : List HostCall) : (disturbCalls d cs).length = cs.length := by
  induction cs generalizing d with
  | nil => rfl
  | cons c cs ih => simp [disturbCalls, ih]

theorem isInit_disturbed (c : HostCall) (d : Nat) : (c.disturbed d).isInit = c.isInit := by cases c <;> rfl

theorem countP_isInit_disturbCalls (d : Nat) (cs : List HostCall) :
    (disturbCalls d cs).countP HostCall.isInit = cs.countP HostCall.isInit := by
  induction cs generalizing d with
  | nil => rfl
  | cons c cs ih => simp only [disturbCalls, List.countP_cons, isInit_disturbed, ih]

/-- What an engine operation may change: what its program may, and, where it overlaps another, the other's program. -/
def EngineEffect (s t : State) : Prop :=
  t = { s with
    ram := t.ram, trace := t.trace, engineResp := t.engineResp, eng := t.eng,
    loop := if s.engineBusy then s.loop.disturbed (s.draws + 1) else s.loop,
    calls := if s.engineBusy then disturbCalls (s.draws + 2) s.calls else s.calls,
    draws := if s.engineBusy then s.draws + 2 + s.calls.length else s.draws }

/-- The beginning of an operation writes nothing but what an overlap disturbs. -/
theorem beginRun_state (op : EngineOp) (s : State) :
    (beginRun op s).2 = { s with
      loop := if s.engineBusy then s.loop.disturbed (s.draws + 1) else s.loop,
      calls := if s.engineBusy then disturbCalls (s.draws + 2) s.calls else s.calls,
      draws := if s.engineBusy then s.draws + 2 + s.calls.length else s.draws } := by
  unfold beginRun
  split
  · rfl
  · rfl

/-- With no other operation in progress an operation is its own program, started in the engine's state. -/
theorem beginRun_quiet {op : EngineOp} {s : State} (h : s.engineBusy = false) :
    beginRun op s = (⟨op, .called op s.eng, [], .idle⟩, s) := by
  simp [beginRun, h]

theorem engineEffect_runWhole (op : EngineOp) (s : State) : EngineEffect s (runWhole op s) := by
  have h := progEffect_runProg (engineProg s.cfg.engine (beginRun op s).1.prog) (beginRun op s).2
  rw [← runWhole] at h
  unfold ProgEffect at h
  rw [beginRun_state] at h
  exact h

theorem ramWf_runWhole (op : EngineOp) {s : State} (h : s.ram.wf = true) : (runWhole op s).ram.wf = true := by
  unfold runWhole
  refine ramWf_runProg _ ?_
  rw [beginRun_state]
  exact h

theorem runWhole_quiet {op : EngineOp} {s : State} (h : s.engineBusy = false) :
    runWhole op s = runProg (engineCall s.cfg.engine op s.eng) s := by
  rw [runWhole, beginRun_quiet h]; rfl

@[simp] theorem showControl_engineBusy (s : State) (c : Strobe) : (s.showControl c).engineBusy = s.engineBusy := rfl

/-- A strobe: what its operation may change, and the port shows the code, then idle (R75). -/
theorem strobe_eq (op : EngineOp) (s : State) :
    strobe op s = { s with
      ram := (strobe op s).ram, trace := (strobe op s).trace, engineResp := (strobe op s).engineResp,
      eng := (strobe op s).eng,
      control := s.control ++ [strobeCode op, 0],
      loop := if s.engineBusy then s.loop.disturbed (s.draws + 1) else s.loop,
      calls := if s.engineBusy then disturbCalls (s.draws + 2) s.calls else s.calls,
      draws := if s.engineBusy then s.draws + 2 + s.calls.length else s.draws } := by
  have h := engineEffect_runWhole op (s.showControl (strobeCode op))
  have hs : strobe op s = (runWhole op (s.showControl (strobeCode op))).setControl
      ((runWhole op (s.showControl (strobeCode op))).control ++ [0]) := rfl
  generalize hu : runWhole op (s.showControl (strobeCode op)) = u at h hs
  unfold EngineEffect at h
  rw [hs]
  have hc : u.control = s.control ++ [strobeCode op] := by rw [h]; rfl
  rw [hc, List.append_assoc]
  conv_lhs => rw [h]
  rfl

theorem ramWf_strobe (op : EngineOp) {s : State} (h : s.ram.wf = true) : (strobe op s).ram.wf = true :=
  ramWf_runWhole op h

/-- A strobe with no other operation in progress, for an engine that makes no transaction. -/
theorem strobe_ret {op : EngineOp} {s : State} {e : EngineState} (h : s.engineBusy = false)
    (hp : engineCall s.cfg.engine op s.eng = .ret e) :
    strobe op s = (s.setEng e).setControl (s.control ++ [strobeCode op, 0]) := by
  unfold strobe
  rw [runWhole_quiet (by simpa using h)]
  have : engineCall (s.showControl (strobeCode op)).cfg.engine op (s.showControl (strobeCode op)).eng = .ret e := hp
  rw [this]
  simp [runProg, State.showControl, State.setEng, State.setControl]

end Sys2Proof.Machine
end

