-- ==== Sys2Proof/Laws/RunLoop.lean ====
section
/-! SUPPORT. Everything that a piece of the loop thread's work can do to the block, said once as LoopEffect and shown for the
engine's operations, the strobes, the timer and the iteration. -/
namespace Sys2Proof.Machine

/-- Whether an `INIT` is in progress, as a count. -/
theorem hostInInit_eq (s : State) : s.hostInInit = decide (0 < s.calls.countP HostCall.isInit) := by
  rw [State.hostInInit, Bool.eq_iff_iff]
  simp [List.countP_pos_iff]

/-- What the loop thread can do: the fields it may write, the form of `RAM` it keeps, time that does not go back, no record
while `F.debug = 0`. -/
structure LoopEffect (s t : State) : Prop where
  /-- It writes no other field: no key, no `ROM` byte, not `F.paused`, `F.quit`, `F.debug`, `INITED`, `STOPPED`, the host port, its
  wait, the images, the inbox or the configuration. -/
  frame : t = { s with
    ram := t.ram, lft := t.lft, fReset := t.fReset, loop := t.loop, calls := t.calls, trace := t.trace, control := t.control,
    engineResp := t.engineResp, eng := t.eng, clock := t.clock, timeIn := t.timeIn, draws := t.draws }
  ramWf : s.ram.wf = true → t.ram.wf = true
  clock : s.clock ≤ t.clock
  lft : s.lft ≤ s.clock → s.lft ≤ t.lft ∧ t.lft ≤ t.clock
  trace : s.fDebug = false → t.trace = s.trace
  inits : t.calls.countP HostCall.isInit = s.calls.countP HostCall.isInit

theorem LoopEffect.refl (s : State) : LoopEffect s s :=
  ⟨rfl, id, Nat.le_refl _, fun h => ⟨Nat.le_refl _, h⟩, fun _ => rfl, rfl⟩

/-- An `INIT` is in progress after it just when one was before. -/
theorem LoopEffect.hostInInit {s t : State} (h : LoopEffect s t) : t.hostInInit = s.hostInInit := by
  rw [hostInInit_eq, hostInInit_eq, h.inits]

theorem LoopEffect.waitStop {s t : State} (h : LoopEffect s t) : t.waitStop = s.waitStop := by rw [h.frame]

theorem LoopEffect.fDebug {s t : State} (h : LoopEffect s t) : t.fDebug = s.fDebug := by rw [h.frame]

theorem LoopEffect.trans {s t u : State} (h1 : LoopEffect s t) (h2 : LoopEffect t u) : LoopEffect s u where
  frame := by
    have h := h2.frame
    rw [h1.frame] at h
    exact h
  ramWf := fun h => h2.ramWf (h1.ramWf h)
  clock := Nat.le_trans h1.clock h2.clock
  lft := fun h => ⟨Nat.le_trans (h1.lft h).1 (h2.lft (h1.lft h).2).1, (h2.lft (h1.lft h).2).2⟩
  trace := fun h => (h2.trace (h1.fDebug.trans h)).trans (h1.trace h)
  inits := h2.inits.trans h1.inits

/-- A piece of work that writes no more than positions, the port, the response, the engine's state, `F.reset` and the
draws. -/
theorem LoopEffect.of_quiet {s t : State}
    (hf : t = { s with
      fReset := t.fReset, loop := t.loop, control := t.control, engineResp := t.engineResp, eng := t.eng, draws := t.draws }) :
    LoopEffect s t := by
  rw [hf]
  exact ⟨rfl, id, Nat.le_refl _, fun h => ⟨Nat.le_refl _, h⟩, fun _ => rfl, rfl⟩

/-! ### The engine -/

theorem trace_runProg (p : EngineProg) {s : State} (h : s.fDebug = false) : (runProg p s).trace = s.trace := by
  induction p generalizing s with
  | ret e => rfl
  | read a k ih =>
    have hd : (busRead a s).2.fDebug = false := by rw [busEffect_busRead a s]; exact h
    exact (ih _ hd).trans (trace_busRead a h)
  | write a v k ih =>
    have hd : (busWrite a v s).fDebug = false := by rw [busEffect_busWrite a v s]; exact h
    exact (ih hd).trans (trace_busWrite a v h)

/-- After `STOPPED = 1` every transaction of an operation is refused: only the response and the engine's state are written. -/
theorem runProg_stopped (p : EngineProg) {s : State} (h : s.stopped = true) :
    runProg p s = { s with engineResp := (runProg p s).engineResp, eng := (runProg p s).eng } := by
  induction p generalizing s with
  | ret e => rfl
  | read a k ih =>
    have hk : runProg (k 0xFF) (s.respondEngine afterStop) = _ := ih 0xFF (s := s.respondEngine afterStop) h
    simp only [runProg]
    rw [busRead_stopped a h]
    simp only
    rw [hk]
    rfl
  | write a v k ih =>
    have hk : runProg k (s.respondEngine afterStop) = _ := ih (s := s.respondEngine afterStop) h
    simp only [runProg]
    rw [busWrite_stopped a v h, hk]
    rfl

theorem loopEffect_of_prog {s t : State} (hf : ProgEffect s t) (hw : s.ram.wf = true → t.ram.wf = true)
    (ht : s.fDebug = false → t.trace = s.trace) : LoopEffect s t := by
  unfold ProgEffect at hf
  refine ⟨?_, hw, ?_, fun h => ?_, ht, ?_⟩
  · rw [hf]
  · rw [hf]
  · rw [hf]; exact ⟨Nat.le_refl _, h⟩
  · rw [hf]

theorem loopEffect_runProg (p : EngineProg) (s : State) : LoopEffect s (runProg p s) :=
  loopEffect_of_prog (progEffect_runProg p s) (fun h => ramWf_runProg p h) (fun h => trace_runProg p h)

theorem loopEffect_beginRun (op : EngineOp) (s : State) : LoopEffect s (beginRun op s).2 := by
  unfold beginRun
  split
  · exact ⟨rfl, id, Nat.le_refl _, fun h => ⟨Nat.le_refl _, h⟩, fun _ => rfl, countP_isInit_disturbCalls _ _⟩
  · exact .refl s

theorem loopEffect_showControl (s : State) (c : Strobe) : LoopEffect s (s.showControl c) := .of_quiet rfl

theorem loopEffect_setLoop (s : State) (p : LoopPos) : LoopEffect s (s.setLoop p) := .of_quiet rfl

theorem loopEffect_setReset (s : State) : LoopEffect s (s.setReset false) := .of_quiet rfl

theorem loopEffect_traceRec (s : State) (rec : TraceRec) : LoopEffect s (s.traceRec rec) := by
  unfold State.traceRec
  split
  · rename_i h
    exact ⟨rfl, id, Nat.le_refl _, fun h => ⟨Nat.le_refl _, h⟩, fun h' => by simp [h] at h', rfl⟩
  · exact .refl s

theorem loopEffect_finishBus (s : State) (rec : TraceRec) (v : Byte) : LoopEffect s (s.finishBus rec v) :=
  (loopEffect_traceRec s rec).trans (.of_quiet rfl)

theorem loopEffect_writeRam (s : State) (a : Addr) (v : Byte) : LoopEffect s (s.writeRam a v) :=
  ⟨rfl, fun h => ramWf_writeRam h a v, Nat.le_refl _, fun h => ⟨Nat.le_refl _, h⟩, fun _ => rfl, rfl⟩

theorem loopEffect_strobe (op : EngineOp) (s : State) : LoopEffect s (strobe op s) :=
  (((loopEffect_showControl s _).trans (loopEffect_beginRun op _)).trans (loopEffect_runProg _ _)).trans
    (loopEffect_showControl _ _)

theorem loopEffect_stepEngine (s : State) : LoopEffect s (stepEngine s) :=
  (loopEffect_traceRec s _).trans (loopEffect_strobe .step _)

/-! ### The timer -/

/-- The sample taken is the new last sample, and not earlier than the one before (R21). -/
theorem sampleNow_fst (s : State) : s.sampleNow.1 = s.sampleNow.2.clock := by
  unfold State.sampleNow
  split <;> rfl

/-- A sample writes the clock and the time inputs alone. -/
theorem sampleNow_frame (s : State) :
    s.sampleNow.2 = { s with
      clock := s.sampleNow.2.clock, timeIn := s.sampleNow.2.timeIn, draws := s.sampleNow.2.draws } := by
  unfold State.sampleNow
  split <;> rfl

theorem clock_le_sampleNow (s : State) : s.clock ≤ s.sampleNow.1 := by
  unfold State.sampleNow
  split <;> exact Nat.le_add_right _ _

theorem loopEffect_sampleNow (s : State) : LoopEffect s s.sampleNow.2 := by
  have hc : s.clock ≤ s.sampleNow.2.clock := sampleNow_fst s ▸ clock_le_sampleNow s
  have hf := sampleNow_frame s
  refine ⟨by rw [hf], fun h => ?_, hc, fun h => ?_, fun _ => ?_, ?_⟩
  · rw [hf]; exact h
  · have hl : s.sampleNow.2.lft = s.lft := by rw [hf]
    rw [hl]; exact ⟨Nat.le_refl _, Nat.le_trans h hc⟩
  · rw [hf]
  · rw [hf]

theorem loopEffect_skipSample (s : State) : LoopEffect s (skipSample s) :=
  ⟨rfl, id, Nat.le_refl _, fun h => ⟨Nat.le_refl _, h⟩, fun _ => rfl, rfl⟩

/-- `LFT` reloaded with the last sample. -/
theorem loopEffect_setLft {s : State} {x : Nat} (h : x = s.clock) : LoopEffect s (s.setLft x) :=
  ⟨rfl, id, Nat.le_refl _, fun hl => ⟨h ▸ hl, h ▸ Nat.le_refl _⟩, fun _ => rfl, rfl⟩

theorem loopEffect_requestIrq (s : State) : LoopEffect s (requestIrq s) := by
  unfold requestIrq
  split
  · exact loopEffect_strobe .irq s
  · exact .refl s

theorem loopEffect_pollNow (s : State) : LoopEffect s (pollNow s) := by
  unfold pollNow timerPoll
  split
  · exact ((loopEffect_sampleNow s).trans (loopEffect_setLft (sampleNow_fst s))).trans (loopEffect_requestIrq _)
  · exact loopEffect_sampleNow s

theorem loopEffect_reloadNow (s : State) : LoopEffect s (reloadNow s) :=
  (loopEffect_sampleNow s).trans (loopEffect_setLft (sampleNow_fst s))

/-! ### The iteration -/

theorem loopEffect_iterFromPoll (s : State) : LoopEffect s (iterFromPoll s) :=
  (loopEffect_pollNow s).trans (loopEffect_setLoop _ _)

theorem loopEffect_iterFromReload (s : State) : LoopEffect s (iterFromReload s) :=
  (loopEffect_reloadNow s).trans (loopEffect_setLoop _ _)

theorem loopEffect_iterFromA6 (s : State) : LoopEffect s (iterFromA6 s) := by
  unfold iterFromA6
  split
  · exact loopEffect_iterFromReload s
  · split
    · exact loopEffect_iterFromPoll s
    · exact (loopEffect_skipSample s).trans (loopEffect_setLoop _ _)

theorem loopEffect_iterFromA5 (s : State) : LoopEffect s (iterFromA5 s) :=
  (loopEffect_setReset s).trans (loopEffect_iterFromA6 _)

theorem loopEffect_iterFromA4 (s : State) : LoopEffect s (iterFromA4 s) :=
  (loopEffect_strobe .reset s).trans (loopEffect_iterFromA5 _)

theorem loopEffect_clearRam (s : State) (n : Nat) : LoopEffect s ((s.setDraws n).setRam Memory.zero) :=
  ⟨rfl, fun _ => rfl, Nat.le_refl _, fun h => ⟨Nat.le_refl _, h⟩, fun _ => rfl, rfl⟩

theorem loopEffect_iterFromA8 {s t : State} (h : iterFromA8 s = .next t) : LoopEffect s t := by
  unfold iterFromA8 at h
  split at h
  · cases h
  · cases h
    exact (loopEffect_stepEngine s).trans (loopEffect_iterFromPoll _)

theorem loopEffect_iterFromA7 {s t : State} (h : iterFromA7 s = .next t) : LoopEffect s t := by
  unfold iterFromA7 at h
  split at h
  · cases h
    exact loopEffect_iterFromReload s
  · exact loopEffect_iterFromA8 h

theorem loopEffect_iterFromA2 {s t : State} (h : iterFromA2 s = .next t) : LoopEffect s t := by
  unfold iterFromA2 at h
  split at h
  · cases h
    exact (loopEffect_clearRam s _).trans (loopEffect_iterFromA4 _)
  · exact loopEffect_iterFromA7 h

theorem loopEffect_iterAfter (op : EngineOp) (s : State) : LoopEffect s (iterAfter op s) := by
  cases op
  · exact loopEffect_iterFromPoll s
  · exact loopEffect_iterFromA5 s
  · exact loopEffect_setLoop _ _
  · exact loopEffect_setLoop _ _

theorem loopEffect_iterFromStart {op : EngineOp} {s t : State} (h : iterFromStart op s = .next t) : LoopEffect s t := by
  unfold iterFromStart at h
  split at h
  · cases h
  · cases h
    exact (loopEffect_strobe op s).trans (loopEffect_iterAfter op _)

theorem loopEffect_finishTransaction (run : EngineRun) (s : State) : LoopEffect s (finishTransaction run s).2 := by
  unfold finishTransaction
  split
  · exact .refl s
  · exact (loopEffect_writeRam s _ _).trans (loopEffect_finishBus _ _ _)
  · exact loopEffect_finishBus _ _ _

theorem loopEffect_finishRun (run : EngineRun) (s : State) : LoopEffect s (finishRun run s) :=
  (loopEffect_finishTransaction run s).trans (loopEffect_runProg _ _)

theorem loopEffect_clearFrom (s : State) (order k : Nat) : LoopEffect s (s.setRam (s.ram.clearFrom order k)) :=
  ⟨rfl, fun h => Memory.wf_clearFrom h, Nat.le_refl _, fun h => ⟨Nat.le_refl _, h⟩, fun _ => rfl, rfl⟩

/-- The sequencer is about to stop: it has read `F.quit = 1`, or will read it next (R136). -/
def State.aboutToStop (s : State) : Prop := s.stopped = false ∧ (s.loop = .stopping ∨ s.loop = .top ∧ s.fQuit = true)

/-- Everything `ITER` can do, from whatever position of the sequencer (R135, R136). -/
theorem loopEffect_iterate {s t : State} (h : iterate s = .next t) : LoopEffect s t ∨ (s.aboutToStop ∧ t = s.stopNow) := by
  unfold iterate at h
  split at h
  · cases h; exact .inl (.refl s)
  · rename_i hs
    replace hs : s.stopped = false := by simpa using hs
    split at h <;> rename_i hl
    · unfold iterFromA1 at h
      split at h
      · rename_i hq
        cases h
        exact .inr ⟨⟨hs, .inr ⟨hl, hq⟩⟩, rfl⟩
      · exact .inl (loopEffect_iterFromA2 h)
    · cases h; exact .inr ⟨⟨hs, .inl hl⟩, rfl⟩
    · exact .inl (loopEffect_iterFromA2 h)
    · cases h; exact .inl ((loopEffect_clearFrom s _ _).trans (loopEffect_iterFromA4 _))
    · exact .inl (loopEffect_iterFromStart h)
    · cases h
      exact .inl (((loopEffect_finishRun _ s).trans ((loopEffect_setLoop _ _).trans (loopEffect_showControl _ _))).trans
        (loopEffect_iterAfter _ _))
    · cases h; exact .inl (loopEffect_iterFromA5 s)
    · cases h; exact .inl (loopEffect_iterFromA6 s)
    · cases h; exact .inl (loopEffect_iterFromReload s)
    · exact .inl (loopEffect_iterFromA7 h)
    · exact .inl (loopEffect_iterFromA8 h)
    · cases h; exact .inl (loopEffect_iterFromPoll s)
    · cases h; exact .inl ((loopEffect_requestIrq s).trans (loopEffect_setLoop _ _))

end Sys2Proof.Machine
end

