-- ==== Sys2Proof/Laws/Turns.lean ====
section
/-! SUPPORT. Everything one turn of either thread can do, said once. -/
namespace Sys2Proof.Machine

theorem loopEffect_respondEngine (s : State) (q : Response) : LoopEffect s (s.respondEngine q) := .of_quiet rfl

theorem loopEffect_beginRead (run : EngineRun) (a : Addr) (s : State) : LoopEffect s (beginRead run a s).2 := by
  unfold beginRead
  split
  · exact loopEffect_respondEngine s _
  · split <;> exact .refl s

theorem loopEffect_beginWrite (run : EngineRun) (a : Addr) (v : Byte) (s : State) :
    LoopEffect s (beginWrite run a v s).2 := by
  unfold beginWrite
  split
  · exact loopEffect_respondEngine s _
  · exact loopEffect_writeRam s a v

/-- One access of an engine operation, on whichever thread (R57). -/
theorem loopEffect_runTurn (run : EngineRun) (s : State) : LoopEffect s (runTurn run s).2 := by
  unfold runTurn
  split
  · split
    · exact .of_quiet rfl
    · exact loopEffect_beginRead run _ s
    · exact loopEffect_beginWrite run _ _ s
  · split
    · exact .refl s
    · exact loopEffect_writeRam s _ _
  · exact loopEffect_finishBus s _ _

/-- A turn of an operation writes what a program may: it leaves the positions and the engine-control port to its caller. -/
theorem progEffect_runTurn (run : EngineRun) (s : State) : ProgEffect s (runTurn run s).2 := by
  unfold runTurn
  split
  · split
    · rfl
    · unfold beginRead
      split
      · rfl
      · split <;> rfl
    · unfold beginWrite
      split <;> rfl
  · split <;> rfl
  · rw [State.finishBus_eq]; rfl

/-- A turn of an operation keeps which operation it is. -/
theorem runTurn_op {run run' : EngineRun} {s : State} (h : (runTurn run s).1 = some run') : run'.op = run.op := by
  unfold runTurn at h
  split at h
  · split at h
    · cases h
    · unfold beginRead at h
      split at h
      · cases h; rfl
      · split at h <;> (cases h; rfl)
    · unfold beginWrite at h
      split at h <;> (cases h; rfl)
  · split at h <;> (cases h; rfl)
  · cases h; rfl

theorem loopEffect_engineTurn (run : EngineRun) (s : State) : LoopEffect s (engineTurn run s) := by
  have h := loopEffect_runTurn run s
  unfold engineTurn
  split
  · rename_i run' s' he
    rw [he] at h
    exact h.trans (loopEffect_setLoop _ _)
  · rename_i s' he
    rw [he] at h
    exact (h.trans (loopEffect_showControl _ _)).trans (loopEffect_setLoop _ _)

theorem loopEffect_pollTurn (s : State) : LoopEffect s (pollTurn s) := by
  unfold pollTurn
  split
  · exact ((loopEffect_sampleNow s).trans (loopEffect_setLft (sampleNow_fst s))).trans (loopEffect_setLoop _ _)
  · exact (loopEffect_sampleNow s).trans (loopEffect_setLoop _ _)

theorem loopEffect_startTurn {op : EngineOp} {s t : State} (h : startTurn op s = .next t) : LoopEffect s t := by
  unfold startTurn at h
  split at h
  · cases h
  · cases h
    exact ((loopEffect_showControl s _).trans (loopEffect_beginRun op _)).trans (loopEffect_setLoop _ _)

theorem loopEffect_setDraws (s : State) (n : Nat) : LoopEffect s (s.setDraws n) := .of_quiet rfl

/-- Everything one turn of the loop thread can do (R135, R136). -/
theorem loopEffect_loopTurn {s t : State} (h : loopTurn s = .next t) :
    LoopEffect s t ∨ (s.aboutToStop ∧ t = s.stopNow) := by
  unfold loopTurn at h
  split at h
  · cases h; exact .inl (.refl s)
  · rename_i hs
    replace hs : s.stopped = false := by simpa using hs
    split at h <;> rename_i hl
    · cases h; exact .inl (loopEffect_setLoop _ _)
    · cases h; exact .inr ⟨⟨hs, .inl hl⟩, rfl⟩
    · cases h
      split
      · exact .inl ((loopEffect_setDraws s _).trans (loopEffect_setLoop _ _))
      · exact .inl (loopEffect_setLoop _ _)
    · cases h
      split
      · exact .inl ((loopEffect_writeRam s _ _).trans (loopEffect_setLoop _ _))
      · exact .inl (loopEffect_setLoop _ _)
    · exact .inl (loopEffect_startTurn h)
    · cases h; exact .inl (loopEffect_engineTurn _ s)
    · cases h; exact .inl ((loopEffect_setReset s).trans (loopEffect_setLoop _ _))
    · cases h
      split
      · exact .inl (loopEffect_setLoop _ _)
      · split
        · exact .inl (loopEffect_setLoop _ _)
        · exact .inl ((loopEffect_skipSample s).trans (loopEffect_setLoop _ _))
    · cases h; exact .inl (loopEffect_iterFromReload s)
    · cases h; exact .inl (loopEffect_setLoop _ _)
    · cases h; exact .inl ((loopEffect_traceRec s _).trans (loopEffect_setLoop _ _))
    · cases h; exact .inl (loopEffect_pollTurn s)
    · cases h; exact .inl (loopEffect_setLoop _ _)

/-! ### The owning thread -/

/-- What a turn of the owning thread, or an `INIT` whole, can do. `ROM` and `INITED` change only inside an `INIT`. -/
structure HostEffect (s t : State) : Prop where
  frame : t = { s with
    ram := t.ram, rom := t.rom, inited := t.inited, calls := t.calls, trace := t.trace, hostResp := t.hostResp,
    engineResp := t.engineResp, eng := t.eng, draws := t.draws }
  ramWf : s.ram.wf = true → t.ram.wf = true
  romWf : s.rom.wf = true → t.rom.wf = true
  rom : s.hostInInit = false → s.inited = true → t.rom = s.rom ∧ t.hostInInit = false
  inited : s.inited = true → t.inited = true
  trace : s.fDebug = false → t.trace = s.trace

theorem HostEffect.refl (s : State) : HostEffect s s :=
  ⟨rfl, id, id, fun h _ => ⟨rfl, h⟩, id, fun _ => rfl⟩

/-- What the accesses of one operation of the host write: never the list of those in progress. -/
structure AccessEffect (isInit : Bool) (s t : State) : Prop where
  frame : t = { s with
    ram := t.ram, rom := t.rom, inited := t.inited, trace := t.trace, hostResp := t.hostResp,
    engineResp := t.engineResp, eng := t.eng, draws := t.draws }
  ramWf : s.ram.wf = true → t.ram.wf = true
  romWf : s.rom.wf = true → t.rom.wf = true
  rom : isInit = false → t.rom = s.rom ∧ t.inited = s.inited
  inited : s.inited = true → t.inited = true
  trace : s.fDebug = false → t.trace = s.trace

theorem AccessEffect.calls {i : Bool} {s t : State} (h : AccessEffect i s t) : t.calls = s.calls := by rw [h.frame]

/-- One access of an `INIT` (R57, R123). -/
theorem accessEffect_initTurn (im : Images) (pos : InitPos) (s : State) : AccessEffect true s (initTurn im pos s).2 := by
  have writeRom : ∀ (a : Addr) (v : Byte), AccessEffect true s (s.writeRom a v) := fun a v =>
    ⟨rfl, id, fun h => Memory.wf_write h (BitVec.isLt _), fun h => by simp at h, id, fun _ => rfl⟩
  have same : AccessEffect true s s := ⟨rfl, id, id, fun h => by simp at h, id, fun _ => rfl⟩
  unfold initTurn
  split
  · split
    · exact ⟨rfl, fun h => ramWf_writeRam h _ _, id, fun h => by simp at h, id, fun _ => rfl⟩
    · exact ⟨rfl, id, id, fun h => by simp at h, id, fun _ => rfl⟩
  · split
    · exact writeRom _ _
    · exact same
  · split
    · exact writeRom _ _
    · exact same
  · exact ⟨rfl, id, id, fun h => by simp at h, fun _ => rfl, fun _ => rfl⟩

/-- One access of whatever operation the host has in progress (R57). -/
theorem accessEffect_turn (c : HostCall) (s : State) : AccessEffect c.isInit s (c.turn s).2 := by
  cases c with
  | init im pos => exact accessEffect_initTurn im pos s
  | nmi run =>
    have he := loopEffect_runTurn run s
    have hb := progEffect_runTurn run s
    unfold ProgEffect at hb
    refine ⟨?_, he.ramWf, fun h => ?_, fun _ => ⟨?_, ?_⟩, fun h => ?_, he.trace⟩ <;> simp only [HostCall.turn]
    · rw [hb]
    · rw [hb]; exact h
    · rw [hb]
    · rw [hb]
    · rw [hb]; exact h
  | keyScan m acc r =>
    simp only [HostCall.turn, keyScanTurn]
    split
    · exact ⟨rfl, id, id, fun _ => ⟨rfl, rfl⟩, id, fun _ => rfl⟩
    · exact ⟨rfl, id, id, fun _ => ⟨rfl, rfl⟩, id, fun _ => rfl⟩

/-- An operation stays of its kind while it goes on. -/
theorem turn_isInit {c c' : HostCall} {s : State} (h : (c.turn s).1 = some c') : c'.isInit = c.isInit := by
  cases c with
  | init im pos =>
    simp only [HostCall.turn, Option.map_eq_some_iff] at h
    obtain ⟨p, _, rfl⟩ := h
    rfl
  | nmi run =>
    simp only [HostCall.turn, Option.map_eq_some_iff] at h
    obtain ⟨p, _, rfl⟩ := h
    rfl
  | keyScan m acc r =>
    simp only [HostCall.turn, keyScanTurn] at h
    split at h
    · cases h; rfl
    · cases h

/-- An `INIT` that ends has set `INITED`, and `INITED` is set by nothing else (R22). -/
theorem turn_inited (c : HostCall) (s : State) :
    (c.turn s).2.inited = (s.inited || (c.isInit && (c.turn s).1.isNone)) := by
  cases c with
  | init im pos =>
    simp only [HostCall.turn, HostCall.isInit, initTurn]
    split
    · split <;> simp [State.writeRam]
    · split <;> simp [State.writeRom]
    · split <;> simp [State.writeRom]
    · simp [State.respondHost]
  | nmi run =>
    have h := ((accessEffect_turn (.nmi run) s).rom rfl).2
    rw [h]; simp [HostCall.isInit]
  | keyScan m acc r =>
    have h := ((accessEffect_turn (.keyScan m acc r) s).rom rfl).2
    rw [h]; simp [HostCall.isInit]

theorem callTurn_none {s : State} {k : Nat} (h : s.calls[k]? = none) : callTurn k s = s := by simp [callTurn, h]

theorem callTurn_some {s : State} {k : Nat} {c : HostCall} (h : s.calls[k]? = some c) :
    callTurn k s = (c.turn s).2.setCalls (replaceCall k (c.turn s).1 s.calls) := by simp [callTurn, h]

theorem countP_getElem {cs : List HostCall} {k : Nat} {c : HostCall} (h : cs[k]? = some c) :
    cs.countP HostCall.isInit = (cs.eraseIdx k).countP HostCall.isInit + c.isInit.toNat := by
  induction cs generalizing k with
  | nil => cases h
  | cons d cs ih =>
    cases k with
    | zero => cases h; simp only [List.countP_cons, List.eraseIdx_cons_zero]; cases c.isInit <;> rfl
    | succ k =>
      have h' : cs[k]? = some c := by simpa using h
      simp only [List.countP_cons, List.eraseIdx_cons_succ, ih h']; omega

theorem countP_set {cs : List HostCall} {k : Nat} {c c' : HostCall} (h : cs[k]? = some c) (hc : c'.isInit = c.isInit) :
    (cs.set k c').countP HostCall.isInit = cs.countP HostCall.isInit := by
  induction cs generalizing k with
  | nil => cases h
  | cons d cs ih =>
    cases k with
    | zero => cases h; simp only [List.set_cons_zero, List.countP_cons, hc]
    | succ k =>
      have h' : cs[k]? = some c := by simpa using h
      simp only [List.set_cons_succ, List.countP_cons, ih h']

/-- A turn of the owning thread starts no `INIT`: one that ends counts as succeeded instead. -/
theorem initCount_callTurn (k : Nat) (s : State) : (callTurn k s).initCount ≤ s.initCount := by
  cases h : s.calls[k]? with
  | none => rw [callTurn_none h]
  | some c =>
    have hi := turn_inited c s
    rw [callTurn_some h]
    unfold State.initCount
    simp only [State.setCalls_calls, State.setCalls_inited, hi]
    cases hc : (c.turn s).1 with
    | some c' =>
      simp only [replaceCall, countP_set h (turn_isInit hc), Option.isNone_some, Bool.and_false, Bool.or_false]
      exact Nat.le_refl _
    | none =>
      simp only [replaceCall, Option.isNone_none, Bool.and_true, countP_getElem h]
      cases s.inited <;> cases c.isInit <;> simp

/-- One turn of the owning thread (R57, R123). -/
theorem hostEffect_callTurn (k : Nat) (s : State) : HostEffect s (callTurn k s) := by
  cases h : s.calls[k]? with
  | none => rw [callTurn_none h]; exact .refl s
  | some c =>
    have ha := accessEffect_turn c s
    have hn := initCount_callTurn k s
    rw [callTurn_some h] at hn ⊢
    refine ⟨?_, ha.ramWf, ha.romWf, fun h1 h2 => ?_, ha.inited, ha.trace⟩
    · conv_lhs => rw [ha.frame]
      rfl
    · have hz : s.calls.countP HostCall.isInit = 0 := by
        rw [hostInInit_eq] at h1; simpa using h1
      have hc : c.isInit = false := by
        have := countP_getElem h
        cases hh : c.isInit <;> simp_all
      have hr := ha.rom hc
      refine ⟨hr.1, ?_⟩
      unfold State.initCount at hn
      simp only [State.setCalls_calls, State.setCalls_inited, hr.2, hz] at hn
      rw [hostInInit_eq, decide_eq_false_iff_not, State.setCalls_calls]
      omega

/-- An `INIT` that answers with a next state, whole (R123). -/
theorem hostEffect_execInit {s t : State} (h : execInit s = .next t) : HostEffect s t := by
  rcases onInit_next h with ⟨q, rfl⟩ | ⟨rfl, _, hi, _⟩
  · exact ⟨rfl, id, id, fun h _ => ⟨rfl, h⟩, id, fun _ => rfl⟩
  · exact ⟨rfl, fun _ => rfl, fun _ => wf_loadedRom _ _, fun _ h' => by simp [hi] at h', fun _ => rfl, fun _ => rfl⟩

/-- An `INIT` begun for others to interleave with. -/
theorem hostEffect_beginInit {s t : State} (h : beginInit s = .next t) : HostEffect s t := by
  rcases onInit_next h with ⟨q, rfl⟩ | ⟨rfl, _, hi, _⟩
  · exact ⟨rfl, id, id, fun h _ => ⟨rfl, h⟩, id, fun _ => rfl⟩
  · exact ⟨rfl, id, id, fun _ h' => by simp [hi] at h', id, fun _ => rfl⟩

/-- A whole `INIT` is one more, if it is admitted: none had succeeded. -/
theorem initCount_execInit {s t : State} (h : execInit s = .next t) :
    t.initCount = s.initCount ∨ (s.inited = false ∧ t.initCount = s.initCount + 1) := by
  rcases onInit_next h with ⟨q, rfl⟩ | ⟨rfl, _, hi, _⟩
  · exact .inl rfl
  · exact .inr ⟨hi, by simp [State.initCount, initialised, State.respondHost, hi]⟩

theorem initCount_beginInit {s t : State} (h : beginInit s = .next t) :
    t.initCount = s.initCount ∨ (s.inited = false ∧ t.initCount = s.initCount + 1) := by
  rcases onInit_next h with ⟨q, rfl⟩ | ⟨rfl, _, hi, _⟩
  · exact .inl rfl
  · exact .inr ⟨hi, by simp [State.initCount, List.countP_append, HostCall.isInit, hi]⟩

/-- A `KEY_SCAN` begun for others to interleave with writes the response and the list of what is in progress alone. -/
theorem beginKeyScan_next {m : Byte} {s t : State} (h : beginKeyScan m s = .next t) :
    t = { s with calls := t.calls, hostResp := t.hostResp }
      ∧ t.calls.countP HostCall.isInit = s.calls.countP HostCall.isInit := by
  unfold beginKeyScan State.onHost at h
  split at h
  · cases h; exact ⟨rfl, rfl⟩
  · cases h; exact ⟨rfl, by simp [List.countP_append, HostCall.isInit]⟩

theorem hostEffect_beginKeyScan {m : Byte} {s t : State} (h : beginKeyScan m s = .next t) : HostEffect s t := by
  obtain ⟨hf, hc⟩ := beginKeyScan_next h
  refine ⟨by rw [hf], fun hw => by rw [hf]; exact hw, fun hw => by rw [hf]; exact hw, fun h1 _ => ⟨by rw [hf], ?_⟩,
    fun hi => by rw [hf]; exact hi, fun _ => by rw [hf]⟩
  rw [hostInInit_eq, hc, ← hostInInit_eq]; exact h1

/-- The beginning of an `nmi` writes the positions and the draws alone. -/
theorem beginNmi_frame (s : State) :
    beginNmi s = { s with loop := (beginNmi s).loop, calls := (beginNmi s).calls, draws := (beginNmi s).draws } := by
  unfold beginNmi
  rw [beginRun_state]
  rfl

/-- The beginning of an `nmi` starts no `INIT`. -/
theorem loopEffect_beginNmi (s : State) : LoopEffect s (beginNmi s) := by
  have h := loopEffect_beginRun .nmi s
  refine h.trans ⟨rfl, id, Nat.le_refl _, fun h => ⟨Nat.le_refl _, h⟩, fun _ => rfl, ?_⟩
  change List.countP _ (_ ++ [_]) = _
  simp [List.countP_append, HostCall.isInit]

/-- An `nmi` from its beginning to its end (R122). -/
theorem loopEffect_hostNmi (s : State) : LoopEffect s (hostNmi s) :=
  (loopEffect_beginRun .nmi s).trans (loopEffect_runProg _ _)

end Sys2Proof.Machine
end

