-- ==== Sys2Proof/Laws/Step.lean ====
section
/-! SUPPORT. What a step can be about, said once: the inversion of step that every claim over all steps goes through. -/
namespace Sys2Proof.Machine

/-- A word on a port, decoded: the operation, the idle strobe, or a refused word. -/
theorem onLine_cases (src : Source) (raw : RawWord) (s : State) :
    (∃ i, decode raw = .ok i ∧ i.source = src ∧ onLine src raw s = .run i s)
      ∨ ((∃ e, decode raw = .error e) ∧ src = .control ∧ onLine src raw s = .done (.next s))
      ∨ onLine src raw s = .done (s.refuseWord src) := by
  unfold onLine
  split
  · rename_i i hd
    by_cases h : i.source = src
    · exact .inl ⟨i, hd, h, by simp [Instr.wellFormedOn, h]⟩
    · exact .inr (.inr (by simp [Instr.wellFormedOn, h]))
  · rename_i e hd
    split
    · rename_i h
      simp only [Bool.and_eq_true, beq_iff_eq] at h
      exact .inr (.inl ⟨⟨e, hd⟩, h.1, rfl⟩)
    · exact .inr (.inr rfl)

/-- A word that decodes starts an `INIT` just when it is one. -/
theorem startsInit_line {src : Source} {raw : RawWord} {i : Instr} (hd : decode raw = .ok i) (hs : i.source = src) :
    (Event.line src raw).startsInit = true ↔ i = .init := by
  simp only [Event.startsInit, isInitWord, hd, Bool.and_eq_true, beq_iff_eq]
  constructor
  · exact fun h => h.2
  · rintro rfl; exact ⟨hs.symm, rfl⟩

/-- What led to a next state: the free-running sequencer, a host that waits for its stop, an `INIT` in progress that another one
waits for, or the first event of the inbox. -/
inductive StepCase (s t : State) : Prop where
  | free (h : s.inbox = []) (e : iterate s = .next t)
  | awaitStop (h : s.waitStop = true) (e : iterate s = .next t)
  | awaitInit (h : s.hostInInit = true) (hs : s.stopped = false) (e : t = Machine.callTurn (s.calls.findIdx HostCall.isInit) s)
  | operation (src : Source) (raw : RawWord) (rest : List Event) (i : Instr) (h : s.inbox = .line src raw :: rest)
      (hd : decode raw = .ok i) (hs : i.source = src) (hb : src = .host → s.waitStop = false)
      (hn : i = .init → s.hostInInit = false ∨ s.stopped = true)
      (e : exec i (s.setInbox rest) = .next t)
  | idleStrobe (rest : List Event) (raw : RawWord) (h : s.inbox = .line .control raw :: rest) (e : t = s.setInbox rest)
  | refusedWord (src : Source) (raw : RawWord) (rest : List Event) (h : s.inbox = .line src raw :: rest)
      (hb : src = .host → s.waitStop = false) (e : (s.setInbox rest).refuseWord src = .next t)
  | images (im : Images) (rest : List Event) (h : s.inbox = .images im :: rest) (hb : s.waitStop = false)
      (e : t = (s.setInbox rest).setImages im)
  | nmi (rest : List Event) (h : s.inbox = .nmi :: rest) (hb : s.waitStop = false) (e : t = hostNmi (s.setInbox rest))
  | beginNmi (rest : List Event) (h : s.inbox = .beginNmi :: rest) (hb : s.waitStop = false)
      (e : t = Machine.beginNmi (s.setInbox rest))
  | now (x : Nat) (rest : List Event) (h : s.inbox = .now x :: rest) (e : (s.setInbox rest).presentTime x = .next t)
  | beginKeyScan (m : Byte) (rest : List Event) (h : s.inbox = .beginKeyScan m :: rest) (hb : s.waitStop = false)
      (e : Machine.beginKeyScan m (s.setInbox rest) = .next t)
  | beginInit (rest : List Event) (h : s.inbox = .beginInit :: rest) (hb : s.waitStop = false)
      (hn : s.hostInInit = false ∨ s.stopped = true)
      (e : Machine.beginInit (s.setInbox rest) = .next t)
  | loopTurn (rest : List Event) (h : s.inbox = .loopTurn :: rest) (e : Machine.loopTurn (s.setInbox rest) = .next t)
  | callTurn (k : Nat) (rest : List Event) (h : s.inbox = .callTurn k :: rest) (e : t = Machine.callTurn k (s.setInbox rest))

/-- Every step that answers a next state is one of these. -/
theorem step_cases {s t : State} (h : step s = .next t) : StepCase s t := by
  unfold step nextEvent at h
  cases hi : s.inbox with
  | nil => rw [hi] at h; exact .free hi h
  | cons ev rest =>
    rw [hi] at h
    simp only at h
    by_cases hb : (ev.byHost && s.waitStop) = true
    · rw [if_pos hb] at h
      simp only [Bool.and_eq_true] at hb
      exact .awaitStop hb.2 h
    · rw [if_neg hb] at h
      have hb' : ev.byHost = true → s.waitStop = false := fun hh => by simpa [hh] using hb
      by_cases hn : (ev.startsInit && s.hostInInit && !s.stopped) = true
      · rw [if_pos hn] at h
        simp only [Bool.and_eq_true, Bool.not_eq_true'] at hn
        cases h
        exact .awaitInit hn.1.2 hn.2 rfl
      rw [if_neg hn] at h
      have hn' : ev.startsInit = true → s.hostInInit = false ∨ s.stopped = true := fun hh => by
        cases h1 : s.hostInInit <;> cases h2 : s.stopped <;> simp_all
      cases ev with
      | line src raw =>
        have hb2 : src = .host → s.waitStop = false := fun hh => hb' (by simp [Event.byHost, hh])
        simp only [onEvent] at h
        rcases onLine_cases src raw (s.setInbox rest) with ⟨i, hd, hs, he⟩ | ⟨_, hs, he⟩ | he
        · rw [he] at h; exact .operation src raw rest i hi hd hs hb2 (fun he => hn' ((startsInit_line hd hs).2 he)) h
        · rw [he] at h; cases h; subst hs; exact .idleStrobe rest raw hi rfl
        · rw [he] at h; exact .refusedWord src raw rest hi hb2 h
      | images im => cases h; exact .images im rest hi (hb' rfl) rfl
      | nmi => cases h; exact .nmi rest hi (hb' rfl) rfl
      | beginNmi => cases h; exact .beginNmi rest hi (hb' rfl) rfl
      | now x => exact .now x rest hi h
      | beginKeyScan m => exact .beginKeyScan m rest hi (hb' rfl) h
      | beginInit => exact .beginInit rest hi (hb' rfl) (hn' rfl) h
      | loopTurn => exact .loopTurn rest hi h
      | callTurn k => cases h; exact .callTurn k rest hi rfl

/-- A refused word on a command port writes that port's response alone; elsewhere it has no next state (R77). -/
theorem refuseWord_next {s t : State} {src : Source} (h : s.refuseWord src = .next t) :
    ∃ q, (src = .engine ∧ t = s.respondEngine q) ∨ (src = .host ∧ t = s.respondHost q) := by
  cases src
  · exact ⟨_, .inl ⟨rfl, (Host.Outcome.next.inj h).symm⟩⟩
  · exact ⟨_, .inr ⟨rfl, (Host.Outcome.next.inj h).symm⟩⟩
  · cases h
  · cases h

/-- A host command that answers with a next state: refused after `STOPPED = 1`, or its own effect (R143). -/
theorem onHost_next {s t : State} {k : Host.Outcome State Fault Refusal} (h : s.onHost k = .next t) :
    (s.stopped = true ∧ t = s.respondHost afterStop) ∨ (s.stopped = false ∧ k = .next t) := by
  unfold State.onHost at h
  split at h
  · rename_i hs; exact .inl ⟨hs, (Host.Outcome.next.inj h).symm⟩
  · rename_i hs; exact .inr ⟨by simpa using hs, h⟩

/-- A strobe that answers with a next state: none after `STOPPED = 1`, or its own effect with no other active (R75, R143). -/
theorem onControl_next {s t : State} {k : Host.Outcome State Fault Refusal} (h : s.onControl k = .next t) :
    (s.stopped = true ∧ t = s) ∨ (s.stopped = false ∧ s.strobeActive = false ∧ k = .next t) := by
  unfold State.onControl at h
  split at h
  · rename_i hs; exact .inl ⟨hs, (Host.Outcome.next.inj h).symm⟩
  · rename_i hs
    split at h
    · cases h
    · rename_i ha; exact .inr ⟨by simpa using hs, by simpa using ha, h⟩

/-- A time shown that is not before the last sample writes the time input alone (R21). -/
theorem presentTime_next {s t : State} {x : Nat} (h : s.presentTime x = .next t) :
    s.clock ≤ x ∧ t = s.setTimeIn (some (x - s.clock)) := by
  unfold State.presentTime at h
  split at h
  · rename_i hx; exact ⟨hx, (Host.Outcome.next.inj h).symm⟩
  · cases h

end Sys2Proof.Machine
end

