-- ==== Sys2Proof/Laws/Port.lean ====
section
/-! SUPPORT. The engine-control port's protocol (spec/30_encoding.md R75) and the sequencer's position, kept by each piece of the
loop thread's work. -/
namespace Sys2Proof.Machine

theorem portState_append (h : List Strobe) (c : Strobe) : portState (h ++ [c]) = portNext (portState h) c := by
  simp only [portState, List.foldl_append, List.foldl_cons, List.foldl_nil]

/-- A strobe shown on an idle port becomes the active one. -/
theorem portState_show {h : List Strobe} (hi : portState h = some none) {op : EngineOp} (hop : op ≠ .nmi) :
    portState (h ++ [strobeCode op]) = some (some (strobeCode op)) := by
  rw [portState_append, hi]
  cases op <;> first | rfl | exact absurd rfl hop

/-- Idle after an active strobe. -/
theorem portState_idle {h : List Strobe} {c : Strobe} (ha : portState h = some (some c)) : portState (h ++ [0]) = some none := by
  rw [portState_append, ha]; rfl

/-- A whole strobe leaves an idle port idle. -/
theorem portState_strobe {h : List Strobe} (hi : portState h = some none) {op : EngineOp} (hop : op ≠ .nmi) :
    portState (h ++ [strobeCode op, 0]) = some none := by
  have : h ++ [strobeCode op, 0] = (h ++ [strobeCode op]) ++ [0] := by simp
  rw [this]
  exact portState_idle (portState_show hi hop)

theorem strobe_control (op : EngineOp) (s : State) : (strobe op s).control = s.control ++ [strobeCode op, 0] := by
  rw [strobe_eq]

theorem strobe_loop (op : EngineOp) (s : State) :
    (strobe op s).loop = if s.engineBusy then s.loop.disturbed (s.draws + 1) else s.loop := by
  rw [strobe_eq]

theorem strobe_calls (op : EngineOp) (s : State) :
    (strobe op s).calls = if s.engineBusy then disturbCalls (s.draws + 2) s.calls else s.calls := by
  rw [strobe_eq]

/-- The port is idle. -/
def State.PortIdle (s : State) : Prop := portState s.control = some none

theorem portIdle_strobe {op : EngineOp} {s : State} (h : s.PortIdle) (hop : op ≠ .nmi) : (strobe op s).PortIdle := by
  unfold State.PortIdle
  rw [strobe_control]
  exact portState_strobe h hop

theorem portIdle_sampleNow {s : State} (h : s.PortIdle) : s.sampleNow.2.PortIdle := by
  unfold State.PortIdle
  rw [sampleNow_frame]
  exact h

theorem portIdle_pollNow {s : State} (h : s.PortIdle) : (pollNow s).PortIdle := by
  unfold pollNow timerPoll requestIrq
  split
  · split
    · exact portIdle_strobe (portIdle_sampleNow h) (by decide)
    · exact portIdle_sampleNow h
  · exact portIdle_sampleNow h

theorem portIdle_stepEngine {s : State} (h : s.PortIdle) : (stepEngine s).PortIdle := by
  refine portIdle_strobe ?_ (by decide)
  unfold State.PortIdle
  rw [State.traceRec_eq]
  exact h

theorem portIdle_iterFromA6 {s : State} (h : s.PortIdle) : (iterFromA6 s).PortIdle := by
  unfold iterFromA6
  split
  · exact portIdle_sampleNow h
  · split
    · exact portIdle_pollNow h
    · exact h

theorem iterFromA6_loop (s : State) : (iterFromA6 s).loop = .top := by
  unfold iterFromA6 iterFromReload iterFromPoll endIteration
  split
  · rfl
  · split <;> rfl

theorem portIdle_iterAfter {op : EngineOp} {s : State} (h : s.PortIdle) : (iterAfter op s).PortIdle := by
  cases op
  · exact portIdle_pollNow h
  · exact portIdle_iterFromA6 (s := s.setReset false) h
  · exact h
  · exact h

theorem iterAfter_loop (op : EngineOp) (s : State) : (iterAfter op s).loop = .top := by
  cases op
  · rfl
  · exact iterFromA6_loop _
  · rfl
  · rfl

/-- An iteration ends with the sequencer at its first action and the port idle (R75, R135). -/
theorem iterate_end {s t : State} (hs : s.stopped = false) (hp : portState s.control = some s.loop.activeStrobe)
    (hn : s.loop.noNmi) (h : iterate s = .next t) : t.loop = .top ∧ t.PortIdle := by
  have idle : s.loop.activeStrobe = none → s.PortIdle := fun ha => by rw [State.PortIdle, hp, ha]
  have a8 : ∀ {u : State}, u.PortIdle → iterFromA8 u = .next t → t.loop = .top ∧ t.PortIdle := by
    intro u hu h
    unfold iterFromA8 at h
    split at h
    · cases h
    · cases h; exact ⟨rfl, portIdle_pollNow (portIdle_stepEngine hu)⟩
  have a7 : ∀ {u : State}, u.PortIdle → iterFromA7 u = .next t → t.loop = .top ∧ t.PortIdle := by
    intro u hu h
    unfold iterFromA7 at h
    split at h
    · cases h; exact ⟨rfl, portIdle_sampleNow hu⟩
    · exact a8 hu h
  have a4 : ∀ {u : State}, u.PortIdle → (iterFromA4 u).loop = .top ∧ (iterFromA4 u).PortIdle := fun {u} hu =>
    ⟨iterFromA6_loop _, portIdle_iterFromA6 (s := (strobe .reset u).setReset false) (portIdle_strobe hu (by decide))⟩
  have a2 : ∀ {u : State}, u.PortIdle → iterFromA2 u = .next t → t.loop = .top ∧ t.PortIdle := by
    intro u hu h
    unfold iterFromA2 at h
    split at h
    · cases h; exact a4 (u := (u.setDraws (u.draws + 1)).setRam Memory.zero) hu
    · exact a7 hu h
  have stop : s.PortIdle → s.stopNow.loop = .top ∧ s.stopNow.PortIdle := fun hu => by
    rw [State.stopNow_eq]; exact ⟨rfl, hu⟩
  unfold iterate at h
  rw [if_neg (by simp [hs])] at h
  split at h <;> rename_i hl
  · have hi := idle (by rw [hl]; rfl)
    unfold iterFromA1 at h
    split at h
    · cases h; exact stop hi
    · exact a2 hi h
  · cases h; exact stop (idle (by rw [hl]; rfl))
  · exact a2 (idle (by rw [hl]; rfl)) h
  · cases h; exact a4 (u := s.setRam _) (idle (by rw [hl]; rfl))
  · have hi := idle (by rw [hl]; rfl)
    rw [hl] at hn
    unfold iterFromStart at h
    split at h
    · cases h
    · cases h; exact ⟨iterAfter_loop _ _, portIdle_iterAfter (portIdle_strobe hi hn)⟩
  · rename_i run
    cases h
    refine ⟨iterAfter_loop _ _, portIdle_iterAfter ?_⟩
    have hc : (finishRun run s).control = s.control := by
      rw [finishRun, progEffect_runProg]
      unfold finishTransaction
      split
      · rfl
      · rw [State.finishBus_eq]; rfl
      · rw [State.finishBus_eq]; rfl
    have hg : (((finishRun run s).setLoop .top).showControl 0).control = s.control ++ [0] := by
      rw [← hc]; rfl
    unfold State.PortIdle
    rw [hg]
    exact portState_idle (c := strobeCode run.op) (by rw [hp, hl]; rfl)
  · cases h; exact ⟨iterFromA6_loop _, portIdle_iterFromA6 (s := s.setReset false) (idle (by rw [hl]; rfl))⟩
  · cases h; exact ⟨iterFromA6_loop _, portIdle_iterFromA6 (idle (by rw [hl]; rfl))⟩
  · cases h; exact ⟨rfl, portIdle_sampleNow (idle (by rw [hl]; rfl))⟩
  · exact a7 (idle (by rw [hl]; rfl)) h
  · exact a8 (idle (by rw [hl]; rfl)) h
  · cases h; exact ⟨rfl, portIdle_pollNow (idle (by rw [hl]; rfl))⟩
  · cases h
    refine ⟨rfl, ?_⟩
    have hi := idle (by rw [hl]; rfl)
    unfold requestIrq
    split
    · exact portIdle_strobe (s := s) hi (by decide)
    · exact hi

/-- One turn of the loop thread keeps the port's protocol and never makes the sequencer invoke `nmi` (R75, R140). -/
theorem port_loopTurn {s t : State} (hp : portState s.control = some s.loop.activeStrobe) (hn : s.loop.noNmi)
    (h : loopTurn s = .next t) : portState t.control = some t.loop.activeStrobe ∧ t.loop.noNmi := by
  unfold loopTurn at h
  split at h
  · cases h; exact ⟨hp, hn⟩
  split at h <;> rename_i hl <;> rw [hl] at hp hn
  · cases h; cases s.fQuit <;> exact ⟨hp, trivial⟩
  · cases h; rw [State.stopNow_eq]; exact ⟨hp, trivial⟩
  · cases h
    split
    · exact ⟨hp, trivial⟩
    · exact ⟨hp, trivial⟩
  · cases h
    split
    · exact ⟨hp, trivial⟩
    · exact ⟨hp, by simp [LoopPos.noNmi]⟩
  · rename_i op
    unfold startTurn at h
    split at h
    · cases h
    · cases h
      have hb : (beginRun op (s.showControl (strobeCode op))).1.op = op := by unfold beginRun; split <;> rfl
      refine ⟨?_, ?_⟩
      · simp only [State.setLoop_control, State.setLoop_loop, LoopPos.activeStrobe, hb, beginRun_state]
        exact portState_show hp hn
      · simp only [State.setLoop_loop, LoopPos.noNmi, hb]; exact hn
  · rename_i run
    cases h
    have hc := progEffect_runTurn run s
    unfold engineTurn
    split
    · rename_i run' s' hr
      have ho := runTurn_op (run := run) (run' := run') (s := s) (by rw [hr])
      rw [hr] at hc
      change ProgEffect s s' at hc
      unfold ProgEffect at hc
      refine ⟨?_, ?_⟩
      · rw [State.setLoop_control, hc, State.setLoop_loop]
        simp only [LoopPos.activeStrobe, ho]
        exact hp
      · simp only [State.setLoop_loop, LoopPos.noNmi, ho]; exact hn
    · rename_i s' hr
      rw [hr] at hc
      change ProgEffect s s' at hc
      unfold ProgEffect at hc
      refine ⟨?_, ?_⟩
      · have hg : ((s'.showControl 0).setLoop (posAfter run.op)).control = s.control ++ [0] := by rw [hc]; rfl
        have ha : ((s'.showControl 0).setLoop (posAfter run.op)).loop.activeStrobe = none := by
          rw [State.setLoop_loop]; cases run.op <;> rfl
        rw [hg, ha]
        exact portState_idle hp
      · rw [State.setLoop_loop]; cases run.op <;> trivial
  · cases h; exact ⟨hp, trivial⟩
  · cases h
    split
    · exact ⟨hp, trivial⟩
    · split
      · exact ⟨hp, trivial⟩
      · exact ⟨hp, trivial⟩
  · cases h
    refine ⟨?_, trivial⟩
    have hc : (iterFromReload s).control = s.control := by
      unfold iterFromReload endIteration reloadNow; rw [sampleNow_frame]; rfl
    rw [hc]; exact hp
  · cases h; cases s.fPaused <;> exact ⟨hp, trivial⟩
  · cases h
    rw [State.traceRec_eq]
    exact ⟨hp, by simp [LoopPos.noNmi]⟩
  · cases h
    unfold pollTurn
    split
    · exact ⟨by rw [State.setLoop_control, State.setLft_control, sampleNow_frame]; exact hp, trivial⟩
    · exact ⟨by rw [State.setLoop_control, sampleNow_frame]; exact hp, trivial⟩
  · cases h
    rw [State.setLoop_control, State.setLoop_loop]
    split
    · exact ⟨hp, by simp [LoopPos.noNmi]⟩
    · exact ⟨hp, trivial⟩

end Sys2Proof.Machine
end

