-- ==== Sys2Proof/Laws/Interleave.lean ====
section
/-! SUPPORT. Turns taken with nothing in between: those of an engine operation reach its end, on whichever thread; those of the loop
thread reach what the whole pieces of an iteration answer, and no whole piece looks at the sequencer's position. -/
namespace Sys2Proof.Machine

/-- What is left after some answers, and then more. -/
theorem remaining_append (p : EngineProg) (as bs : List Byte) : remaining p (as ++ bs) = remaining (remaining p as) bs := by
  induction as generalizing p with
  | nil => cases p <;> rfl
  | cons a as ih =>
    cases p with
    | ret e => simp only [List.cons_append, remaining]; cases bs <;> rfl
    | read _ k => simp only [List.cons_append, remaining, ih]
    | write _ _ k => simp only [List.cons_append, remaining, ih]

theorem remaining_nil (p : EngineProg) : remaining p [] = p := by cases p <;> rfl

theorem busRead_setLoop (a : Addr) (s : State) (l : LoopPos) :
    busRead a (s.setLoop l) = ((busRead a s).1, (busRead a s).2.setLoop l) := by
  cases hs : s.stopped with
  | true => rw [busRead_stopped a hs, busRead_stopped a (by exact hs)]; rfl
  | false =>
    by_cases hr : region s.cfg.params a = .keyboard
    · rw [busRead_keyboard hs hr, busRead_keyboard (s := s.setLoop l) hs hr]; simp only [State.finishBus_eq]; rfl
    · rw [busRead_array hs hr, busRead_array (s := s.setLoop l) hs hr]
      simp only [State.finishBus_eq]
      have hc : (s.setLoop l).cfg = s.cfg := rfl
      rw [hc]
      cases region s.cfg.params a <;> rfl

theorem busWrite_setLoop (a : Addr) (v : Byte) (s : State) (l : LoopPos) :
    busWrite a v (s.setLoop l) = (busWrite a v s).setLoop l := by
  cases hs : s.stopped with
  | true => rw [busWrite_stopped a v hs, busWrite_stopped a v (by exact hs)]; rfl
  | false => rw [busWrite_eq hs, busWrite_eq (s := s.setLoop l) hs]; simp only [State.finishBus_eq]; rfl

/-- An engine program does not look at the sequencer's position. -/
theorem runProg_setLoop (p : EngineProg) (s : State) (l : LoopPos) : runProg p (s.setLoop l) = (runProg p s).setLoop l := by
  induction p generalizing s with
  | ret e => rfl
  | read a k ih => simp only [runProg]; rw [busRead_setLoop]; exact ih _ _
  | write a v k ih => simp only [runProg]; rw [busWrite_setLoop]; exact ih _

/-- The loop thread alone gets from one state to the other. -/
def LoopReaches (s t : State) : Prop := ∃ n, loopTurns n s = .next t

theorem LoopReaches.refl (s : State) : LoopReaches s s := ⟨0, rfl⟩

theorem LoopReaches.step {s u t : State} (h : loopTurn s = .next u) (hr : LoopReaches u t) : LoopReaches s t := by
  obtain ⟨n, hn⟩ := hr
  exact ⟨n + 1, by simp only [loopTurns, h, hn]⟩

theorem LoopReaches.trans {s u t : State} (h1 : LoopReaches s u) (h2 : LoopReaches u t) : LoopReaches s t := by
  obtain ⟨n, hn⟩ := h1
  induction n generalizing s with
  | zero => cases hn; exact h2
  | succ n ih =>
    simp only [loopTurns] at hn
    split at hn
    · rename_i s' hs'; exact LoopReaches.step hs' (ih hn)
    · cases hn
    · cases hn

/-! ### An engine operation, access by access, on whichever thread -/

/-- The accesses of an operation with nothing in between take it to its end and the state to `t`. -/
inductive RunReaches : EngineRun → State → State → Prop where
  | done {run : EngineRun} {s t : State} (h : runTurn run s = (none, t)) : RunReaches run s t
  | step {run run' : EngineRun} {s s' t : State} (h : runTurn run s = (some run', s')) (hr : RunReaches run' s' t) :
      RunReaches run s t

/-- The row reads left of a keyboard-port read, then its mirror store (R57, R87). -/
theorem runReaches_scan {run : EngineRun} {s t : State} {m acc : Byte} {r : Nat} (hb : run.bus = .scan m acc r)
    (h : RunReaches
      { run with
        bus := .emit (.read s.cfg.params.kbdDataAddr (scanRows s.km m (8 - r) r acc)) (scanRows s.km m (8 - r) r acc) }
      (s.writeRam s.cfg.params.kbdDataAddr (scanRows s.km m (8 - r) r acc)) t) : RunReaches run s t := by
  induction hn : 8 - r generalizing run acc r with
  | zero =>
    have hr : ¬ r < 8 := by omega
    rw [hn] at h
    exact .step (by simp only [runTurn, hb, if_neg hr]; rfl) h
  | succ n ih =>
    have hr : r < 8 := by omega
    have hn' : 8 - (r + 1) = n := by omega
    rw [hn] at h
    refine .step (by simp only [runTurn, hb, if_pos hr])
      (ih (run := { run with bus := .scan m (scanRow s.km m acc r) (r + 1) }) rfl ?_ hn')
    rw [hn']
    exact h

/-- The transaction an operation is in, to its end (R57). -/
theorem runReaches_transaction {run : EngineRun} {s t : State}
    (h : RunReaches { run with answers := (finishTransaction run s).1, bus := .idle } (finishTransaction run s).2 t) :
    RunReaches run s t := by
  unfold finishTransaction at h
  split at h
  · rename_i hb
    have : { run with answers := run.answers, bus := .idle } = run := by cases run; simp_all
    rwa [this] at h
  · rename_i m acc r hb
    refine runReaches_scan hb (.step (by simp only [runTurn]) h)
  · rename_i rec v hb
    exact .step (by simp only [runTurn, hb]) h

/-- The transactions left of an operation, access by access (R55, R57). -/
theorem runReaches_prog (p : EngineProg) : ∀ (s : State) (run : EngineRun), run.bus = .idle →
    remaining (engineProg s.cfg.engine run.prog) run.answers = p → RunReaches run s (runProg p s) := by
  induction p with
  | ret e =>
    intro s run hb hp
    exact .done (by simp only [runTurn, hb, hp]; rfl)
  | write a v k ih =>
    intro s run hb hp
    have hcf : (busWrite a v s).cfg = s.cfg := by rw [busEffect_busWrite]
    have next : ∀ b, RunReaches { run with answers := run.answers ++ [b], bus := .idle } (busWrite a v s)
        (runProg k (busWrite a v s)) := fun b =>
      ih _ _ rfl (by simp only [hcf, remaining_append, hp, remaining, remaining_nil])
    cases hs : s.stopped with
    | true =>
      refine .step (run' := { run with answers := run.answers ++ [0xFF], bus := .idle }) ?_ (next _)
      rw [busWrite_stopped a v hs]
      simp only [runTurn, hb, hp, beginWrite, hs, if_true]
    | false =>
      refine .step (run' := { run with bus := .emit (.write a v) 0 }) (s' := s.writeRam a v)
        (by simp only [runTurn, hb, hp, beginWrite, hs]; rfl) (runReaches_transaction ?_)
      have e : (finishTransaction { run with bus := .emit (.write a v) 0 } (s.writeRam a v)).2 = busWrite a v s := by
        rw [busWrite_eq hs]; rfl
      rw [e]
      exact next _
  | read a k ih =>
    intro s run hb hp
    have hcf : (busRead a s).2.cfg = s.cfg := by rw [busEffect_busRead]
    have next : RunReaches { run with answers := run.answers ++ [(busRead a s).1], bus := .idle } (busRead a s).2
        (runProg (k (busRead a s).1) (busRead a s).2) :=
      ih _ _ _ rfl (by simp only [hcf, remaining_append, hp, remaining, remaining_nil])
    cases hs : s.stopped with
    | true =>
      refine .step (run' := { run with answers := run.answers ++ [(busRead a s).1], bus := .idle })
        (s' := (busRead a s).2) ?_ next
      rw [busRead_stopped a hs]
      simp only [runTurn, hb, hp, beginRead, hs, if_true]
    | false =>
      have key : ∀ bus, finishTransaction { run with bus := bus } s = (run.answers ++ [(busRead a s).1], (busRead a s).2) →
          RunReaches { run with bus := bus } s (runProg (.read a k) s) := by
        intro bus hf
        refine runReaches_transaction ?_
        rw [hf]
        exact next
      cases hr : region s.cfg.params a with
      | keyboard =>
        have ha : a = s.cfg.params.kbdDataAddr := by
          unfold region at hr; by_contra hne; rw [if_neg hne] at hr; (repeat' split at hr) <;> cases hr
        refine .step (by simp only [runTurn, hb, hp, beginRead, hs, hr]; rfl) (key _ ?_)
        rw [busRead_keyboard hs hr, ha]; rfl
      | basic =>
        refine .step (by simp only [runTurn, hb, hp, beginRead, hs, hr]; rfl) (key _ ?_)
        rw [busRead_array hs (by rw [hr]; decide), hr]; rfl
      | kernel =>
        refine .step (by simp only [runTurn, hb, hp, beginRead, hs, hr]; rfl) (key _ ?_)
        rw [busRead_array hs (by rw [hr]; decide), hr]; rfl
      | ram =>
        refine .step (by simp only [runTurn, hb, hp, beginRead, hs, hr]; rfl) (key _ ?_)
        rw [busRead_array hs (by rw [hr]; decide), hr]; rfl

/-- An operation in progress, access by access, to its end (R57). -/
theorem runReaches_finishRun (run : EngineRun) (s : State) : RunReaches run s (finishRun run s) := by
  have h := (loopEffect_finishTransaction run s).frame
  have hc : (finishTransaction run s).2.cfg = s.cfg := by rw [h]
  refine runReaches_transaction (runReaches_prog _ _ _ rfl ?_)
  rw [hc]

/-- An operation's accesses do not look at the sequencer's position. -/
theorem runTurn_setLoop (run : EngineRun) (s : State) (l : LoopPos) :
    runTurn run (s.setLoop l) = ((runTurn run s).1, (runTurn run s).2.setLoop l) := by
  cases hb : run.bus with
  | idle =>
    simp only [runTurn, hb, State.setLoop_cfg]
    split
    · rfl
    · rename_i a k _
      by_cases hs : s.stopped = true
      · simp only [beginRead, State.setLoop_stopped, hs, if_true]; rfl
      · simp only [beginRead, State.setLoop_stopped, State.setLoop_cfg, hs]
        cases region s.cfg.params a <;> rfl
    · by_cases hs : s.stopped = true
      · simp only [beginWrite, State.setLoop_stopped, hs, if_true]; rfl
      · simp only [beginWrite, State.setLoop_stopped, hs]; rfl
  | scan m acc r => simp only [runTurn, hb]; split <;> rfl
  | emit rec v => simp only [runTurn, hb, State.finishBus_eq]; rfl

/-- Nor at what the host has in progress. -/
theorem runTurn_setCalls (run : EngineRun) (s : State) (cs : List HostCall) :
    runTurn run (s.setCalls cs) = ((runTurn run s).1, (runTurn run s).2.setCalls cs) := by
  cases hb : run.bus with
  | idle =>
    simp only [runTurn, hb, State.setCalls_cfg]
    split
    · rfl
    · rename_i a k _
      by_cases hs : s.stopped = true
      · simp only [beginRead, State.setCalls_stopped, hs, if_true]; rfl
      · simp only [beginRead, State.setCalls_stopped, State.setCalls_cfg, hs]
        cases region s.cfg.params a <;> rfl
    · by_cases hs : s.stopped = true
      · simp only [beginWrite, State.setCalls_stopped, hs, if_true]; rfl
      · simp only [beginWrite, State.setCalls_stopped, hs]; rfl
  | scan m acc r => simp only [runTurn, hb]; split <;> rfl
  | emit rec v => simp only [runTurn, hb, State.finishBus_eq]; rfl

/-! ### The loop thread inside an engine operation -/

theorem loopTurn_engine {s : State} {run : EngineRun} (hs : s.stopped = false) (hl : s.loop = .inEngine run) :
    loopTurn s = .next (engineTurn run s) := by
  simp [loopTurn, hs, hl]

/-- The loop thread takes its operation's accesses, then ends the strobe (R75). -/
theorem reach_of_run {run : EngineRun} {s t : State} (h : RunReaches run s t) (hs : s.stopped = false) :
    LoopReaches (s.setLoop (.inEngine run)) ((t.showControl 0).setLoop (posAfter run.op)) := by
  induction h with
  | done h =>
    rename_i run s t
    refine LoopReaches.step (loopTurn_engine (run := run) hs rfl) ?_
    unfold engineTurn
    rw [runTurn_setLoop, h]
    exact LoopReaches.refl _
  | step h hr ih =>
    rename_i run run' s s' t
    have hs' : s'.stopped = false := by
      have := progEffect_runTurn run s
      rw [h] at this
      change ProgEffect s s' at this
      unfold ProgEffect at this
      rw [this]; exact hs
    refine LoopReaches.step (loopTurn_engine (run := run) hs rfl) ?_
    have ho : run'.op = run.op := runTurn_op (run := run) (s := s) (by rw [h])
    unfold engineTurn
    rw [runTurn_setLoop, h, ← ho]
    exact ih hs'

/-- An operation in progress, access by access, to the end of its strobe. -/
theorem reach_run (s : State) (run : EngineRun) (hs : s.stopped = false) (hl : s.loop = .inEngine run) :
    LoopReaches s (((finishRun run s).showControl 0).setLoop (posAfter run.op)) := by
  have := reach_of_run (runReaches_finishRun run s) hs
  rw [← hl] at this
  exact this

theorem beginRun_setLoop (op : EngineOp) (s : State) (l : LoopPos) (h1 : ∀ r, s.loop ≠ .inEngine r)
    (h2 : ∀ r, l ≠ .inEngine r) :
    beginRun op (s.setLoop l) = ((beginRun op s).1, (beginRun op s).2.setLoop l) := by
  have hb : (s.setLoop l).engineBusy = s.engineBusy := by
    have e1 : s.strobeActive = false := by
      unfold State.strobeActive; cases hl : s.loop <;> first | rfl | exact absurd hl (h1 _)
    have e2 : (s.setLoop l).strobeActive = false := by
      unfold State.strobeActive; rw [State.setLoop_loop]; cases l <;> first | rfl | exact absurd rfl (h2 _)
    rw [State.engineBusy, State.engineBusy, e1, e2]; rfl
  unfold beginRun
  rw [hb]
  split
  · have : (s.setLoop l).loop.disturbed ((s.setLoop l).draws + 1) = l := by
      simp only [State.setLoop_loop]
      cases l <;> first | rfl | exact absurd rfl (h2 _)
    rw [this]; rfl
  · rfl

theorem strobe_setLoop (op : EngineOp) (s : State) (l : LoopPos) (h1 : ∀ r, s.loop ≠ .inEngine r)
    (h2 : ∀ r, l ≠ .inEngine r) :
    strobe op (s.setLoop l) = (strobe op s).setLoop l := by
  have e : (s.setLoop l).showControl (strobeCode op) = (s.showControl (strobeCode op)).setLoop l := rfl
  unfold strobe runWhole
  rw [e, beginRun_setLoop op (s.showControl (strobeCode op)) l h1 h2]
  simp only [State.setLoop_cfg]
  rw [runProg_setLoop]; rfl

/-- A strobe, access by access: what it does whole (R75). -/
theorem reach_strobe (op : EngineOp) (s : State) (hs : s.stopped = false) (hl : s.loop = .start op) (hi :
    ((op == .step) && s.hostInInit) = false) :
    LoopReaches s ((strobe op s).setLoop (posAfter op)) := by
  set u := (beginRun op (s.showControl (strobeCode op))) with hu
  have h0 : loopTurn s = .next (u.2.setLoop (.inEngine u.1)) := by
    simp [loopTurn, hs, hl, startTurn, hi, ← hu]
  refine LoopReaches.step h0 ?_
  have h1 := (loopEffect_beginRun op (s.showControl (strobeCode op))).frame
  rw [← hu] at h1
  have e := reach_run (u.2.setLoop (.inEngine u.1)) u.1 (by rw [State.setLoop_stopped, h1]; exact hs) rfl
  have hb : u.1.bus = .idle ∧ u.1.op = op ∧ u.1.answers = [] := by rw [hu]; unfold beginRun; split <;> exact ⟨rfl, rfl, rfl⟩
  simp only [finishRun, finishTransaction, hb] at e
  rw [runProg_setLoop] at e
  have hcf : u.2.cfg = s.cfg := by rw [h1]; rfl
  simp only [State.setLoop_cfg, hcf, remaining_nil] at e
  have : strobe op s = (runProg (engineProg s.cfg.engine u.1.prog) u.2).showControl 0 := by rfl
  rw [this]
  exact e

/-- The end of a poll that found the timer due (R112). -/
theorem reach_gate (s : State) (hs : s.stopped = false) (hl : s.loop = .gate) :
    LoopReaches s (endIteration (requestIrq s)) := by
  cases hg : s.gateOpen
  · have : endIteration (requestIrq s) = s.setLoop .top := by simp [requestIrq, hg, endIteration]
    rw [this]
    exact LoopReaches.step (u := s.setLoop .top) (by simp [loopTurn, hs, hl, hg]) (LoopReaches.refl _)
  · refine LoopReaches.step (u := s.setLoop (.start .irq)) (by simp [loopTurn, hs, hl, hg]) ?_
    have := reach_strobe .irq (s.setLoop (.start .irq)) hs rfl rfl
    rw [strobe_setLoop _ _ _ (by rw [hl]; intro r; simp) (by intro r; simp)] at this
    have e : endIteration (requestIrq s) = ((strobe .irq s).setLoop (.start .irq)).setLoop
        (posAfter .irq) := by simp [requestIrq, hg, endIteration]; rfl
    rw [e]; exact this

theorem sampleNow_setLoop (s : State) (l : LoopPos) : (s.setLoop l).sampleNow = (s.sampleNow.1, s.sampleNow.2.setLoop l) := by
  unfold State.sampleNow
  simp only [State.setLoop_timeIn]
  cases s.timeIn <;> rfl

theorem requestIrq_setLoop (s : State) (l : LoopPos) (h1 : ∀ r, s.loop ≠ .inEngine r) (h2 : ∀ r, l ≠ .inEngine r) :
    requestIrq (s.setLoop l) = (requestIrq s).setLoop l := by
  unfold requestIrq
  have : (s.setLoop l).gateOpen = s.gateOpen := rfl
  rw [this]; split
  · exact strobe_setLoop _ _ _ h1 h2
  · rfl

/-- The rest of an iteration does not look at the sequencer's position, provided no strobe is active. -/
theorem iterFromPoll_setLoop (s : State) (l : LoopPos) (h1 : ∀ r, s.loop ≠ .inEngine r) (h2 : ∀ r, l ≠ .inEngine r) :
    iterFromPoll (s.setLoop l) = iterFromPoll s := by
  unfold iterFromPoll pollNow timerPoll
  rw [sampleNow_setLoop]
  have : (s.sampleNow.2.setLoop l).timerDue s.sampleNow.1 = s.sampleNow.2.timerDue s.sampleNow.1 := rfl
  simp only
  rw [this]
  split
  · have e : (s.sampleNow.2.setLoop l).setLft s.sampleNow.1 = (s.sampleNow.2.setLft s.sampleNow.1).setLoop l := rfl
    rw [e, requestIrq_setLoop _ _ (by rw [State.setLft_loop, sampleNow_frame]; exact h1) h2]; rfl
  · rfl

/-- A poll, then the end of the iteration (R111). -/
theorem reach_poll (s : State) (hs : s.stopped = false) (hl : s.loop = .poll) : LoopReaches s (iterFromPoll s) := by
  refine LoopReaches.step (u := pollTurn s) (by simp [loopTurn, hs, hl]) ?_
  unfold pollTurn iterFromPoll pollNow timerPoll
  split
  · have e := reach_gate ((s.sampleNow.2.setLft s.sampleNow.1).setLoop .gate) (by rw [sampleNow_frame]; exact hs) rfl
    rw [requestIrq_setLoop _ _ (by rw [State.setLft_loop, sampleNow_frame, hl]; intro r; simp) (by intro r; simp)] at e
    exact e
  · exact LoopReaches.refl _

theorem reach_reload (s : State) (hs : s.stopped = false) (hl : s.loop = .reload) : LoopReaches s (iterFromReload s) :=
  LoopReaches.step (by simp [loopTurn, hs, hl]) (LoopReaches.refl _)

theorem iterFromReload_setLoop (s : State) (l : LoopPos) : iterFromReload (s.setLoop l) = iterFromReload s := by
  unfold iterFromReload reloadNow; rw [sampleNow_setLoop]; rfl

theorem reach_a6 (s : State) (hs : s.stopped = false) (hl : s.loop = .a6) : LoopReaches s (iterFromA6 s) := by
  refine LoopReaches.step (by simp only [loopTurn, hs, hl]; rfl) ?_
  unfold iterFromA6
  split
  · have := reach_reload (s.setLoop .reload) hs rfl; rw [iterFromReload_setLoop] at this; exact this
  · split
    · have := reach_poll (s.setLoop .poll) hs rfl; rw [iterFromPoll_setLoop _ _ (by rw [hl]; intro r; simp)
          (by intro r; simp)] at this; exact this
    · exact LoopReaches.refl _

theorem iterFromA6_setLoop (s : State) (l : LoopPos) (h1 : ∀ r, s.loop ≠ .inEngine r) (h2 : ∀ r, l ≠ .inEngine r) :
    iterFromA6 (s.setLoop l) = iterFromA6 s := by
  unfold iterFromA6; simp only [State.setLoop_fPaused, State.setLoop_cfg, iterFromReload_setLoop, iterFromPoll_setLoop s l h1
      h2]; rfl

theorem reach_a5 (s : State) (hs : s.stopped = false) (hl : s.loop = .a5) : LoopReaches s (iterFromA5 s) := by
  refine LoopReaches.step (by simp only [loopTurn, hs, hl]; rfl) ?_
  have := reach_a6 ((s.setReset false).setLoop .a6) hs rfl
  rw [iterFromA6_setLoop _ _ (by rw [State.setReset_loop, hl]; intro r; simp) (by intro r; simp)] at this; exact this

theorem strobe_stopped (op) (s : State) : (strobe op s).stopped = s.stopped := by rw [strobe_eq]
theorem strobe_notEngine (op) (s : State) (h : ∀ r, s.loop ≠ .inEngine r) : ∀ r, (strobe op s).loop ≠ .inEngine r := by
  rw [strobe_loop]; split
  · cases hl : s.loop <;> first | (intro r; simp [LoopPos.disturbed]; done) | exact absurd hl (h _)
  · exact h

theorem iterFromA5_setLoop (s : State) (l : LoopPos) (h1 : ∀ r, s.loop ≠ .inEngine r) (h2 : ∀ r, l ≠ .inEngine r) :
    iterFromA5 (s.setLoop l) = iterFromA5 s :=
  iterFromA6_setLoop (s.setReset false) l h1 h2

theorem iterFromA4_setLoop (s : State) (l : LoopPos) (h1 : ∀ r, s.loop ≠ .inEngine r) (h2 : ∀ r, l ≠ .inEngine r) :
    iterFromA4 (s.setLoop l) = iterFromA4 s := by
  unfold iterFromA4
  rw [strobe_setLoop _ _ _ h1 h2, iterFromA5_setLoop _ _ (strobe_notEngine _ _ h1) h2]

theorem stepEngine_setLoop (s : State) (l : LoopPos) (h1 : ∀ r, s.loop ≠ .inEngine r) (h2 : ∀ r, l ≠ .inEngine r) :
    stepEngine (s.setLoop l) = (stepEngine s).setLoop l := by
  have e : (s.setLoop l).traceRec .step = (s.traceRec .step).setLoop l := by simp only [State.traceRec_eq]; rfl
  have hn : ∀ r, (s.traceRec .step).loop ≠ .inEngine r := by rw [State.traceRec_eq]; exact h1
  unfold stepEngine
  rw [e, strobe_setLoop _ _ _ hn h2]

theorem iterFromA8_setLoop (s : State) (l : LoopPos) (h1 : ∀ r, s.loop ≠ .inEngine r) (h2 : ∀ r, l ≠ .inEngine r) :
    iterFromA8 (s.setLoop l) = iterFromA8 s := by
  have hn : ∀ r, (stepEngine s).loop ≠ .inEngine r := strobe_notEngine _ _ (by rw [State.traceRec_eq]; exact h1)
  unfold iterFromA8
  rw [stepEngine_setLoop _ _ h1 h2, iterFromPoll_setLoop _ _ hn h2]
  rfl

theorem iterFromA7_setLoop (s : State) (l : LoopPos) (h1 : ∀ r, s.loop ≠ .inEngine r) (h2 : ∀ r, l ≠ .inEngine r) :
    iterFromA7 (s.setLoop l) = iterFromA7 s := by
  unfold iterFromA7
  rw [iterFromReload_setLoop, iterFromA8_setLoop _ _ h1 h2]
  rfl

/-- A strobe and what follows it in the iteration. -/
theorem reach_start (op : EngineOp) (s : State) (hs : s.stopped = false) (hl : s.loop = .start op) (hi :
    ((op == .step) && s.hostInInit) = false) :
    LoopReaches s (iterAfter op (strobe op s)) := by
  refine (reach_strobe op s hs hl hi).trans ?_
  have hn := strobe_notEngine op s (by rw [hl]; intro r; simp)
  cases op
  · have := reach_poll ((strobe .step s).setLoop .poll) (by rw [State.setLoop_stopped, strobe_stopped]; exact hs) rfl
    rw [iterFromPoll_setLoop _ _ hn (by intro r; simp)] at this; exact this
  · have := reach_a5 ((strobe .reset s).setLoop .a5) (by rw [State.setLoop_stopped, strobe_stopped]; exact hs) rfl
    rw [iterFromA5_setLoop _ _ hn (by intro r; simp)] at this; exact this
  · exact LoopReaches.refl _
  · exact LoopReaches.refl _

/-- A zero-fill, byte by byte in its order, from wherever it stands (R57, R137). -/
theorem reach_fill (j order : Nat) :
    ∀ (k : Nat) (s : State), 65536 ≤ k + j → s.ram.wf = true → s.stopped = false → s.loop = .fill k order →
      LoopReaches s ((s.setRam (s.ram.clearFrom order k)).setLoop (.start .reset)) := by
  have last : ∀ (k : Nat) (s : State), 65536 ≤ k → s.ram.wf = true → s.stopped = false → s.loop = .fill k order →
      LoopReaches s ((s.setRam (s.ram.clearFrom order k)).setLoop (.start .reset)) := by
    intro k s hk hw hs hl
    rw [Memory.clearFrom_all hw order k hk]
    have hk2 : ¬ k < 65536 := by omega
    exact LoopReaches.step (u := s.setLoop (.start .reset)) (by simp [loopTurn, hs, hl, arraySize, hk2]) (LoopReaches.refl _)
  induction j with
  | zero => exact last
  | succ j ih =>
    intro k s hk hw hs hl
    by_cases hk2 : k < 65536
    · refine LoopReaches.step (u := (s.writeRam (fillAddr order k) 0).setLoop (.fill (k + 1) order))
        (by simp [loopTurn, hs, hl, hk2, arraySize]) ?_
      have h := ih (k + 1) ((s.writeRam (fillAddr order k) 0).setLoop (.fill (k + 1) order)) (by omega)
        (ramWf_writeRam hw _ _) hs rfl
      have e : ((s.writeRam (fillAddr order k) 0).setLoop (.fill (k + 1) order)).ram.clearFrom order (k + 1)
          = s.ram.clearFrom order k := Memory.clearFrom_write_fillAddr hw order k hk2
      rw [e] at h
      exact h
    · exact last k s (by omega) hw hs hl

/-- The rest of a reset service (R137). -/
theorem reach_fillA4 (s : State) (order k : Nat) (hw : s.ram.wf = true) (hs : s.stopped = false)
    (hl : s.loop = .fill k order) :
    LoopReaches s (iterFromA4 (s.setRam (s.ram.clearFrom order k))) := by
  refine (reach_fill 65536 order k s (by omega) hw hs hl).trans ?_
  have := reach_start .reset ((s.setRam (s.ram.clearFrom order k)).setLoop (.start .reset)) hs rfl rfl
  have hn : ∀ r, (s.setRam (s.ram.clearFrom order k)).loop ≠ .inEngine r := by rw [State.setRam_loop, hl]; intro r; simp
  have e : iterAfter .reset (strobe .reset ((s.setRam (s.ram.clearFrom order k)).setLoop (.start .reset))) = iterFromA4
      ((s.setRam (s.ram.clearFrom order k)).setLoop (.start .reset)) := rfl
  rw [e, iterFromA4_setLoop _ _ hn (by intro r; simp)] at this
  exact this

/-- From A8 (R135). -/
theorem reach_a8 (s t : State) (hs : s.stopped = false) (hl : s.loop = .a8) (h : iterFromA8 s = .next t) :
    LoopReaches s t := by
  unfold iterFromA8 at h
  split at h
  · cases h
  · rename_i hi
    cases h
    refine LoopReaches.step (u := (s.traceRec .step).setLoop (.start .step)) (by simp [loopTurn, hs, hl]) ?_
    have hq8 : ((EngineOp.step == EngineOp.step) && ((s.traceRec .step).setLoop (.start .step)).hostInInit) = false := by
      have e8 : ((s.traceRec .step).setLoop (.start .step)).hostInInit = s.hostInInit := by rw [State.traceRec_eq]; rfl
      rw [e8]; simpa using hi
    have := reach_start .step ((s.traceRec .step).setLoop (.start .step)) (by rw [State.traceRec_eq]; exact hs) rfl hq8
    have hn : ∀ r, (s.traceRec .step).loop ≠ .inEngine r := by rw [State.traceRec_eq]; simp [hl]
    rw [strobe_setLoop _ _ _ hn (by intro r; simp)] at this
    have e : iterAfter .step ((strobe .step (s.traceRec .step)).setLoop (.start .step)) = iterFromPoll
        (stepEngine s) := iterFromPoll_setLoop _ _ (strobe_notEngine _ _ hn) (by intro r; simp)
    rw [e] at this
    exact this

/-- From A7 (R135). -/
theorem reach_a7 (s t : State) (hs : s.stopped = false) (hl : s.loop = .a7) (h : iterFromA7 s = .next t) :
    LoopReaches s t := by
  refine LoopReaches.step (by simp only [loopTurn, hs, hl]; rfl) ?_
  unfold iterFromA7 at h
  split at h
  · rename_i hp
    cases h
    have := reach_reload (s.setLoop .reload) hs rfl; rw [iterFromReload_setLoop] at this; rw [if_pos hp]; exact this
  · rename_i hp
    rw [if_neg hp]
    refine reach_a8 _ _ hs rfl ?_
    rw [iterFromA8_setLoop _ _ (by rw [hl]; intro r; simp) (by intro r; simp)]; exact h

/-- From A2 (R135). -/
theorem reach_a2 (s t : State) (hw : s.ram.wf = true) (hs : s.stopped = false) (hl : s.loop = .a2)
    (h : iterFromA2 s = .next t) :
    LoopReaches s t := by
  refine LoopReaches.step (by simp only [loopTurn, hs, hl]; rfl) ?_
  unfold iterFromA2 at h
  split at h
  · rename_i hr
    cases h
    rw [if_pos hr]
    have := reach_fillA4 ((s.setDraws (s.draws + 1)).setLoop (.fill 0 s.draws)) s.draws 0 hw hs rfl
    have e : ((s.setDraws (s.draws + 1)).setLoop (.fill 0 s.draws)).ram.clearFrom s.draws 0 = Memory.zero := by
      simp [Memory.clearFrom, Memory.zero]
    rw [e] at this
    have e2 : ((s.setDraws (s.draws + 1)).setLoop (.fill 0 s.draws)).setRam Memory.zero = ((s.setDraws
        (s.draws + 1)).setRam Memory.zero).setLoop (.fill 0 s.draws) := rfl
    rw [e2, iterFromA4_setLoop _ _ (by rw [State.setRam_loop, State.setDraws_loop, hl]; intro r; simp)
        (by intro r; simp)] at this; exact this
  · rename_i hr
    rw [if_neg hr]
    refine reach_a7 _ _ hs rfl ?_
    rw [iterFromA7_setLoop _ _ (by rw [hl]; intro r; simp) (by intro r; simp)]; exact h

end Sys2Proof.Machine
end

