-- ==== Sys2Proof/Laws/HostThread.lean ====
section
/-! SUPPORT. The owning thread alone: one operation of the host, begun last, moved access by access to its end. No operation's
accesses look at what else the host has in progress. -/
namespace Sys2Proof.Machine

theorem callTurns_add (k m n : Nat) (s : State) : callTurns k (m + n) s = callTurns k n (callTurns k m s) := by
  induction m generalizing s with
  | zero => simp [callTurns]
  | succ m ih => rw [show m + 1 + n = (m + n) + 1 by omega]; simp only [callTurns]; exact ih _

/-- The accesses of an operation of the host do not look at what the host has in progress. -/
theorem turn_setCalls (c : HostCall) (s : State) (cs : List HostCall) :
    c.turn (s.setCalls cs) = ((c.turn s).1, (c.turn s).2.setCalls cs) := by
  cases c with
  | init im pos =>
    simp only [HostCall.turn]
    cases pos with
    | ramFill k order => simp only [initTurn]; split <;> rfl
    | romFill k order => simp only [initTurn]; split <;> rfl
    | copy b i => simp only [initTurn]; split <;> rfl
    | flag => rfl
  | nmi run => simp only [HostCall.turn, runTurn_setCalls]
  | keyScan m acc r => simp only [HostCall.turn, keyScanTurn]; split <;> rfl

/-- One turn of the operation begun last: the rest of the list stays, and it leaves the list when it ends. -/
theorem callTurn_last (cs : List HostCall) (c : HostCall) (s : State) :
    callTurn cs.length (s.setCalls (cs ++ [c])) = (c.turn s).2.setCalls (cs ++ (c.turn s).1.toList) := by
  have h : (s.setCalls (cs ++ [c])).calls[cs.length]? = some c := by simp
  rw [callTurn_some h, turn_setCalls]
  cases (c.turn s).1 with
  | some c' => simp [replaceCall, State.setCalls]
  | none =>
    simp only [replaceCall, State.setCalls, Option.toList_none, List.append_nil]
    rw [List.eraseIdx_append_of_length_le (Nat.le_refl _)]; simp

/-- The operation at a place, alone, gets from one state to the other. -/
def CallReaches (k : Nat) (s t : State) : Prop := ∃ n, t = callTurns k n s

theorem CallReaches.refl (k : Nat) (s : State) : CallReaches k s s := ⟨0, rfl⟩

theorem CallReaches.trans {k : Nat} {s t u : State} (h1 : CallReaches k s t) (h2 : CallReaches k t u) : CallReaches k s u := by
  obtain ⟨m, rfl⟩ := h1; obtain ⟨n, rfl⟩ := h2; exact ⟨m + n, (callTurns_add k m n s).symm⟩

/-- The operation begun last, one access on. -/
theorem CallReaches.turn {cs : List HostCall} {c : HostCall} {r : Option HostCall} {s s' t : State} (hc : c.turn s = (r, s'))
    (h : CallReaches cs.length (s'.setCalls (cs ++ r.toList)) t) :
    CallReaches cs.length (s.setCalls (cs ++ [c])) t := by
  obtain ⟨n, rfl⟩ := h
  refine ⟨n + 1, ?_⟩
  rw [callTurns, callTurn_last, hc]

/-- An `nmi` of the host, access by access, to its end (R57, R122). -/
theorem callReaches_nmi {run : EngineRun} {s t : State} (h : RunReaches run s t) (cs : List HostCall) :
    CallReaches cs.length (s.setCalls (cs ++ [.nmi run])) (t.setCalls cs) := by
  induction h with
  | done h =>
    refine CallReaches.turn (r := none) (by simp only [HostCall.turn, h]; rfl) ?_
    simp only [Option.toList_none, List.append_nil]
    exact CallReaches.refl _ _
  | step h _ ih =>
    exact CallReaches.turn (r := some (.nmi _)) (s' := _) (by simp only [HostCall.turn, h, Option.map_some]) ih

/-- A `KEY_SCAN` of the host, row by row, to its answer (R57, R103). -/
theorem callReaches_keyScan (m : Byte) (cs : List HostCall) (s : State) :
    ∀ (n r : Nat) (acc : Byte), r + n = 8 →
      CallReaches cs.length (s.setCalls (cs ++ [.keyScan m acc r]))
        ((s.respondHost (okResponse (scanRows s.km m n r acc))).setCalls cs) := by
  intro n
  induction n with
  | zero =>
    intro r acc hr
    have h8 : ¬ r < 8 := by omega
    refine CallReaches.turn (r := none) (by simp only [HostCall.turn, keyScanTurn, if_neg h8]; rfl) ?_
    simp only [Option.toList_none, List.append_nil]
    exact CallReaches.refl _ _
  | succ n ih =>
    intro r acc hr
    have h8 : r < 8 := by omega
    exact CallReaches.turn (r := some (.keyScan m (scanRow s.km m acc r) (r + 1))) (s' := s)
      (by simp only [HostCall.turn, keyScanTurn, if_pos h8]) (ih (r + 1) _ (by omega))

/-! ### `INIT` -/

/-- The state with an `INIT` at a position, begun after the operations `cs`. -/
def State.inInit (s : State) (cs : List HostCall) (im : Images) (pos : InitPos) : State := s.setCalls (cs ++ [.init im pos])

/-- An `INIT`, one access on. -/
theorem callReaches_init {cs : List HostCall} {im : Images} {pos pos' : InitPos} {s s' t : State}
    (h : initTurn im pos s = (some pos', s')) (hr : CallReaches cs.length (s'.inInit cs im pos') t) :
    CallReaches cs.length (s.inInit cs im pos) t :=
  CallReaches.turn (r := some (.init im pos')) (s' := s') (by simp only [HostCall.turn, h, Option.map_some]) hr

/-- An `INIT`'s last access. -/
theorem callReaches_initEnd {cs : List HostCall} {im : Images} {s : State} :
    CallReaches cs.length (s.inInit cs im .flag) (((s.setInited true).respondHost (okResponse 0)).setCalls cs) := by
  refine CallReaches.turn (r := none) (by simp only [HostCall.turn, initTurn]; rfl) ?_
  simp only [Option.toList_none, List.append_nil]
  exact CallReaches.refl _ _

/-- One write of a zero-fill, and those from the next on. -/
theorem read_fill_step (m m' : Memory) (order k j : Nat) (hw : m.wf = true) (hk : k < 65536)
    (h : ∀ a : Addr, m'.read a.toNat =
      if k + 1 ≤ ((Config.fillOrder order).symm a).toNat ∧ ((Config.fillOrder order).symm a).toNat < k + 1 + j then 0
      else (m.write (fillAddr order k).toNat 0).read a.toNat) (a : Addr) :
    m'.read a.toNat =
      if k ≤ ((Config.fillOrder order).symm a).toNat ∧ ((Config.fillOrder order).symm a).toNat < k + (j + 1) then 0
      else m.read a.toNat := by
  rw [h, Memory.read_write hw]
  by_cases he : a = fillAddr order k
  · have hs : ((Config.fillOrder order).symm a).toNat = k := by
      rw [he, fillAddr, Equiv.symm_apply_apply]; simp; omega
    rw [hs, if_neg (by omega), if_pos (by rw [he]), if_pos (by omega)]
  · have hs : ((Config.fillOrder order).symm a).toNat ≠ k := by
      intro hs
      apply he
      rw [fillAddr, ← hs, BitVec.ofNat_toNat, BitVec.setWidth_eq, Equiv.apply_symm_apply]
    rw [if_neg (fun hh => he (BitVec.eq_of_toNat_eq hh))]
    split <;> split <;> first | rfl | omega

/-- The next `j` bytes of the `RAM` zero-fill of an `INIT` (R57, R123): those are zero, and no others have changed. -/
theorem callReaches_ramFill (cs : List HostCall) (im : Images) (order j : Nat) :
    ∀ (k : Nat) (s : State), k + j ≤ 65536 → s.ram.wf = true →
      ∃ m : Memory, m.wf = true
        ∧ (∀ a : Addr, m.read a.toNat =
            if k ≤ ((Config.fillOrder order).symm a).toNat ∧ ((Config.fillOrder order).symm a).toNat < k + j then 0
            else s.ram.read a.toNat)
        ∧ CallReaches cs.length (s.inInit cs im (.ramFill k order)) ((s.setRam m).inInit cs im (.ramFill (k + j) order)) := by
  induction j with
  | zero => exact fun k s _ hw => ⟨s.ram, hw, fun a => by rw [if_neg (by omega)], CallReaches.refl _ _⟩
  | succ j ih =>
    intro k s hk hw
    have hk2 : k < 65536 := by omega
    obtain ⟨m, hm, hread, hr⟩ := ih (k + 1) (s.writeRam (fillAddr order k) 0) (by omega) (ramWf_writeRam hw _ _)
    refine ⟨m, hm, read_fill_step s.ram m order k j hw hk2 hread,
      callReaches_init (pos' := .ramFill (k + 1) order) (s' := s.writeRam (fillAddr order k) 0)
        (by simp [initTurn, arraySize, hk2]) ?_⟩
    rw [show k + (j + 1) = k + 1 + j by omega]
    exact hr

/-- The same for `ROM`. -/
theorem callReaches_romFill (cs : List HostCall) (im : Images) (order j : Nat) :
    ∀ (k : Nat) (s : State), k + j ≤ 65536 → s.rom.wf = true →
      ∃ m : Memory, m.wf = true
        ∧ (∀ a : Addr, m.read a.toNat =
            if k ≤ ((Config.fillOrder order).symm a).toNat ∧ ((Config.fillOrder order).symm a).toNat < k + j then 0
            else s.rom.read a.toNat)
        ∧ CallReaches cs.length (s.inInit cs im (.romFill k order)) ((s.setRom m).inInit cs im (.romFill (k + j) order)) := by
  induction j with
  | zero => exact fun k s _ hw => ⟨s.rom, hw, fun a => by rw [if_neg (by omega)], CallReaches.refl _ _⟩
  | succ j ih =>
    intro k s hk hw
    have hk2 : k < 65536 := by omega
    obtain ⟨m, hm, hread, hr⟩ := ih (k + 1) (s.writeRom (fillAddr order k) 0) (by omega)
      (Memory.wf_write hw (BitVec.isLt _))
    refine ⟨m, hm, read_fill_step s.rom m order k j hw hk2 hread,
      callReaches_init (pos' := .romFill (k + 1) order) (s' := s.writeRom (fillAddr order k) 0)
        (by simp [initTurn, arraySize, hk2]) ?_⟩
    rw [show k + (j + 1) = k + 1 + j by omega]
    exact hr

/-- A memory that is zero at every address is the zero array. -/
theorem Memory.eq_zero {m : Memory} (hw : m.wf = true) (h : ∀ a : Addr, m.read a.toNat = 0) : m = Memory.zero := by
  refine Memory.eq_of_read hw Memory.wf_zero (fun a => ?_)
  by_cases ha : a < 65536
  · have := h (BitVec.ofNat 16 a)
    rwa [BitVec.toNat_ofNat, Nat.mod_eq_of_lt ha] at this
  · exact Memory.read_above hw ha

/-- Both zero-fills of an `INIT`, from its beginning to its first copy (R57, R123). -/
theorem callReaches_fills (cs : List HostCall) (im : Images) (order : Nat) (s : State) (hr : s.ram.wf = true)
    (hw : s.rom.wf = true) :
    CallReaches cs.length (s.inInit cs im (.ramFill 0 order))
      ((((s.setRam Memory.zero).setDraws (s.draws + 1)).setRom Memory.zero).inInit cs im (.copy .basic 0)) := by
  have full : ∀ (order : Nat) (m n : Memory), m.wf = true →
      (∀ a : Addr, m.read a.toNat =
        if 0 ≤ ((Config.fillOrder order).symm a).toNat ∧ ((Config.fillOrder order).symm a).toNat < 0 + 65536 then 0
        else n.read a.toNat) → m = Memory.zero := fun order m n hm h =>
    Memory.eq_zero hm (fun a => by
      have := ((Config.fillOrder order).symm a).isLt
      rw [h, if_pos (by omega)])
  obtain ⟨m, hm, hread, h1⟩ := callReaches_ramFill cs im order 65536 0 s (by omega) hr
  rw [full order m s.ram hm hread] at h1
  obtain ⟨m', hm', hread', h2⟩ :=
    callReaches_romFill cs im s.draws 65536 0 ((s.setRam Memory.zero).setDraws (s.draws + 1)) (by omega) hw
  rw [full s.draws m' s.rom hm' hread'] at h2
  refine h1.trans (callReaches_init ?_ (h2.trans (callReaches_init ?_ (CallReaches.refl _ _))))
  · rfl
  · rfl

/-- One byte of a copy, and those from the next on. -/
theorem initCopy_byte (B i a : Nat) (v : Byte) (bs : List Byte) (x : Byte) :
    (if B + (i + 1) ≤ a ∧ a < B + (i + 1) + bs.length then (bs[a - (B + (i + 1))]?).getD 0 else if a = B + i then v else x) =
      if B + i ≤ a ∧ a < B + i + (bs.length + 1) then ((v :: bs)[a - (B + i)]?).getD 0 else x := by
  by_cases h1 : a = B + i
  · rw [if_neg (by omega), if_pos h1, if_pos (by omega)]; simp [h1]
  · by_cases h2 : B + (i+1) ≤ a ∧ a < B + (i+1) + bs.length
    · rw [if_pos h2, if_pos (by omega)]
      have : a - (B + i) = (a - (B + (i + 1))) + 1 := by omega
      rw [this]; simp
    · rw [if_neg h2, if_neg h1, if_neg (by omega)]

/-- The copy of one image, byte by byte, ascending (R50, R123). -/
theorem callReaches_copy (cs : List HostCall) (im : Images) (b : RomBlock) (bs : List Byte) :
    ∀ (i : Nat) (s : State), (im.bytes b).drop i = bs → s.rom.wf = true →
      (blockBase s.cfg.params b).toNat + i + bs.length ≤ 65536 →
      ∃ m : Memory, m.wf = true
        ∧ (∀ a, m.read a =
            if (blockBase s.cfg.params b).toNat + i ≤ a ∧ a < (blockBase s.cfg.params b).toNat + i + bs.length then
              (bs[a - ((blockBase s.cfg.params b).toNat + i)]?).getD 0
            else s.rom.read a)
        ∧ CallReaches cs.length (s.inInit cs im (.copy b i)) ((s.setRom m).inInit cs im (nextCopy b)) := by
  induction bs with
  | nil =>
    intro i s hb hw _
    refine ⟨s.rom, hw, fun a => ?_, callReaches_init (s' := s) ?_ (CallReaches.refl _ _)⟩
    · rw [if_neg]; simp
    · have : (im.bytes b)[i]? = none := by simpa using hb
      simp only [initTurn, this]
  | cons v bs ih =>
    intro i s hb hw hfit
    have hv : (im.bytes b)[i]? = some v := by
      have := congrArg (fun l => l[0]?) hb; simpa using this
    have htl : (im.bytes b).drop (i + 1) = bs := by rw [← List.drop_drop, hb]; rfl
    simp only [List.length_cons] at hfit
    have hn : (blockBase s.cfg.params b + BitVec.ofNat 16 i).toNat = (blockBase s.cfg.params b).toNat + i := by
      simp; omega
    have hw2 : (s.writeRom (blockBase s.cfg.params b + BitVec.ofNat 16 i) v).rom.wf = true :=
      Memory.wf_write hw (BitVec.isLt _)
    have hfit2 : (blockBase s.cfg.params b).toNat + (i + 1) + bs.length ≤ 65536 := by omega
    obtain ⟨m, hm, hread, hr⟩ := ih (i + 1) (s.writeRom (blockBase s.cfg.params b + BitVec.ofNat 16 i) v) htl hw2 hfit2
    refine ⟨m, hm, fun a => ?_, callReaches_init (by simp only [initTurn, hv]) hr⟩
    rw [hread]
    change (if (blockBase s.cfg.params b).toNat + (i + 1) ≤ a ∧ _ then _ else (s.rom.write _ v).read a) = _
    rw [Memory.read_write hw, hn]
    simp only [State.writeRom, State.setRom_cfg, List.length_cons]
    exact initCopy_byte _ _ _ _ _ _

end Sys2Proof.Machine
end

