-- ==== Sys2Proof/Laws/KeyMatrix.lean ====
section
/-! SUPPORT. The key matrix bit by bit: what a key change writes and what a scan answers. -/
namespace Sys2Proof.Machine

/-- `1 << col` has the one bit (R106). -/
theorem keyBit_bit (col c : BitVec 3) : (keyBit col).getLsbD c.toNat = decide (c = col) := by
  revert col c
  decide

/-- A key change writes its own bit of the row (R101). -/
theorem keyRowAfter_bit (old : Byte) (col c : BitVec 3) (p : Bool) :
    (keyRowAfter old col p).getLsbD c.toNat = if c = col then !p else old.getLsbD c.toNat := by
  have hc : c.toNat < 8 := c.isLt
  cases p
  · simp only [keyRowAfter, Bool.false_eq_true, if_false, BitVec.getLsbD_or, keyBit_bit]
    by_cases h : c = col <;> simp [h]
  · simp only [keyRowAfter, if_true, BitVec.getLsbD_and, BitVec.getLsbD_not, keyBit_bit, hc]
    by_cases h : c = col <;> simp [h]

theorem keyRowAfter_twice (old : Byte) (col : BitVec 3) (p : Bool) :
    keyRowAfter (keyRowAfter old col p) col p = keyRowAfter old col p := by
  apply BitVec.eq_of_getLsbD_eq
  intro i hi
  have hn : (BitVec.ofNat 3 i).toNat = i := by simp only [BitVec.toNat_ofNat]; omega
  rw [← hn, keyRowAfter_bit, keyRowAfter_bit]
  split <;> rfl

/-- `n` turns of the scan loop from row `r` on: a column bit stays 1 unless a selected row among them clears it (R103). -/
theorem scanRows_bit (km : Vector Byte 8) (m : Byte) (n r : Nat) (acc : Byte) (c : Nat) :
    (scanRows km m n r acc).getLsbD c = true ↔
      acc.getLsbD c = true
        ∧ ∀ k, (hk : k < 8) → r ≤ k → k < r + n → m.getLsbD k = false → km[k].getLsbD c = true := by
  induction n generalizing r acc with
  | zero => simp only [scanRows]; exact ⟨fun h => ⟨h, fun k _ _ _ => by omega⟩, fun h => h.1⟩
  | succ n ih =>
    rw [scanRows, ih]
    unfold scanRow
    by_cases hr : r < 8
    · rw [dif_pos hr]
      constructor
      · rintro ⟨h1, h2⟩
        refine ⟨?_, fun k hk h3 h4 h5 => ?_⟩
        · split at h1
          · exact h1
          · simp only [BitVec.getLsbD_and, Bool.and_eq_true] at h1
            exact h1.1
        · by_cases he : k = r
          · subst he
            rw [h5] at h1
            simp only [Bool.false_eq_true, if_false, BitVec.getLsbD_and, Bool.and_eq_true] at h1
            exact h1.2
          · exact h2 k hk (by omega) (by omega) h5
      · rintro ⟨h1, h2⟩
        refine ⟨?_, fun k hk h3 h4 h5 => h2 k hk (by omega) (by omega) h5⟩
        split
        · exact h1
        · rename_i hm
          simp only [BitVec.getLsbD_and, Bool.and_eq_true]
          exact ⟨h1, h2 r hr (by omega) (by omega) (by simpa using hm)⟩
    · rw [dif_neg hr]
      exact ⟨fun ⟨h1, _⟩ => ⟨h1, fun k hk h3 => by omega⟩, fun ⟨h1, _⟩ => ⟨h1, fun k hk h3 => by omega⟩⟩

/-- A whole scan, bit by bit (R100, R103). -/
theorem scan_bit (km : Vector Byte 8) (m : Byte) (c : Nat) (hc : c < 8) :
    (scan km m).getLsbD c = true ↔ ∀ k, (hk : k < 8) → m.getLsbD k = false → km[k].getLsbD c = true := by
  have h1 : (0xFF : Byte).getLsbD c = true := by
    interval_cases c <;> rfl
  rw [scan, scanRows_bit]
  exact ⟨fun h k hk hm => h.2 k hk (by omega) (by omega) hm, fun h => ⟨h1, fun k hk _ _ hm => h k hk hm⟩⟩

end Sys2Proof.Machine
end

