-- ==== Sys2Proof/Laws/PerInstr.lean ====
section
/-! SUPPORT. Per-instruction family TableRow: the word of every operation has the fixed bits of its row of
spec/opcode_table.json, on the port of that row. -/
namespace Sys2Proof.Laws.TableRow
open Sys2Proof.Machine

/-- The raw word of the operation is a word of its row: the row's `match` under its `mask` and a code of its port, or a one-hot
strobe value. -/
def Statement (i : Instr) : Prop :=
  match encode i with
  | .w word => tableWordOk word = true ∧ (opPort (opField word) = some i.source ∨ i = .iter)
  | .c strobe => portNext (some none) strobe = some (some strobe) ∧ i.source = .control

/-- The fixed bits of a packed word, one test per bit. -/
theorem fixed_of_bits {op : BitVec 4} {a : Addr} {d : Byte}
    (h : ∀ i < 32, ((packWord op a d).getLsbD i && (fixedBits op).getLsbD i) = (fixedValue op).getLsbD i) :
    tableWordOk (packWord op a d) = true := by
  unfold tableWordOk
  rw [(fields_packWord op a d).1, beq_iff_eq]
  apply BitVec.eq_of_getLsbD_eq
  intro i hi
  rw [BitVec.getLsbD_and]
  exact h i hi

theorem bits_packWord (op : BitVec 4) (a : Addr) (d : Byte) (i : Nat) :
    (packWord op a d).getLsbD i =
      if i < 8 then d.getLsbD i else if i < 24 then a.getLsbD (i - 8) else if i < 28 then false else op.getLsbD (i - 28) := by
  unfold packWord
  rw [BitVec.getLsbD_append, BitVec.getLsbD_append, BitVec.getLsbD_append]
  by_cases h1 : i < 8
  · simp [h1]
  · by_cases h2 : i < 24
    · simp [h1, h2, show i - 8 < 16 by omega]
    · by_cases h3 : i < 28
      · simp [h1, h2, h3, show ¬ i - 8 < 16 by omega, show i - 8 - 16 < 4 by omega]
      · simp [h1, h2, h3, show ¬ i - 8 < 16 by omega, show ¬ i - 8 - 16 < 4 by omega, show i - 8 - 16 - 4 = i - 28 by omega]

/-- A word of a row of port `src`, from its fixed bits and its code. -/
theorem of_bits {i : Instr} {op : BitVec 4} {a : Addr} {d : Byte} (he : encode i = .w (packWord op a d))
    (hp : opPort op = some i.source ∨ i = .iter)
    (h : ∀ k < 32, ((packWord op a d).getLsbD k && (fixedBits op).getLsbD k) = (fixedValue op).getLsbD k) : Statement i := by
  unfold Statement
  rw [he]
  exact ⟨fixed_of_bits h, by rw [(fields_packWord _ _ _).1]; exact hp⟩

theorem bits_packCoordinate (row col : BitVec 3) (i : Nat) (hi : i < 16) (h : 6 ≤ i) :
    (packCoordinate row col)[i] = false := by
  rw [← BitVec.getLsbD_eq_getElem]
  unfold packCoordinate
  rw [BitVec.getLsbD_append, BitVec.getLsbD_append]
  simp [show ¬ i < 3 by omega, show ¬ i - 3 < 3 by omega]

theorem bits_packBool (b : Bool) (i : Nat) (hi : i < 8) (h : 1 ≤ i) : (packBool b)[i] = false := by
  rw [← BitVec.getLsbD_eq_getElem]
  unfold packBool
  rw [BitVec.getLsbD_append]
  simp [show ¬ i < 1 by omega]

theorem busRead (a : Addr) : Statement (.busRead a) :=
  of_bits rfl (.inl rfl) (by
    intro k hk; rw [bits_packWord]; interval_cases k <;> simp [fixedBits, fixedValue])

theorem busWrite (a : Addr) (v : Byte) : Statement (.busWrite a v) :=
  of_bits rfl (.inl rfl) (by
    intro k hk; rw [bits_packWord]; interval_cases k <;> simp [fixedBits, fixedValue])

theorem peekRam (a : Addr) : Statement (.peekRam a) :=
  of_bits rfl (.inl rfl) (by
    intro k hk; rw [bits_packWord]; interval_cases k <;> simp [fixedBits, fixedValue])

theorem peekRom (a : Addr) : Statement (.peekRom a) :=
  of_bits rfl (.inl rfl) (by
    intro k hk; rw [bits_packWord]; interval_cases k <;> simp [fixedBits, fixedValue])

theorem keySet (row col : BitVec 3) (p : Bool) : Statement (.keySet row col p) :=
  of_bits rfl (.inl rfl) (by
    intro k hk; rw [bits_packWord]; interval_cases k <;> simp [fixedBits, fixedValue, bits_packCoordinate, bits_packBool])

theorem keyGet (row col : BitVec 3) : Statement (.keyGet row col) :=
  of_bits rfl (.inl rfl) (by
    intro k hk; rw [bits_packWord]; interval_cases k <;> simp [fixedBits, fixedValue, bits_packCoordinate])

theorem keyScan (m : Byte) : Statement (.keyScan m) :=
  of_bits rfl (.inl rfl) (by
    intro k hk; rw [bits_packWord]; interval_cases k <;> simp [fixedBits, fixedValue])

theorem init : Statement .init :=
  of_bits rfl (.inl rfl) (by
    intro k hk; rw [bits_packWord]; interval_cases k <;> simp [fixedBits, fixedValue])

theorem reqReset : Statement .reqReset :=
  of_bits rfl (.inl rfl) (by
    intro k hk; rw [bits_packWord]; interval_cases k <;> simp [fixedBits, fixedValue])

theorem reqPause (p : Bool) : Statement (.reqPause p) :=
  of_bits rfl (.inl rfl) (by
    intro k hk; rw [bits_packWord]; interval_cases k <;> simp [fixedBits, fixedValue, bits_packBool])

theorem reqStop : Statement .reqStop :=
  of_bits rfl (.inl rfl) (by
    intro k hk; rw [bits_packWord]; interval_cases k <;> simp [fixedBits, fixedValue])

theorem setDebug (b : Bool) : Statement (.setDebug b) :=
  of_bits rfl (.inl rfl) (by
    intro k hk; rw [bits_packWord]; interval_cases k <;> simp [fixedBits, fixedValue, bits_packBool])

theorem iter : Statement .iter :=
  of_bits rfl (.inr rfl) (by
    intro k hk; rw [bits_packWord]; interval_cases k <;> simp [fixedBits, fixedValue])

theorem engStep : Statement .engStep := ⟨rfl, rfl⟩

theorem engReset : Statement .engReset := ⟨rfl, rfl⟩

theorem engIrq : Statement .engIrq := ⟨rfl, rfl⟩

end Sys2Proof.Laws.TableRow
end

