-- ==== Sys2Proof/Tests/Slice0.lean ====
section
/-! SUPPORT. Tests of the model: expected results are the vectors of spec/95_test_vectors.md (their ids in the comments) or hand
calculation from the rule cited. -/
namespace Sys2Proof.Tests
open Sys2Proof.Machine

/-! ### States and helpers -/

/-- `ScriptedEngine(steps, reset, irq)` with the default parameters. -/
def scriptedConfig (steps : List (List BusOp)) (reset irq : List BusOp) : Configuration :=
  ⟨defaultParams, .scripted ⟨steps, reset, irq, []⟩, by decide⟩

/-- `S_pow` with `NullEngine`. -/
def pow : State := { State.reset with cfg := scriptedConfig [] [] [] }

/-- `S_boot` with `NullEngine`, its ROM cut down to a few of its bytes, its counters zero. -/
def boot : State :=
  { pow with
    fReset := false, fPaused := false, inited := true
    rom := [(0xA001, 0x01), (0xA123, 0x23), (0xBFFF, 0xFF), (0xD000, 0xCC), (0xE000, 0xFF), (0xFFFC, 0x03)] }

/-- `boot` with the gate open and the time input `d` microseconds after the last sample. -/
def gated (d : Nat) : State := { boot with ram := [(0xDC0D, 0x01)], timeIn := some d }

/-- Something holds of the next state, and there is one. -/
def nextSat (o : Host.Outcome State Fault Refusal) (p : State → Bool) : Bool :=
  match o with
  | .next s => p s
  | .fault _ => false
  | .refused _ => false

/-- One operation after another. -/
def runs : List Instr → State → Host.Outcome State Fault Refusal
  | [], s => .next s
  | i :: is, s =>
    match exec i s with
    | .next t => runs is t
    | .fault r => .fault r
    | .refused r => .refused r

/-- A script (R82): its lines stand in the inbox, and the machine steps once for each. -/
def script (evs : List Event) (s : State) : Host.Outcome State Fault Refusal :=
  Sys2Proof.core.run evs.length { s with inbox := evs }

/-! ### Ill-formed terms: one for each check of WellFormed.lean -/

theorem test_default_params_legal : defaultParams.legal = true := by decide
theorem test_params_block_wraps : ({ defaultParams with kernelBase := 0xE001 }).blocksFit = false := by decide
theorem test_params_chargen_wraps : ({ defaultParams with chargenBase := 0xF001 }).blocksFit = false := by decide
theorem test_params_windows_overlap : ({ defaultParams with basicBase := 0xC001 }).windowsApart = false := by decide
theorem test_params_windows_touch : ({ defaultParams with basicBase := 0xC000 }).windowsApart = true := by decide
theorem test_params_keyboard_in_window : ({ defaultParams with kbdDataAddr := 0xBFFF }).keyboardOutside = false := by decide
theorem test_params_chargen_overlaps : ({ defaultParams with chargenBase := 0xDFFF }).chargenApart = false := by decide
theorem test_make_refuses : Configuration.make? { defaultParams with kbdDataAddr := 0xE000 } .external = none := by decide
theorem test_bus_word_not_on_host_port : (Instr.busRead 0xA000).wellFormedOn .host = false := by decide
theorem test_peek_not_on_engine_port : (Instr.peekRam 0xA000).wellFormedOn .engine = false := by decide
theorem test_iter_on_no_port : Instr.iter.wellFormedOn .host = false ∧ Instr.iter.wellFormedOn .engine = false := by decide

/-! ### Decoding: words from spec/95_test_vectors.md section 2.5 and 2.1 to 2.4 -/

theorem test_decode_busRead : decode (.w 0x00DC0100) = .ok (.busRead 0xDC01) := by decide
theorem test_decode_busWrite : decode (.w 0x10DC007D) = .ok (.busWrite 0xDC00 0x7D) := by decide
theorem test_decode_peekRam : decode (.w 0x20FFFF00) = .ok (.peekRam 0xFFFF) := by decide
theorem test_decode_peekRom : decode (.w 0x30D00800) = .ok (.peekRom 0xD008) := by decide
theorem test_decode_keySet : decode (.w 0x40000A01) = .ok (.keySet 1 2 true) := by decide
theorem test_decode_keySet_release : decode (.w 0x40003800) = .ok (.keySet 7 0 false) := by decide
theorem test_decode_keyGet : decode (.w 0x50000700) = .ok (.keyGet 0 7) := by decide
theorem test_decode_keyScan : decode (.w 0x600000AA) = .ok (.keyScan 0xAA) := by decide
theorem test_decode_init : decode (.w 0x70000000) = .ok .init := by decide
theorem test_decode_reqReset : decode (.w 0x80000000) = .ok .reqReset := by decide
theorem test_decode_reqPause : decode (.w 0x90000001) = .ok (.reqPause true) := by decide
theorem test_decode_reqStop : decode (.w 0xA0000000) = .ok .reqStop := by decide
theorem test_decode_setDebug : decode (.w 0xB0000000) = .ok (.setDebug false) := by decide
theorem test_decode_iter : decode (.w 0xC0000000) = .ok .iter := by decide
/-- R75: `ENG_STEP = 001`, `ENG_RESET = 010`, `ENG_IRQ = 100`, idle `000`; the other four never occur. -/
theorem test_decode_strobes :
    decode (.c 0b001) = .ok .engStep ∧ decode (.c 0b010) = .ok .engReset ∧ decode (.c 0b100) = .ok .engIrq
      ∧ decode (.c 0b000) = .error .idleStrobe ∧ decode (.c 0b011) = .error .strobeNeverOccurs
      ∧ decode (.c 0b111) = .error .strobeNeverOccurs := by decide
/-- E1 to E7: refused words, each by its own name. -/
theorem test_decode_refuses :
    decode (.w 0xD0000000) = .error .reservedOp ∧ decode (.w 0xF0000000) = .error .reservedOp
      ∧ decode (.w 0x01A00000) = .error .zNotZero ∧ decode (.w 0x40004001) = .error .aNotZero
      ∧ decode (.w 0x40000A03) = .error .dNotZero ∧ decode (.w 0x00A00001) = .error .dNotZero
      ∧ decode (.w 0x600001FD) = .error .aNotZero ∧ decode (.w 0x80000001) = .error .dNotZero := by decide
/-- R82: the encoding of a line. -/
theorem test_encode_lines :
    encode (.busWrite 0xDC00 0x7D) = .w 0x10DC007D ∧ encode (.keySet 1 2 true) = .w 0x40000A01
      ∧ encode .iter = .w 0xC0000000 := by decide
theorem test_decodeTableWord :
    decodeTableWord 32 0x30D00800 = some (.peekRom 0xD008) ∧ decodeTableWord 8 2 = some .engReset
      ∧ decodeTableWord 32 0xE0000000 = none ∧ decodeTableWord 8 9 = none := by decide

/-! ### Address Space -/

/-- A1, A3, A6: the windows show `ROM`. -/
theorem test_busRead_windows :
    nextSat (exec (.busRead 0xA001) boot) (fun t => t.engineResp == some 0x001)
      && nextSat (exec (.busRead 0xBFFF) boot) (fun t => t.engineResp == some 0x0FF)
      && nextSat (exec (.busRead 0xFFFC) boot) (fun t => t.engineResp == some 0x003) := by decide
/-- A8: the character-generator block is not in the decode; `PEEK_ROM` reaches it. -/
theorem test_busRead_chargen_hidden :
    nextSat (exec (.busRead 0xD000) boot) (fun t => t.engineResp == some 0x000)
      && nextSat (exec (.peekRom 0xD000) boot) (fun t => t.hostResp == some 0x0CC) := by decide
/-- A4, A5, A7: the addresses next to a window are RAM. -/
theorem test_busWrite_next_to_windows :
    nextSat (runs [.busWrite 0x9FFF 0x5A, .busRead 0x9FFF] boot) (fun t => t.engineResp == some 0x05A)
      && nextSat (runs [.busWrite 0xC000 0x5B, .busRead 0xC000] boot) (fun t => t.engineResp == some 0x05B)
      && nextSat (runs [.busWrite 0xDFFF 0x5C, .busRead 0xDFFF] boot) (fun t => t.engineResp == some 0x05C) := by decide
/-- A9, S1: a write under a window lands in RAM and is invisible to the engine. -/
theorem test_busWrite_hidden :
    nextSat (runs [.busWrite 0xA123 0xEE, .busRead 0xA123, .peekRam 0xA123] boot)
      (fun t => t.engineResp == some 0x023 && t.hostResp == some 0x0EE && t.rom == boot.rom) := by decide
/-- A11: the trace of a debugged stretch. -/
theorem test_trace_records :
    nextSat (runs [.setDebug true, .busWrite 0x0400 0x41, .busRead 0x0400, .busRead 0xA001, .peekRam 0x0400, .setDebug false,
        .busRead 0x0400] boot)
      (fun t => t.trace == [.write 0x0400 0x41, .read 0x0400 0x41, .read 0xA001 0x01]) := by decide
/-- A14: an address held as a wider number. -/
theorem test_effectiveAddr : effectiveAddr 0x1A005 = 0xA005 := by decide

/-! ### Keyboard Matrix -/

/-- K1 to K4: press, press again, highest coordinate, query. -/
theorem test_keySet :
    nextSat (runs [.keySet 1 2 true, .keySet 1 2 true] boot) (fun t => t.kmRow 1 == 0xFB && t.kmRow 0 == 0xFF)
      && nextSat (runs [.keySet 7 7 true] boot) (fun t => t.kmRow 7 == 0x7F && t.hostResp == some 0x000) := by decide
theorem test_keyGet :
    nextSat (runs [.keySet 1 2 true, .keyGet 1 2] boot) (fun t => t.hostResp == some 0x001)
      && nextSat (runs [.keySet 1 2 true, .keyGet 1 3] boot) (fun t => t.hostResp == some 0x000) := by decide
/-- K5: one row, both rows, an unselected row, no row. -/
theorem test_keyScan :
    nextSat (runs [.keySet 1 2 true, .keySet 7 7 true, .keyScan 0xFD] boot) (fun t => t.hostResp == some 0x0FB)
      && nextSat (runs [.keySet 1 2 true, .keySet 7 7 true, .keyScan 0x7D] boot) (fun t => t.hostResp == some 0x07B) := by
          decide
theorem test_keyScan_unselected :
    nextSat (runs [.keySet 1 2 true, .keySet 7 7 true, .keyScan 0xFE] boot) (fun t => t.hostResp == some 0x0FF)
      && nextSat (runs [.keySet 1 2 true, .keySet 7 7 true, .keyScan 0xFF] boot) (fun t => t.hostResp == some 0x0FF) := by
          decide
/-- K8: the port read scans with the mask cell and stores the mirror; a write to the port reaches only the mirror. -/
theorem test_keyboard_port :
    nextSat (runs [.keySet 1 2 true, .keySet 7 7 true, .busWrite 0xDC00 0x7D, .busRead 0xDC01, .peekRam 0xDC01] boot)
      (fun t => t.engineResp == some 0x07B && t.hostResp == some 0x07B) := by decide
theorem test_keyboard_port_write :
    nextSat (runs [.keySet 1 2 true, .busWrite 0xDC01 0x12, .peekRam 0xDC01] boot) (fun t => t.hostResp == some 0x012)
      && nextSat (runs [.keySet 1 2 true, .busWrite 0xDC01 0x12, .busRead 0xDC01, .peekRam 0xDC01] boot)
        (fun t => t.hostResp == some 0x0FB) := by decide

/-! ### Interrupt Timer: T1 to T4, T6, T9 to T12 -/

theorem test_timer_below_threshold :
    nextSat (exec .iter (gated 16665)) (fun t => t.eng.nStep == 1 && t.eng.nIrq == 0 && t.lft == 0) := by decide
theorem test_timer_at_threshold :
    nextSat (exec .iter (gated 16666))
      (fun t => t.eng.nStep == 1 && t.eng.nIrq == 1 && t.lft == 16666 && t.control == [1, 0, 4, 0]) := by decide
theorem test_timer_gate_closed :
    nextSat (exec .iter { boot with timeIn := some 16666, ram := [(0xDC0D, 0xFE)] })
      (fun t => t.eng.nIrq == 0 && t.lft == 16666) := by decide
theorem test_timer_no_catch_up :
    nextSat (script (iterScript 1000000 1 2) (gated 0)) (fun t => t.eng.nIrq == 1 && t.lft == 1000000) := by decide
theorem test_timer_paused_reload :
    nextSat (script (iterNow 50000 ++ iterNow 5000000 ++ resumeScript ++ iterNow 5000100) { gated 0 with fPaused := true })
      (fun t => t.eng.nStep == 1 && t.eng.nIrq == 0 && t.lft == 5000000) := by decide
/-- T10: a running reset iteration does not poll, and the sample shown for it is not the next iteration's. -/
theorem test_timer_reset_iteration :
    nextSat (script (iterNow 20000) { gated 0 with fReset := true })
      (fun t => t.ram == [] && t.eng.nReset == 1 && t.eng.nStep == 0 && t.lft == 0 && !t.fReset)
      && nextSat (script (iterScript 20000 1 2) { gated 0 with fReset := true })
        (fun t => t.eng.nStep == 1 && t.lft == 20001 && t.eng.nIrq == 0) := by decide
/-- `RESET_ITER_POLLS_TIMER = true`, with `NullEngine`. -/
def quietPollingConfig : Configuration :=
  ⟨{ defaultParams with resetIterPollsTimer := true }, .scripted ⟨[], [], [], []⟩, by decide⟩
/-- T10 with `RESET_ITER_POLLS_TIMER = true`. -/
theorem test_timer_reset_iteration_polls :
    nextSat (script (iterScript 20000 1 2) { gated 0 with fReset := true, cfg := quietPollingConfig })
      (fun t => t.eng.nStep == 1 && t.lft == 20000 && t.eng.nIrq == 0) := by decide
/-- T11: the poll reads the gate the step left. -/
theorem test_timer_gate_after_step :
    nextSat (exec .iter { boot with
        timeIn := some 16666, cfg := scriptedConfig [[.write 0xDC0D 0x01]] [] [.read 0xFFFE, .read 0xFFFC] })
      (fun t => t.eng.nIrq == 1 && t.lft == 16666 && t.engineResp == some 0x003) := by decide
theorem test_timer_quit :
    nextSat (exec .iter { gated 99999999 with fQuit := true }) (fun t => t.stopped && t.eng.nStep == 0 && t.lft == 0) := by
  decide

/-! ### Machine Control -/

/-- M1: the power-on reset is serviced while paused. -/
theorem test_iter_power_on :
    nextSat (exec .iter { pow with timeIn := some 7 })
      (fun t => t.eng.nReset == 1 && t.eng.nStep == 0 && !t.fReset && t.fPaused && t.lft == 7 && t.control == [2, 0]) := by
          decide
/-- M4: quit is tested before reset; after it commands answer `Q = 0x1FF`. -/
theorem test_stop :
    nextSat (runs [.reqReset, .reqStop, .iter] { boot with timeIn := some 1 })
      (fun t => t.stopped && t.fReset && t.hostResp == some 0x000)
      && nextSat (runs [.reqStop, .iter, .keySet 1 2 true] { boot with timeIn := some 1 })
        (fun t => t.hostResp == some 0x1FF && t.kmRow 1 == 0xFF) := by decide
theorem test_reqStop_waits :
    nextSat (exec .reqStop boot) (fun t => t.fQuit && !t.stopped && t.hostResp == none) := by decide
/-- M5, M12: assignments, not toggles. -/
theorem test_reqPause_assigns :
    nextSat (runs [.reqPause true, .reqPause true] boot) (fun t => t.fPaused && t.hostResp == some 0x000) := by decide
theorem test_setDebug_assigns : nextSat (runs [.setDebug true, .setDebug true] boot) (fun t => t.fDebug) := by decide
theorem test_reqReset_sets : nextSat (exec .reqReset boot) (fun t => t.fReset && t.hostResp == some 0x000) := by decide
/-- M6 (a), (d): the first image that fails is reported, and nothing else changes. -/
theorem test_init_config_error :
    nextSat (exec .init { pow with images := ⟨some [0x94], none, some []⟩ })
      (fun t => t == { pow with images := ⟨some [0x94], none, some []⟩, hostResp := some 0x101 }) := by decide
/-- M6 (f), M7: a second `INIT`, and an `INIT` while running. -/
theorem test_init_not_admitted :
    nextSat (exec .init { pow with inited := true }) (fun t => t.hostResp == some 0x1FD)
      && nextSat (exec .init { pow with fPaused := false }) (fun t => t.hostResp == some 0x1FD && !t.inited) := by decide

/-- Three images of the right sizes: BASIC all `0x94`, kernel all `0x03`, character generator all `0xCC`. -/
def sizedImages : Images :=
  ⟨some (List.replicate basicSize 0x94), some (List.replicate kernelSize 0x03), some (List.replicate chargenSize 0xCC)⟩

theorem imageOk_replicate {im : Images} {b : RomBlock} {v : Byte} (h : im.of b = some (List.replicate (blockSize b) v)) :
    imageOk im b = true := by
  simp [imageOk, h]

theorem sizedImages_ok : configErrorCode sizedImages = none := by
  have h1 : imageOk sizedImages .basic = true := imageOk_replicate (v := 0x94) rfl
  have h2 : imageOk sizedImages .kernel = true := imageOk_replicate (v := 0x03) rfl
  have h3 : imageOk sizedImages .chargen = true := imageOk_replicate (v := 0xCC) rfl
  simp [configErrorCode, h1, h2, h3]

/-- M6 (e), R123: `INIT` answers ok, sets `INITED` and loads the BASIC image where its window shows it. -/
theorem test_init_loads :
    ∃ t, exec .init { pow with images := sizedImages } = .next t ∧ t.inited = true ∧ t.hostResp = some 0x000
      ∧ t.readRom 0xA000 = 0x94 := by
  refine ⟨initialised { pow with images := sizedImages }, ?_, rfl, rfl, ?_⟩
  · simp [exec, execInit, State.onInit, State.onHost, pow, State.reset, State.loopInStep, sizedImages_ok]
  · have h := read_loadedRom_in (p := defaultParams) (im := sizedImages) (b := .basic) (a := (0xA000 : Addr).toNat) (by decide)
      sizedImages_ok (by unfold inRomBlock; decide)
    have h0 : (sizedImages.bytes .basic)[0]? = some 0x94 := List.getElem?_replicate_of_lt (by decide)
    have h1 : (0xA000 : Addr).toNat - (blockBase defaultParams .basic).toNat = 0 := by decide
    rw [h1, h0] at h
    rw [State.readRom, initialised, State.respondHost, State.setHostResp_rom, State.setInited_rom, State.setRom_rom]
    exact h

/-- M8: the engine's `reset` runs after the zero-fill, so its writes survive. -/
theorem test_reset_writes_survive :
    nextSat (exec .iter { pow with
        timeIn := some 1, ram := [(0x0003, 0x11)], cfg := scriptedConfig [] [.write 0x0002 0xAA] [] })
      (fun t => t.ram == [(0x0002, 0xAA)]) := by decide
/-- M9: `(STEP)` precedes each `ENG_STEP`. -/
theorem test_step_trace :
    nextSat (script (scriptLine (.setDebug true) :: iterScript 1 1 2) { boot with
        cfg := scriptedConfig [[.read 0xE000, .write 0x0100 0xFF]] [] [] })
      (fun t => t.trace == [.step, .read 0xE000 0xFF, .write 0x0100 0xFF, .step]) := by decide
/-- The strobes one by one (R75, R138 to R140). -/
theorem test_strobes :
    nextSat (exec .engStep boot) (fun t => t.eng.nStep == 1 && t.control == [1, 0])
      && nextSat (exec .engReset boot) (fun t => t.eng.nReset == 1 && t.control == [2, 0] && t.fReset == boot.fReset)
      && nextSat (exec .engIrq boot) (fun t => t.eng.nIrq == 1 && t.control == [4, 0]) := by decide

/-! ### Ports -/

/-- E8, E9: `ITER` on a port, and the right word on the wrong port. -/
theorem test_wrong_port :
    nextSat (step { boot with inbox := [.line .host (.w 0xC0000000)] }) (fun t => t.hostResp == some 0x1FE)
      && nextSat (step { boot with inbox := [.line .host (.w 0x00A00000)] }) (fun t => t.hostResp == some 0x1FE)
      && nextSat (step { boot with inbox := [.line .engine (.w 0x20A00000)] }) (fun t => t.engineResp == some 0x1FE) := by
          decide
/-- The very next step runs the word placed. -/
theorem test_withFetchWord :
    nextSat (step (State.reset.withFetchWord 32 0x40000A01)) (fun t => t.kmRow 1 == 0xFB)
      && nextSat (step (pow.withFetchWord 32 0xC0000000)) (fun t => t.control == [2, 0])
      && nextSat (step (pow.withFetchWord 8 1)) (fun t => t.control == [1, 0]) := by decide

/-- U15: a time before the last sample. -/
theorem test_clock_steps_back :
    (step { boot with clock := 7, inbox := [.now 6] } matches .refused .clockSteppedBack)
      && nextSat (step { boot with clock := 7, inbox := [.now 7] }) (fun t => t.timeIn == some 0) := by decide

/-! ### Interleavings -/

/-- H4: a key pressed between the reads of rows 0 and 1 of one scan is not seen there. -/
theorem test_key_during_scan :
    (match runTurn ⟨.step, .free 0, [], .scan 0xFC 0xFF 0⟩ boot with
      | (some run, s) => run.bus == .scan 0xFC 0xFF 1 && s.km == boot.km
      | _ => false)
      && (match runTurn ⟨.step, .free 0, [], .scan 0xFC 0xFF 1⟩ { boot with km := boot.km.set 0 0xF7 } with
        | (some run, _) => run.bus == .scan 0xFC 0xFF 2
        | _ => false) := by decide
/-- D31, R194: the host peeks between two byte writes of an `INIT`, before its zero-fill has come to the byte, and after its copy of
the first image byte. -/
theorem test_peek_during_init :
    nextSat (step { pow with
          ram := [(0x0400, 0x41)], calls := [.init pow.images (.ramFill 0 7)], inbox := [scriptLine (.peekRam 0x0400)] })
      (fun t => t.hostResp == some 0x041 && t.hostInInit)
      && nextSat (script [.callTurn 0, scriptLine (.peekRom 0xA000)]
        { pow with calls := [.init ⟨some [0x94], none, none⟩ (.copy .basic 0)] })
        (fun t => t.hostResp == some 0x094 && t.calls == [.init ⟨some [0x94], none, none⟩ (.copy .basic 1)]) := by decide
/-- The engine of H8. -/
def nmiConfig : Configuration := ⟨defaultParams, .scripted ⟨[], [], [], [.write 0x01FF 0xE0]⟩, by decide⟩
/-- R57, R188: a `KEY_SET` between the transactions of the host's `nmi`. -/
theorem test_key_during_nmi :
    nextSat (script [.beginNmi, .callTurn 0, scriptLine (.keySet 1 2 true)]
        { boot with cfg := nmiConfig })
      (fun t => t.kmRow 1 == 0xFB && t.readRam 0x01FF == 0xE0 && t.hostInNmi) := by decide
/-- H1: a request that falls between A2 and A5 is cleared with the one in service. -/
theorem test_lost_reset :
    nextSat (exec .reqReset { boot with loop := .a5, fReset := true })
      (fun t => nextSat (loopTurn t) (fun u => !u.fReset && u.loop == .a6)) := by decide
/-- H2: the flag is read before the step, so a pause that comes after the read does not hold it back. -/
theorem test_late_pause :
    nextSat (loopTurn { boot with loop := .a7 })
      (fun t => nextSat (exec (.reqPause true) t) (fun u => nextSat (exec .iter { u with timeIn := some 1 })
        (fun v => v.eng.nStep == 1))) := by decide

/-! ### Witnesses: for every statement of Obligations.lean that has hypotheses, states and operands that meet them together, at
    the
boundary values of each clause -/

/-- `pow` with an inbox. -/
def withEvents (evs : List Event) : State := { pow with inbox := evs }

/-- `pow` after `STOPPED = 1`. -/
def halted : State := { pow with stopped := true, fQuit := true }

/-- `boot` with the sequencer inside its engine's `step`, begun from the engine's state. -/
def stepping : State := { boot with loop := .inEngine ⟨.step, .called .step boot.eng, [], .idle⟩, control := [1] }

/-- A configuration that polls in a reset iteration, with an engine whose `reset` opens the gate. -/
def pollingConfig : Configuration :=
  ⟨{ defaultParams with resetIterPollsTimer := true }, .scripted ⟨[], [.write 0xDC0D 1], [], []⟩, by decide⟩

theorem witness_EveryWordHasOneMeaning :
    decode (.w 0x40003F01) = .ok (.keySet 7 7 true) ∧ decode (.w 0x1FFFFFF) = .error .zNotZero
      ∧ decode (.c 4) = .ok .engIrq := by decide
theorem witness_WordsThatDecode :
    ((opField 0xC0000000).toNat ≤ 0xC ∧ tableWordOk 0xC0000000 = true)
      ∧ (¬ (opField 0xD0000000).toNat ≤ 0xC) ∧ tableWordOk 0x40004001 = false ∧ tableWordOk 0x01000000 = false := by decide
theorem witness_RefusedWordsChangeNothing :
    (∃ (s : State) (w : Word), s.stopped = false ∧ s.inbox = [.line .engine (.w w)] ∧ tableWordOk w = false)
      ∧ (∃ (s : State) (w : Word), s.stopped = false ∧ s.inbox = [.line .engine (.w w)] ∧ tableWordOk w = true ∧ opPort
          (opField w) ≠ some .engine)
      ∧ (∃ (s : State) (w : Word), s.stopped = false ∧ s.inbox = [.line .host (.w w)] ∧ s.waitStop = false ∧ tableWordOk w =
          false)
      ∧ (∃ (s : State) (w : Word), s.stopped = false ∧ s.inbox = [.line .host (.w w)] ∧ s.waitStop = false ∧ opPort
          (opField w) ≠ some .host) :=
  ⟨⟨withEvents [.line .engine (.w 0x00A00001)], _, by decide, rfl, by decide⟩,
    ⟨withEvents [.line .engine (.w 0x20000000)], _, by decide, rfl, by decide, by decide⟩,
    ⟨withEvents [.line .host (.w 0x600001FD)], _, by decide, rfl, by decide, by decide⟩,
    ⟨withEvents [.line .host (.w 0xC0000000)], _, by decide, rfl, by decide, by decide⟩⟩
theorem witness_StepRunsDecodedInstruction :
    (∃ (s : State) (i : Instr), s.inbox = [.line .host (.w 0x20FFFF00)] ∧ decode (.w 0x20FFFF00) = .ok i ∧ i.source = .host ∧
        s.waitStop = false ∧ i ≠ .init ∧ s.hostInInit = true)
      ∧ (∃ (s : State) (i : Instr), s.inbox = [.line .host (.w 0x70000000)] ∧ decode (.w 0x70000000) = .ok i ∧ i.source = .host ∧
          s.waitStop = false ∧ i = .init ∧ s.hostInInit = false)
      ∧ (∃ (s : State) (i : Instr), s.inbox = [.line .host (.w 0x70000000)] ∧ decode (.w 0x70000000) = .ok i ∧ i.source = .host ∧
          s.waitStop = false ∧ i = .init ∧ s.stopped = true ∧ s.hostInInit = true)
      ∧ (∃ (s : State) (i : Instr), s.inbox = [.line .engine (.w 0x10DC007D)] ∧ decode
          (.w 0x10DC007D) = .ok i ∧ i.source = .engine
          ∧ s.waitStop = true)
      ∧ (∃ (s : State) (i : Instr), s.inbox = [.line .sequencer (.w 0xC0000000)] ∧ decode
          (.w 0xC0000000) = .ok i ∧ i.source = .sequencer)
      ∧ (∃ (s : State) (i : Instr), s.inbox = [.line .control (.c 4)] ∧ decode (.c 4) = .ok i ∧ i.source = .control) :=
  ⟨⟨{ withEvents [.line .host (.w 0x20FFFF00)] with calls := [.init pow.images .flag] }, .peekRam 0xFFFF, rfl, by decide, rfl, rfl,
      by decide, rfl⟩,
    ⟨withEvents [.line .host (.w 0x70000000)], .init, rfl, by decide, rfl, rfl, rfl, rfl⟩,
    ⟨{ withEvents [.line .host (.w 0x70000000)] with stopped := true, calls := [.init pow.images .flag] }, .init, rfl, by decide,
      rfl, rfl, rfl, rfl, rfl⟩,
    ⟨{ withEvents [.line .engine (.w 0x10DC007D)] with waitStop := true }, .busWrite 0xDC00 0x7D, rfl, by decide, rfl, rfl⟩,
    ⟨withEvents [.line .sequencer (.w 0xC0000000)], .iter, rfl, by decide, rfl⟩,
    ⟨withEvents [.line .control (.c 4)], .engIrq, rfl, by decide, rfl⟩⟩
theorem witness_SequencerRunsFreely :
    pow.inbox = [] ∧ (∃ (s : State) (ev : Event), s.inbox = [ev] ∧ ev.byHost = true ∧ s.waitStop = true)
      ∧ ∃ (s : State) (ev : Event), s.inbox = [ev] ∧ ev.startsInit = true ∧ s.waitStop = false ∧ s.hostInInit = true
        ∧ s.stopped = false :=
  ⟨rfl, ⟨{ withEvents [.nmi] with waitStop := true }, .nmi, rfl, rfl, rfl⟩,
    { withEvents [scriptLine .init] with calls := [.nmi ⟨.nmi, .free 0, [], .idle⟩, .init pow.images .flag] }, scriptLine .init, rfl,
    by decide, rfl, rfl, rfl⟩
theorem witness_ReadDecodePriority :
    region defaultParams 0x9FFF = .ram ∧ region defaultParams 0xA000 = .basic ∧ region defaultParams 0xBFFF = .basic
      ∧ region defaultParams 0xC000 = .ram ∧ region defaultParams 0xDC01 = .keyboard ∧ region defaultParams 0xDFFF = .ram
      ∧ region defaultParams 0xE000 = .kernel ∧ region defaultParams 0xFFFF = .kernel ∧ defaultParams.legal = true
      ∧ pow.ram.wf = true ∧ pow.stopped = false := by decide
theorem witness_BusReadAnswersDecodedByte :
    boot.stopped = false ∧ (0xDC00 : Addr) ≠ boot.cfg.params.kbdDataAddr ∧ (0xBFFF : Addr) ≠ boot.cfg.params.kbdDataAddr
      ∧ (0xE000 : Addr) ≠ boot.cfg.params.kbdDataAddr := by decide
theorem witness_KeyboardPortRead : boot.stopped = false ∧ boot.ram.wf = true ∧ { boot with fDebug := true }.fDebug = true := by
  decide
theorem witness_BusWriteLandsInRam :
    boot.stopped = false ∧ boot.ram.wf = true ∧ region boot.cfg.params 0xBFFF = .basic
      ∧ region boot.cfg.params 0xE000 = .kernel := by decide
theorem witness_ReadAfterWrite :
    boot.stopped = false ∧ boot.ram.wf = true ∧ shadowed boot.cfg.params 0xDC00 = false
      ∧ ∀ w ∈ [((0xDC01 : Addr), (0 : Byte)), (0xA000, 1), (0xDC01, 2)], w.1 ≠ 0xDC00 :=
  ⟨by decide, by decide, by decide, by simp⟩
theorem witness_RomWindowReadIgnoresRam : region boot.cfg.params 0xA000 = .basic ∧ region boot.cfg.params 0xFFFF = .kernel := by
  decide
/-- For the statements about a host command whose only hypothesis is that the machine has not stopped: `PEEK_RAM`, `PEEK_ROM`,
`KEY_SET`, `KEY_GET`, `KEY_SCAN` (a row selected with a key held, and one with none), the round trip, and the flag commands. -/
theorem witness_HostCommands :
    pow.stopped = false ∧ ∃ s : State, s.stopped = false ∧ (s.kmRow 7).getLsbD 7 = false ∧ (s.kmRow 0).getLsbD 7 = true :=
  ⟨rfl, { pow with km := pow.km.set 7 0x7F }, by decide⟩
theorem witness_ScanReduction : (0 : BitVec 3) ≠ 7 := by decide
theorem witness_InitLoadsFirmware :
    ∃ (s : State) (b k c : List Byte), s.stopped = false ∧ s.inited = false ∧ s.fPaused = true ∧ s.loopInStep = false
      ∧ s.images = ⟨some b, some k, some c⟩ ∧ b.length = 8192 ∧ k.length = 8192 ∧ c.length = 4096 :=
  ⟨{ pow with images := sizedImages }, _, _, _, rfl, rfl, rfl, rfl, rfl, List.length_replicate, List.length_replicate,
    List.length_replicate⟩
theorem witness_InitReportsFirstBadImage :
    (pow.stopped = false ∧ pow.inited = false ∧ pow.fPaused = true ∧ pow.loopInStep = false ∧ pow.images.basic = none)
      ∧ (∃ (s : State) (b : List Byte), s.stopped = false ∧ s.inited = false ∧ s.fPaused = true ∧ s.loopInStep = false
          ∧ s.images.basic = some b ∧ b.length = 8192 ∧ s.images.kernel = some [0])
      ∧ (∃ (s : State) (b k : List Byte), s.stopped = false ∧ s.inited = false ∧ s.fPaused = true ∧ s.loopInStep = false
          ∧ s.images.basic = some b ∧ b.length = 8192 ∧ s.images.kernel = some k ∧ k.length = 8192
          ∧ s.images.chargen = none) :=
  ⟨by decide, ⟨{ pow with images := { sizedImages with kernel := some [0] } }, _, rfl, rfl, rfl, rfl, rfl,
      List.length_replicate, rfl⟩,
    ⟨{ pow with images := { sizedImages with chargen := none } }, _, _, rfl, rfl, rfl, rfl, rfl, List.length_replicate, rfl,
      List.length_replicate, rfl⟩⟩
theorem witness_InitNotAdmitted :
    (boot.stopped = false ∧ boot.fPaused = false) ∧ { pow with inited := true }.inited = true
      ∧ ∃ s : State, s.stopped = false ∧ s.fPaused = true ∧ s.inited = false ∧ s.loopInStep = true :=
  ⟨by decide, rfl, { stepping with fPaused := true, inited := false }, by decide⟩
theorem witness_ReqStopWaitsForTheSequencer : boot.stopped = false ∧ boot.loop = .top := by decide
theorem witness_FsmTransitions :
    (pow.fsm = .uninitialized ∧ ∃ t, exec .init pow = .next t)
      ∧ (∃ t, exec (.reqPause false) pow = .next t) ∧ (∃ t, exec (.reqPause true) boot = .next t)
      ∧ (boot.fsm = .running ∧ ∃ t, exec .reqReset boot = .next t) ∧ (∃ t, exec .reqStop boot = .next t)
      ∧ ({ boot with fPaused := true }.fsm = .idle)
      ∧ (pow.loop = .top ∧ pow.fQuit = false ∧ pow.fReset = true ∧ ∃ t, exec .iter pow = .next t)
      ∧ ({ pow with fQuit := true }.fsm ≠ .stopped ∧ ∃ t, exec .iter { pow with fQuit := true } = .next t)
      ∧ (halted.fsm = .stopped ∧ ∃ t, exec .iter halted = .next t) :=
  ⟨⟨by decide, _, rfl⟩, ⟨_, rfl⟩, ⟨_, rfl⟩, ⟨by decide, _, rfl⟩, ⟨_, rfl⟩, by decide, ⟨rfl, rfl, rfl, _, rfl⟩,
    ⟨by decide, _, rfl⟩, ⟨by decide, _, rfl⟩⟩
theorem witness_StoppedRefusesEverything :
    halted.stopped = true ∧ (Instr.busRead 0).source = .engine ∧ (Instr.keyGet 7 7).source = .host
      ∧ Instr.iter.source = .sequencer ∧ Instr.engIrq.source = .control := by decide
theorem witness_Inv_halted : halted.Inv :=
  ⟨rfl, rfl, by decide, fun _ => ⟨rfl, rfl⟩, fun h => (by cases h), fun h => (by cases h), by decide, rfl, trivial⟩
theorem witness_StoppedIsTerminal :
    halted.stopped = true ∧ halted.calls = [] ∧ (∃ t, step halted = .next t)
      ∧ ∃ t, step { halted with inbox := [.line .host (.w 0x40003F01)] } = .next t :=
  ⟨rfl, rfl, ⟨_, rfl⟩, ⟨_, rfl⟩⟩
theorem witness_QuitIterationOnlyStops :
    ∃ s : State, s.stopped = false ∧ s.loop = .top ∧ s.fQuit = true ∧ s.waitStop = true :=
  ⟨{ pow with fQuit := true, waitStop := true }, by decide⟩
theorem witness_PausedIterationOnlyReloads :
    ∃ s : State, s.stopped = false ∧ s.loop = .top ∧ s.fQuit = false ∧ s.fReset = false ∧ s.fPaused = true ∧ s.timeIn = some 0 :=
  ⟨{ pow with fReset := false, timeIn := some 0 }, by decide⟩
/-- Both sides of the threshold, and above it both values of the gate. -/
theorem witness_RunningIterationStepsThenPolls :
    (boot.stopped = false ∧ boot.loop = .top ∧ boot.fQuit = false ∧ boot.fReset = false ∧ boot.fPaused = false
        ∧ boot.hostInInit = false ∧ boot.engineBusy = false)
      ∧ nextSat (exec .iter (gated 16665)) (fun t => t.clock == 16665) = true
      ∧ nextSat (exec .iter (gated 16666)) (fun t => t.clock == 16666) = true
      ∧ boot.lft = 0
      ∧ (stepEngine (gated 16666)).gateOpen = true ∧ (stepEngine boot).gateOpen = false := by decide
/-- Paused, running, and running with the poll of a reset iteration switched on: below the threshold, and from it on with the gate
closed and open. -/
theorem witness_ResetIterationServices :
    (pow.stopped = false ∧ pow.loop = .top ∧ pow.fQuit = false ∧ pow.fReset = true ∧ pow.fPaused = true)
      ∧ ({ pow with fPaused := false }.cfg.params.resetIterPollsTimer = false)
      ∧ nextSat (exec .iter { pow with timeIn := some 7 }) (fun t => t.clock == 7 && t.timeIn == none && t.lft == 7) = true
      ∧ (∃ s : State, s.fReset = true ∧ s.fPaused = false ∧ s.cfg.params.resetIterPollsTimer = true
          ∧ nextSat (exec .iter s) (fun t => t.clock == 16665) = true)
      ∧ (∃ s : State, s.fReset = true ∧ s.fPaused = false ∧ s.cfg.params.resetIterPollsTimer = true
          ∧ (resetServed s).gateOpen = true ∧ nextSat (exec .iter s) (fun t => t.clock == 16666) = true)
      ∧ ∃ s : State, s.fReset = true ∧ s.fPaused = false ∧ s.cfg.params.resetIterPollsTimer = true
          ∧ (resetServed s).gateOpen = false ∧ nextSat (exec .iter s) (fun t => t.clock == 16666) = true :=
  ⟨by decide, rfl, by decide, ⟨{ pow with fPaused := false, timeIn := some 16665, cfg := pollingConfig }, by decide⟩,
    ⟨{ pow with fPaused := false, timeIn := some 16666, cfg := pollingConfig }, by decide⟩,
    { pow with fPaused := false, timeIn := some 16666, cfg := quietPollingConfig },
    by decide⟩
/-- Program P1's engine, whose `reset` reads its vectors; and one whose `reset` reads the keyboard port, with the gate's cell elsewhere. -/
theorem witness_ResetIterationZeroesRam :
    (∃ s : State, s.stopped = false ∧ s.loop = .top ∧ s.fQuit = false ∧ s.fReset = true ∧ s.engineBusy = false
      ∧ writesNothing (engineCall s.cfg.engine .reset s.eng)
        (((s.setDraws (s.draws + 1)).setRam Memory.zero).showControl 0b010) = true
      ∧ readsNothingAt s.cfg.params.kbdDataAddr (engineCall s.cfg.engine .reset s.eng)
        (((s.setDraws (s.draws + 1)).setRam Memory.zero).showControl 0b010) = true)
    ∧ ∃ s : State, s.stopped = false ∧ s.loop = .top ∧ s.fQuit = false ∧ s.fReset = true ∧ s.engineBusy = false
      ∧ writesNothing (engineCall s.cfg.engine .reset s.eng)
        (((s.setDraws (s.draws + 1)).setRam Memory.zero).showControl 0b010) = true
      ∧ s.cfg.params.irqEnAddr ≠ s.cfg.params.kbdDataAddr :=
  ⟨⟨{ pow with cfg := scriptedConfig [] [.read 0xFFFC, .read 0xFFFD] [] }, by decide⟩,
    { pow with cfg := scriptedConfig [] [.read 0xDC01] [] }, by decide⟩
/-- Every outcome it names: no strobe, one, and one with a request, after a step and after a reset that opens the gate. -/
theorem witness_AtMostOneRequestPerIteration :
    nextSat (exec .iter { pow with fReset := false }) (fun t => t.control == []) = true
      ∧ nextSat (exec .iter (gated 16665)) (fun t => t.control == [1, 0]) = true
      ∧ nextSat (exec .iter pow) (fun t => t.control == [2, 0]) = true := by decide
theorem witness_AtMostOneRequestPerIteration_irq :
    nextSat (exec .iter (gated 16666)) (fun t => t.control == [1, 0, 4, 0]) = true
      ∧ nextSat (exec .iter { pow with fPaused := false, timeIn := some 16666, cfg := pollingConfig })
        (fun t => t.control == [2, 0, 4, 0]) = true := by decide
theorem witness_TimerPollCompares :
    16665 - boot.lft < 16666 ∧ 16666 ≤ 16666 - boot.lft
      ∧ (boot.readRam boot.cfg.params.irqEnAddr).getLsbD boot.cfg.params.irqEnBit.toNat = false
      ∧ ((gated 0).readRam boot.cfg.params.irqEnAddr).getLsbD boot.cfg.params.irqEnBit.toNat = true := by
  have h : boot.lft = 0 := rfl
  exact ⟨by omega, by omega, by decide, by decide⟩
theorem witness_StrobesInvokeTheEngine : boot.stopped = false ∧ boot.engineBusy = false ∧ boot.hostInInit = false := by decide
/-- An operation in progress on either thread, and a beginning of one. -/
theorem witness_EngineCannotReachTheRest :
    (gated 0).ram.wf = true ∧ boot.engineBusy = false
      ∧ (stepping.stopped = false ∧ ∃ run, stepping.loop = .inEngine run)
      ∧ (∃ run, { boot with calls := [.nmi run] }.calls[0]? = some (.nmi run))
      ∧ ∃ t, startTurn .step boot = .next t :=
  ⟨by decide, by decide, ⟨rfl, _, rfl⟩, ⟨⟨.nmi, .free 0, [], .idle⟩, rfl⟩, _, rfl⟩
theorem witness_StepKeepsTheInvariant :
    pow.Inv ∧ ∃ t, step pow = .next t :=
  ⟨⟨rfl, rfl, by decide, fun h => (by cases h), fun h => (by cases h), fun h => (by cases h), by decide, rfl, trivial⟩,
    _, rfl⟩
theorem witness_RomIsFixedOnceInitialised : boot.inited = true ∧ boot.hostInInit = false ∧ ∃ t, step boot = .next t :=
  ⟨rfl, rfl, _, rfl⟩
/-- A step that is a `KEY_SET` and changes the matrix, and one that is not. -/
theorem witness_OnlyKeySetChangesKeys :
    nextSat (step { boot with inbox := [.line .host (.w 0x40003F01)] }) (fun t => t.km != boot.km)
      && nextSat (step (gated 1)) (fun t => t.km == boot.km) := by decide
theorem witness_TimeNeverGoesBack : boot.lft ≤ boot.clock ∧ ∃ t, step boot = .next t := ⟨by decide, _, rfl⟩
theorem witness_LatchedBitsStay :
    halted.stopped = true ∧ halted.fQuit = true ∧ boot.inited = true ∧ ∃ t, step halted = .next t := ⟨rfl, rfl, rfl, _, rfl⟩
theorem witness_ConfigurationIsFixed : ∃ t, step boot = .next t := ⟨_, rfl⟩
theorem witness_NoTraceWithoutDebug : boot.fDebug = false ∧ ∃ t, step boot = .next t := ⟨rfl, _, rfl⟩
/-- A state in the middle of an `INIT`, with these events before it. -/
def initialising (evs : List Event) : State := { boot with calls := [.init boot.images .flag], inbox := evs }

/-- Each refusal: an engine step that meets an `INIT`, an `INIT` that meets an engine step, a word where none can stand, a clock that
steps back, a strobe while one is active. -/
theorem witness_StepRefusesOnlyTheUndefined :
    step (initialising []) = .refused .initDuringStep
      ∧ step { stepping with fPaused := true, inited := false, inbox := [.line .host (.w 0x70000000)] } = .refused .initDuringStep
      ∧ step { boot with inbox := [.line .sequencer (.w 0x80000000)] } = .refused .notOnThisLine
      ∧ step { boot with inbox := [.line .control (.c 0b011)] } = .refused .notOnThisLine
      ∧ step { boot with clock := 1, inbox := [.now 0] } = .refused .clockSteppedBack
      ∧ step { stepping with inbox := [.line .control (.c 0b100)] } = .refused .strobeActive :=
  ⟨rfl, rfl, rfl, rfl, rfl, rfl⟩
/-- Each way an engine step meets an `INIT`: the word `ITER`, an iteration in place of a host event that waits, the loop thread's turn
at A8, the word `ENG_STEP`. -/
theorem witness_StepRefusesOnlyTheUndefined_step :
    step (initialising [.line .sequencer (.w 0xC0000000)]) = .refused .initDuringStep
      ∧ step { initialising [.nmi] with waitStop := true } = .refused .initDuringStep
      ∧ step { initialising [.loopTurn] with loop := .start .step } = .refused .initDuringStep
      ∧ step (initialising [.line .control (.c 0b001)]) = .refused .initDuringStep := ⟨rfl, rfl, rfl, rfl⟩
/-- What goes on during an `INIT`: a host command, a time shown, an iteration of a paused machine, a turn at another place. -/
theorem test_init_in_progress_admits_the_rest :
    nextSat (step (initialising [.line .host (.w 0x20A00100)])) (fun t => t.hostResp == some (okResponse 0) && t.hostInInit)
      && nextSat (step (initialising [.line .host (.w 0x40003F01)])) (fun t => t.km != boot.km && t.hostInInit)
      && nextSat (step (initialising [.now 7])) (fun t => t.timeIn == some 7)
      && nextSat (step { initialising [] with fPaused := true }) (fun t => t.control == [])
      && nextSat (step (initialising [.loopTurn])) (fun t => t.hostInInit) = true := by decide
theorem witness_TraceHasNoEffect : SameButTrace boot { boot with fDebug := true, trace := [.step] } := rfl
theorem witness_MemoryLaws :
    Memory.wf [(0, 1), (0xFFFF, 0xFF)] = true ∧ Memory.wf [(1, 0)] = false ∧ Memory.wf [(2, 1), (1, 1)] = false
      ∧ Memory.wf [(0x10000, 1)] = false := by decide
/-- From the first action, from inside a step, from inside a zero-fill. -/
theorem witness_IterationIsItsTurns :
    (boot.ram.wf = true ∧ ∃ t, exec .iter boot = .next t) ∧ (∃ t, exec .iter stepping = .next t)
      ∧ ∃ t, exec .iter { pow with loop := .fill 0xFFFF 0 } = .next t :=
  ⟨⟨by decide, _, rfl⟩, ⟨_, rfl⟩, ⟨_, rfl⟩⟩
/-- Beside whatever else the host has in progress. -/
theorem witness_InitIsItsTurns (cs : List HostCall) :
    ∃ s u : State, s.ram.wf = true ∧ s.rom.wf = true ∧ s.waitStop = false ∧ s.calls = cs ∧ beginInit s = .next u
      ∧ u.calls ≠ s.calls := by
  refine ⟨{ pow with images := sizedImages, calls := cs },
    { pow with images := sizedImages, calls := cs ++ [.init sizedImages (.ramFill 0 0)], draws := 1 }, rfl, rfl, rfl, rfl, ?_, ?_⟩
  · simp [beginInit, State.onInit, State.onHost, pow, State.reset, State.loopInStep, sizedImages_ok, State.setDraws,
      State.setCalls, State.setHostResp]
  · simp
theorem witness_HostSeesInitHalfDone :
    (0x0000 : Addr) ≠ 0xFFFF ∧ ∃ s u : State, s.ram.wf = true ∧ s.rom.wf = true ∧ s.waitStop = false ∧ s.calls = []
      ∧ beginInit s = .next u ∧ u.calls ≠ s.calls :=
  ⟨by decide, witness_InitIsItsTurns []⟩
theorem witness_NmiAndKeyScanAreTheirTurns : boot.stopped = false := rfl
theorem witness_ShownTimeIsTheSample :
    ∃ s : State, s.inbox = [.now 5, .now 4] ∧ s.clock = 5 ∧ s.clock ≤ 5 ∧ 4 < s.clock :=
  ⟨{ withEvents [.now 5, .now 4] with clock := 5 }, rfl, rfl, by decide, by decide⟩
/-- The first and the last moment at which a request is absorbed, and those between. -/
theorem witness_RequestDuringServiceIsAbsorbed :
    boot.stopped = false ∧ (∃ k order, { boot with loop := .fill 0 7 }.loop = .fill k order)
      ∧ (∃ run, { boot with loop := .inEngine ⟨.reset, .free 0, [], .idle⟩ }.loop = .inEngine run ∧ run.op = .reset)
      ∧ { boot with loop := .start .reset }.loop = .start .reset ∧ { boot with loop := .a5 }.loop = .a5 :=
  ⟨rfl, ⟨_, _, rfl⟩, ⟨_, rfl, rfl⟩, rfl, rfl⟩
theorem witness_LatePauseStillSteps :
    ∃ s : State, s.stopped = false ∧ s.loop = .a7 ∧ s.fPaused = false ∧ s.hostInInit = false :=
  ⟨{ boot with loop := .a7 }, by decide⟩
theorem witness_KeyChangeDuringScan : (0 : Nat) ≤ 8 ∧ (8 : Nat) ≤ 8 := by decide
theorem witness_OverlapFreesBothOperations : ∃ run, stepping.loop = .inEngine run := ⟨_, rfl⟩
theorem witness_QuietNmiOnlyRunsTheEngine : boot.engineBusy = false := by decide
theorem witness_BootReachesRunning :
    ∃ (s : State) (im : Images), s.inbox = bootScript im ∧ s.waitStop = false ∧ s.hostInInit = false ∧ s.loop = .top ∧ s.stopped = false
      ∧ s.fQuit = false ∧ s.inited = false ∧ s.fPaused = true ∧ ∀ b, imageOk im b = true :=
  ⟨{ pow with inbox := bootScript sizedImages }, sizedImages, rfl, rfl, rfl, rfl, rfl, rfl, rfl, rfl,
    configErrorCode_none_iff.1 sizedImages_ok⟩

end Sys2Proof.Tests
end

section
/-! What the read and the write of a bus transaction resolve to (spec/20_memory.md R45). -/
namespace Sys2Proof.Machine

theorem exec_busRead (a : Addr) (s : State) : exec (.busRead a) s = .next (busRead a s).2 := rfl

theorem exec_busWrite (a : Addr) (v : Byte) (s : State) : exec (.busWrite a v) s = .next (busWrite a v s) := rfl

@[simp] theorem finishBus_engineResp (s : State) (rec : TraceRec) (v : Byte) :
    (s.finishBus rec v).engineResp = some (okResponse v) := by
  rw [State.finishBus_eq, State.setEngineResp_engineResp]

@[simp] theorem finishBus_readRam (s : State) (rec : TraceRec) (v : Byte) (b : Addr) :
    (s.finishBus rec v).readRam b = s.readRam b := by
  rw [State.readRam, finishBus_ram, State.readRam]

theorem BusEffect.rom_eq {s t : State} (h : BusEffect s t) : t.rom = s.rom := by
  unfold BusEffect at h; rw [h]

theorem BusEffect.km_eq {s t : State} (h : BusEffect s t) : t.km = s.km := by
  unfold BusEffect at h; rw [h]

/-- A write lands in `RAM` at its own address, whatever a read of that address resolves to (R45, R89). -/
theorem readRam_busWrite {s : State} (hw : s.ram.wf = true) (hs : s.stopped = false) (a b : Addr) (v : Byte) :
    (busWrite a v s).readRam b = if b = a then v else s.readRam b := by
  rw [busWrite_eq hs, finishBus_readRam, State.readRam_writeRam hw]

theorem engineResp_busRead_keyboard {s : State} {a : Addr} (hs : s.stopped = false)
    (ha : region s.cfg.params a = .keyboard) :
    (busRead a s).2.engineResp = some (okResponse (scan s.km s.rowSelectMask)) := by
  rw [busRead_keyboard hs ha, finishBus_engineResp]

theorem engineResp_busRead_array {s : State} {a : Addr} (hs : s.stopped = false)
    (ha : region s.cfg.params a ≠ .keyboard) :
    (busRead a s).2.engineResp = some (okResponse (arrayRead (region s.cfg.params a) a s)) := by
  rw [busRead_array hs ha, finishBus_engineResp]

/-- The decode with its window tests written as bounds on the address (R45). -/
theorem region_eq_of_bounds (p : Params) (a : Addr) :
    region p a =
      if a = p.kbdDataAddr then .keyboard
      else if p.basicBase.toNat ≤ a.toNat ∧ a.toNat < p.basicBase.toNat + 8192 then .basic
      else if p.kernelBase.toNat ≤ a.toNat ∧ a.toNat < p.kernelBase.toNat + 8192 then .kernel
      else .ram := by
  simp only [region, inBlock_iff, basicSize, kernelSize]

end Sys2Proof.Machine

open Sys2Proof Sys2Proof.Machine

/-- Settles O8: the read decode by the bounds of its windows, their disjointness from R7, a read by the region of its
address, a write by its effect on `RAM`. -/
theorem readDecodePriority : Obligations.ReadDecodePriority := by
  refine ⟨region_eq_of_bounds, fun p a hp => ?_, fun s a hs => ⟨_, exec_busRead a s, ?_⟩,
    fun s a v hw hs => ⟨_, exec_busWrite a v s, ?_, (busEffect_busWrite a v s).rom_eq,
      (busEffect_busWrite a v s).km_eq⟩⟩
  · obtain ⟨hwindows, hbasic, hkernel⟩ := legal_regions_apart hp
    refine ⟨?_, ?_, fun ⟨hb, hb', hk⟩ => hwindows a.toNat ⟨inBlock_iff.2 ⟨hb, hb'⟩, inBlock_iff.2 hk⟩⟩
    · rintro ⟨rfl, hb⟩
      exact Bool.false_ne_true (hbasic.symm.trans (inBlock_iff.2 hb))
    · rintro ⟨rfl, hk⟩
      exact Bool.false_ne_true (hkernel.symm.trans (inBlock_iff.2 hk))
  · by_cases ha : region s.cfg.params a = .keyboard
    · rw [engineResp_busRead_keyboard hs ha, ha, State.rowSelectMask]
    · rw [engineResp_busRead_array hs ha]
      cases hr : region s.cfg.params a with
      | keyboard => exact absurd hr ha
      | basic => rfl
      | kernel => rfl
      | ram => rfl
  · rw [readRam_busWrite hw hs, if_pos rfl]

end

section
/-! A word that decodes is the encoding of what it decodes to, and has the fixed bits of its row and the code of its port
(spec/30_encoding.md R66, R67, R71, R72, R78). -/
namespace Sys2Proof
open Sys2Proof.Machine

/-- A decoder check passes what follows it just when its condition holds. -/
theorem ite_error_eq_ok {p : Prop} [Decidable p] {k : Except DecodeError Instr} {e : DecodeError} {i : Instr} :
    (if p then k else .error e) = .ok i ↔ p ∧ k = .ok i := by
  split <;> simp [*]

theorem needA0_eq_ok {a : Addr} {k : Except DecodeError Instr} {i : Instr} :
    needA0 a k = .ok i ↔ a = 0 ∧ k = .ok i := ite_error_eq_ok

theorem needD0_eq_ok {d : Byte} {k : Except DecodeError Instr} {i : Instr} :
    needD0 d k = .ok i ↔ d = 0 ∧ k = .ok i := ite_error_eq_ok

theorem packCoordinate_eq_iff {a : Addr} :
    packCoordinate (rowField a) (colField a) = a ↔ a.extractLsb' 6 10 = 0 :=
  ⟨fun e => e ▸ (coordinate_fields (rowField a) (colField a)).2.2, packCoordinate_fields⟩

theorem packBool_eq_iff {d : Byte} : packBool (boolField d) = d ↔ d.extractLsb' 1 7 = 0 :=
  ⟨fun e => e ▸ (bool_fields (boolField d)).2, packBool_field⟩

theorem needCoordinate_eq_ok {a : Addr} {k : Except DecodeError Instr} {i : Instr} :
    needCoordinate a k = .ok i ↔ packCoordinate (rowField a) (colField a) = a ∧ k = .ok i := by
  rw [packCoordinate_eq_iff]; exact ite_error_eq_ok

theorem needBool_eq_ok {d : Byte} {k : Except DecodeError Instr} {i : Instr} :
    needBool d k = .ok i ↔ packBool (boolField d) = d ∧ k = .ok i := by
  rw [packBool_eq_iff]; exact ite_error_eq_ok

/-- One case per operation code: its must-be-zero checks give the operand fields back, packed (the table of R67). -/
theorem encode_of_decodeFields {op : BitVec 4} {a : Addr} {d : Byte} {i : Instr} (h : decodeFields op a d = .ok i) :
    encode i = .w (packWord op a d) := by
  have hop : op = BitVec.ofNat 4 op.toNat := by simp
  rw [hop]
  unfold decodeFields at h
  generalize op.toNat = n at h ⊢
  split at h <;>
    simp only [needA0_eq_ok, needD0_eq_ok, needCoordinate_eq_ok, needBool_eq_ok, Except.ok.injEq, reduceCtorEq] at h
  · obtain ⟨rfl, rfl⟩ := h; rfl
  · obtain rfl := h; rfl
  · obtain ⟨rfl, rfl⟩ := h; rfl
  · obtain ⟨rfl, rfl⟩ := h; rfl
  · obtain ⟨ha, hd, rfl⟩ := h; rw [encode, ha, hd]; rfl
  · obtain ⟨ha, rfl, rfl⟩ := h; rw [encode, ha]; rfl
  · obtain ⟨rfl, rfl⟩ := h; rfl
  · obtain ⟨rfl, rfl, rfl⟩ := h; rfl
  · obtain ⟨rfl, rfl, rfl⟩ := h; rfl
  · obtain ⟨rfl, hd, rfl⟩ := h; rw [encode, hd]; rfl
  · obtain ⟨rfl, rfl, rfl⟩ := h; rfl
  · obtain ⟨rfl, hd, rfl⟩ := h; rw [encode, hd]; rfl
  · obtain ⟨rfl, rfl, rfl⟩ := h; rfl

end Sys2Proof

namespace Sys2Proof.Machine

/-- The row of the operation, for every one of the sixteen. -/
theorem tableRow (i : Instr) : Laws.TableRow.Statement i := by
  cases i with
  | busRead a => exact Laws.TableRow.busRead a
  | busWrite a v => exact Laws.TableRow.busWrite a v
  | peekRam a => exact Laws.TableRow.peekRam a
  | peekRom a => exact Laws.TableRow.peekRom a
  | keySet row col p => exact Laws.TableRow.keySet row col p
  | keyGet row col => exact Laws.TableRow.keyGet row col
  | keyScan m => exact Laws.TableRow.keyScan m
  | init => exact Laws.TableRow.init
  | reqReset => exact Laws.TableRow.reqReset
  | reqPause p => exact Laws.TableRow.reqPause p
  | reqStop => exact Laws.TableRow.reqStop
  | setDebug b => exact Laws.TableRow.setDebug b
  | iter => exact Laws.TableRow.iter
  | engStep => exact Laws.TableRow.engStep
  | engReset => exact Laws.TableRow.engReset
  | engIrq => exact Laws.TableRow.engIrq

theorem encode_of_decode_word {w : Word} {i : Instr} (h : decode (.w w) = .ok i) : encode i = .w w := by
  obtain ⟨hz, hf⟩ := ite_error_eq_ok.1 h
  rw [encode_of_decodeFields hf, packWord_fields hz]

theorem row_of_decode_word {w : Word} {i : Instr} (h : decode (.w w) = .ok i) :
    tableWordOk w = true ∧ (opPort (opField w) = some i.source ∨ i = .iter) := by
  have hrow := tableRow i
  rw [Laws.TableRow.Statement, encode_of_decode_word h] at hrow
  exact hrow

/-- A word that breaks its row or is of another port is no operation of port `src` (R77, R78). -/
theorem source_ne_of_bad_word {w : Word} {src : Source} (hsrc : src ≠ .sequencer)
    (hbad : tableWordOk w = false ∨ opPort (opField w) ≠ some src) :
    ∀ i, decode (.w w) = .ok i → i.source ≠ src := by
  rintro i hd rfl
  obtain ⟨hok, hport⟩ := row_of_decode_word hd
  rcases hbad with hbits | hother
  · exact Bool.false_ne_true (hbits.symm.trans hok)
  · rcases hport with hport | rfl
    · exact hother hport
    · exact hsrc rfl

theorem onLine_eq_refuse {src : Source} {raw : RawWord} (hsrc : src ≠ .control)
    (hbad : ∀ i, decode raw = .ok i → i.source ≠ src) (s : State) : onLine src raw s = .done (s.refuseWord src) := by
  rcases onLine_cases src raw s with ⟨i, hd, hi, _⟩ | ⟨_, hc, _⟩ | he
  · exact absurd hi (hbad i hd)
  · exact absurd hc hsrc
  · exact he

/-- Only an `INIT` word on the host port is held for an `INIT` in progress. -/
theorem startsInit_eq_false {src : Source} {raw : RawWord} (hbad : ∀ i, decode raw = .ok i → i.source ≠ src) :
    (Event.line src raw).startsInit = false := by
  cases hd : decode raw with
  | error e => simp [Event.startsInit, isInitWord, hd]
  | ok i =>
    simp only [Event.startsInit, isInitWord, hd, Bool.and_eq_false_iff, beq_eq_false_iff_ne]
    by_cases hi : i = .init
    · subst hi; exact .inl (hbad _ hd).symm
    · exact .inr hi

/-- A word that is no operation of its command port is taken from the inbox and refused (R77, R78). -/
theorem step_refuses_word {s : State} {src : Source} {raw : RawWord} {rest : List Event}
    (hin : s.inbox = .line src raw :: rest) (hsrc : src ≠ .control) (hwait : src = .host → s.waitStop = false)
    (hbad : ∀ i, decode raw = .ok i → i.source ≠ src) : step s = (s.setInbox rest).refuseWord src := by
  have hfree : ((Event.line src raw).byHost && s.waitStop) = false := by
    by_cases h : src = .host
    · simp [hwait h]
    · simp [Event.byHost, h]
  have hnext : nextEvent s = .done ((s.setInbox rest).refuseWord src) := by
    simp [nextEvent, hin, hfree, startsInit_eq_false hbad, onEvent, onLine_eq_refuse hsrc hbad]
  rw [step, hnext]

theorem refuseWord_engine {s : State} (hs : s.stopped = false) :
    s.refuseWord .engine = .next (s.respondEngine malformed) := by
  simp [State.refuseWord, hs]

theorem refuseWord_host {s : State} (hs : s.stopped = false) :
    s.refuseWord .host = .next (s.respondHost malformed) := by
  simp [State.refuseWord, hs]

end Sys2Proof.Machine

open Sys2Proof Sys2Proof.Machine

/-- Settles O5: a word that decodes to an operation of its port has the bits of its row and the code of that port, so these
words decode to none of it and are answered `malformed`, which is `0x1FE`. -/
theorem refusedWordsChangeNothing : Obligations.RefusedWordsChangeNothing := by
  refine fun s w rest hs => ⟨fun hin hbad => ?_, fun hin hwait hbad => ?_⟩
  · rw [step_refuses_word hin nofun nofun (source_ne_of_bad_word nofun hbad),
      refuseWord_engine (s := s.setInbox rest) hs]
    rfl
  · rw [step_refuses_word hin nofun (fun _ => hwait) (source_ne_of_bad_word nofun hbad),
      refuseWord_host (s := s.setInbox rest) hs]
    rfl

end

section
/-! A scan by the rows its mask selects, and a key's bit through `KEY_SET` and `KEY_GET` (spec/41_keyboard_matrix.md R101 to
R105). -/
namespace Sys2Proof.Machine

/-! ### The scan -/

/-- A column of a scan is 1 just when every selected row has it 1 (R100, R103). -/
theorem scan_bit_iff_rows (s : State) (m : Byte) (col : BitVec 3) :
    (scan s.km m).getLsbD col.toNat = true ↔
      ∀ r : BitVec 3, m.getLsbD r.toNat = false → (s.kmRow r).getLsbD col.toNat = true := by
  rw [scan_bit s.km m col.toNat col.isLt]
  exact ⟨fun h r => h r.toNat r.isLt, fun h k hk => h (BitVec.ofFin ⟨k, hk⟩)⟩

/-- A selected row with the key held clears its column (R104). -/
theorem scan_bit_of_held {s : State} {m : Byte} {row col : BitVec 3} (hm : m.getLsbD row.toNat = false)
    (hheld : (s.kmRow row).getLsbD col.toNat = false) : (scan s.km m).getLsbD col.toNat = false := by
  rw [← Bool.not_eq_true, scan_bit_iff_rows]
  exact fun h => Bool.false_ne_true (hheld.symm.trans (h row hm))

/-- A row without the key leaves its column to the other selected rows (R104). -/
theorem scan_bit_iff_other_rows {s : State} {row col : BitVec 3} (hfree : (s.kmRow row).getLsbD col.toNat = true)
    (m : Byte) :
    (scan s.km m).getLsbD col.toNat = true ↔
      ∀ r : BitVec 3, r ≠ row → m.getLsbD r.toNat = false → (s.kmRow r).getLsbD col.toNat = true := by
  rw [scan_bit_iff_rows]
  refine ⟨fun h r _ => h r, fun h r hm => ?_⟩
  by_cases hr : r = row
  · rw [hr, hfree]
  · exact h r hr hm

/-- A mask selects a row just when it has the row's bit 0, so an AND of masks selects the rows of both (R105). -/
theorem scan_and (km : Vector Byte 8) (m1 m2 : Byte) : scan km (m1 &&& m2) = scan km m1 &&& scan km m2 := by
  apply BitVec.eq_of_getLsbD_eq
  intro c hc
  rw [BitVec.getLsbD_and, Bool.eq_iff_iff, Bool.and_eq_true, scan_bit km _ c hc, scan_bit km _ c hc, scan_bit km _ c hc]
  simp only [BitVec.getLsbD_and, Bool.and_eq_false_iff, or_imp, forall_and]

/-- A mask that selects no row scans to all-ones (R103, I5). -/
theorem scan_none (km : Vector Byte 8) : scan km 0xFF = 0xFF := rfl

/-- The mask of one row selects that row alone. -/
theorem rowMask_bit (row r : BitVec 3) : (~~~((1#8) <<< row.toNat)).getLsbD r.toNat = false ↔ r = row := by
  have hr : r.toNat < 8 := r.isLt
  rw [← keyBit, BitVec.getLsbD_not, keyBit_bit]
  simp [hr]

/-- A scan of one row answers that row (R103). -/
theorem scan_rowMask (s : State) (row : BitVec 3) : scan s.km (~~~((1#8) <<< row.toNat)) = s.kmRow row := by
  apply BitVec.eq_of_getLsbD_eq
  intro c hc
  have hbit := scan_bit_iff_rows s (~~~((1#8) <<< row.toNat)) (BitVec.ofFin ⟨c, hc⟩)
  simp only [rowMask_bit, forall_eq] at hbit
  exact Bool.eq_iff_iff.2 hbit

/-! ### `KEY_SET` and `KEY_GET` -/

theorem onHost_of_running {s : State} (hs : s.stopped = false) (k : Host.Outcome State Fault Refusal) :
    s.onHost k = k := by
  simp [State.onHost, hs]

/-- The matrix is no part of a response. -/
@[simp] theorem kmRow_respondHost (s : State) (q : Response) (r : BitVec 3) : (s.respondHost q).kmRow r = s.kmRow r := rfl

/-- `KEY_SET` answers with the machine running and the key's bit 0 for pressed, 1 for released (R101). -/
theorem exec_keySet_bit {s : State} (hs : s.stopped = false) (row col : BitVec 3) (pressed : Bool) :
    ∃ t, exec (.keySet row col pressed) s = .next t ∧ t.stopped = false
      ∧ (t.kmRow row).getLsbD col.toNat = !pressed := by
  refine ⟨(s.setKmRow row (keyRowAfter (s.kmRow row) col pressed)).respondHost (okResponse 0),
    onHost_of_running hs _, hs, ?_⟩
  rw [kmRow_respondHost, State.kmRow_setKmRow, if_pos rfl, keyRowAfter_bit, if_pos rfl]

theorem exec_keyGet {s : State} (hs : s.stopped = false) (row col : BitVec 3) :
    exec (.keyGet row col) s = .next (s.respondHost (okResponse (boolByte (s.keyHeld row col)))) :=
  onHost_of_running hs _

/-- `KEY_GET` after `KEY_SET` of the same key answers what was set, and the key's bit is its complement (R102, R104). -/
theorem exec_keySet_keyGet {s : State} (hs : s.stopped = false) (row col : BitVec 3) (pressed : Bool) :
    ∃ t u, exec (.keySet row col pressed) s = .next t ∧ exec (.keyGet row col) t = .next u
      ∧ u.hostResp = some (okResponse (boolByte pressed)) ∧ (t.kmRow row).getLsbD col.toNat = !pressed := by
  obtain ⟨t, hset, ht, hbit⟩ := exec_keySet_bit hs row col pressed
  refine ⟨t, _, hset, exec_keyGet ht row col, ?_, hbit⟩
  rw [State.respondHost, State.setHostResp_hostResp, State.keyHeld, hbit, Bool.not_not]

end Sys2Proof.Machine

open Sys2Proof Sys2Proof.Machine

/-- Settles O19: `KEY_SET` leaves the key's bit at the complement of `pressed`, which `KEY_GET` answers and which decides its
column of every scan that selects the row. -/
theorem keyRoundTrip : Obligations.KeyRoundTrip := by
  refine fun s row col hs => ⟨?_, ?_⟩
  · obtain ⟨t, u, hset, hget, hresp, hheld⟩ := exec_keySet_keyGet hs row col true
    exact ⟨t, u, hset, hget, hresp, fun m hm => scan_bit_of_held hm hheld⟩
  · obtain ⟨t, u, hset, hget, hresp, hfree⟩ := exec_keySet_keyGet hs row col false
    refine ⟨t, u, hset, hget, hresp, ?_, fun m _ => scan_bit_iff_other_rows hfree m⟩
    rw [scan_rowMask]
    exact hfree

/-- Settles O20: an AND of masks selects the rows of both, and the mask of one row scans to that row. -/
theorem scanReduction : Obligations.ScanReduction := by
  refine ⟨scan_and, scan_none, fun s r1 r2 _ => ?_⟩
  rw [scan_and, scan_and, scan_none, scan_rowMask, scan_rowMask]
  rw [show (0xFF : Byte) &&& s.kmRow r1 = s.kmRow r1 from BitVec.allOnes_and]

end

section
/-! The two iterations that reach no engine operation: the one that reads `F.quit = 1` and the paused one
(spec/43_machine_control.md R136, R145). -/
namespace Sys2Proof.Machine

/-- An iteration from its first action reads `F.quit` first (R135). -/
theorem exec_iter_top {s : State} (hs : s.stopped = false) (hl : s.loop = .top) : exec .iter s = iterFromA1 s := by
  simp only [exec, execIter, iterate, hs, hl, Bool.false_eq_true, if_false]

/-- After `STOPPED = 1` no iteration takes place (R143). -/
theorem exec_iter_stopped {s : State} (hs : s.stopped = true) : exec .iter s = .next s := by
  simp only [exec, execIter, iterate, hs, if_true]

theorem iterFromA1_of_quit {s : State} (hq : s.fQuit = true) : iterFromA1 s = .next s.stopNow := if_pos hq

/-- Without a stop or a reset to serve, a paused iteration goes straight to the reload. -/
theorem iterFromA1_of_paused {s : State} (hq : s.fQuit = false) (hr : s.fReset = false) (hp : s.fPaused = true) :
    iterFromA1 s = .next (iterFromReload s) := by
  simp only [iterFromA1, iterFromA2, iterFromA7, hq, hr, hp, Bool.false_eq_true, if_false, if_true]

/-- A shown time is the sample, and is shown no longer (R21, R73). -/
theorem sampleNow_of_shown {s : State} {d : Nat} (hd : s.timeIn = some d) :
    s.sampleNow = (s.clock + d, (s.setClock (s.clock + d)).setTimeIn none) := by
  rw [State.sampleNow, hd]

/-- The reload writes `LFT` and what a sample writes (R113). -/
theorem reloadNow_eq (s : State) :
    reloadNow s = { s with
      lft := s.sampleNow.1, clock := s.sampleNow.1, timeIn := s.sampleNow.2.timeIn, draws := s.sampleNow.2.draws } := by
  rw [reloadNow, sampleNow_fst, sampleNow_frame]
  rfl

/-- From the first action on, a paused iteration ends where it began, and leaves what the reload leaves (R145). -/
theorem iterFromReload_of_top {s : State} (hl : s.loop = .top) : iterFromReload s = reloadNow s := by
  rw [iterFromReload, endIteration, reloadNow_eq, ← hl]
  rfl

end Sys2Proof.Machine

open Sys2Proof Sys2Proof.Machine

/-- Settles O29: from the first action the iteration answers `stopNow`, whose fields are known, and every later one finds
`STOPPED = 1`. -/
theorem quitIterationOnlyStops : Obligations.QuitIterationOnlyStops := by
  intro s hs hl hq
  have hstopped : s.stopNow.stopped = true := by rw [State.stopNow_eq]
  refine ⟨s.stopNow, (exec_iter_top hs hl).trans (iterFromA1_of_quit hq), hstopped, fun hw => ?_, ?_,
    exec_iter_stopped hstopped⟩
  · rw [State.stopNow_eq, hw]
    exact ⟨rfl, rfl⟩
  · rw [State.stopNow_eq, ← hl]

/-- Settles O30: from the first action the iteration answers `reloadNow`, which writes `LFT` and what a sample writes. -/
theorem pausedIterationOnlyReloads : Obligations.PausedIterationOnlyReloads := by
  intro s hs hl hq hr hp
  refine ⟨reloadNow s, ?_, ?_, ?_, fun d hd => ?_, ?_⟩
  · rw [exec_iter_top hs hl, iterFromA1_of_paused hq hr hp, iterFromReload_of_top hl]
  · rw [reloadNow_eq]
  · rw [reloadNow_eq]
    exact clock_le_sampleNow s
  · rw [reloadNow_eq, sampleNow_of_shown hd]
    exact ⟨rfl, rfl⟩
  · rw [reloadNow_eq]

end

section
/-! Everything one step can do, sorted once by what it may write (spec/10_state.md section 9), and what every step keeps. -/
namespace Sys2Proof.Machine

/-! ### Commands of one element -/

/-- What a command of one element, an input shown or a refused word can do. It writes no array, no key, no time, no position and no
output but a response, and it never clears `F.quit`. -/
structure CommandEffect (s t : State) : Prop where
  frame : t = { s with
    fReset := t.fReset, fPaused := t.fPaused, fQuit := t.fQuit, fDebug := t.fDebug, waitStop := t.waitStop,
    hostResp := t.hostResp, engineResp := t.engineResp, images := t.images, timeIn := t.timeIn }
  quit : s.fQuit = true → t.fQuit = true

theorem commandEffect_refl (s : State) : CommandEffect s s := ⟨rfl, id⟩

theorem commandEffect_respondHost (s : State) (q : Response) : CommandEffect s (s.respondHost q) := ⟨rfl, id⟩

/-- A host command of one element: its own effect, or the answer after `STOPPED = 1` (R143). -/
theorem commandEffect_onHost {s t u : State} (h : s.onHost (.next u) = .next t) (hu : CommandEffect s u) :
    CommandEffect s t := by
  rcases onHost_next h with ⟨_, rfl⟩ | ⟨_, he⟩
  · exact commandEffect_respondHost s _
  · cases he; exact hu

theorem commandEffect_refuseWord {s t : State} {src : Source} (h : s.refuseWord src = .next t) : CommandEffect s t := by
  obtain ⟨q, ⟨_, rfl⟩ | ⟨_, rfl⟩⟩ := refuseWord_next h
  · exact ⟨rfl, id⟩
  · exact commandEffect_respondHost s q

theorem commandEffect_presentTime {s t : State} {x : Nat} (h : s.presentTime x = .next t) : CommandEffect s t := by
  obtain ⟨_, rfl⟩ := presentTime_next h
  exact ⟨rfl, id⟩

/-! ### One bus transaction, one strobe -/

theorem loopEffect_busRead (a : Addr) (s : State) : LoopEffect s (busRead a s).2 :=
  loopEffect_of_prog ((busEffect_busRead a s).prog rfl) (fun h => ramWf_busRead h a) (fun h => trace_busRead a h)

theorem loopEffect_busWrite (a : Addr) (v : Byte) (s : State) : LoopEffect s (busWrite a v s) :=
  loopEffect_of_prog ((busEffect_busWrite a v s).prog rfl) (fun h => ramWf_busWrite h a v) (fun h => trace_busWrite a v h)

/-- A strobe standing alone: nothing after `STOPPED = 1`, else its own effect (R75, R143). -/
theorem loopEffect_onControl {s t u : State} (h : s.onControl (.next u) = .next t) (hu : LoopEffect s u) :
    LoopEffect s t := by
  rcases onControl_next h with ⟨_, rfl⟩ | ⟨_, _, he⟩
  · exact .refl t
  · cases he; exact hu

theorem loopEffect_execEngStep {s t : State} (h : execEngStep s = .next t) : LoopEffect s t := by
  rcases onControl_next h with ⟨_, rfl⟩ | ⟨_, _, he⟩
  · exact .refl t
  · split at he
    · cases he
    · cases he; exact loopEffect_stepEngine s

/-! ### Operations and steps, sorted -/

/-- What an operation or an event can do to the state it is carried out on: the work of the loop thread, the stop, the work of the
owning thread, a command of one element, or a key. -/
inductive Effect (s t : State) : Prop where
  | loop (h : LoopEffect s t)
  | stop (h : s.aboutToStop) (e : t = s.stopNow)
  | host (h : HostEffect s t)
  | command (h : CommandEffect s t)

theorem effect_iterate {s t : State} (h : iterate s = .next t) : Effect s t := by
  rcases loopEffect_iterate h with hl | ⟨ha, he⟩
  · exact .loop hl
  · exact .stop ha he

theorem effect_loopTurn {s t : State} (h : loopTurn s = .next t) : Effect s t := by
  rcases loopEffect_loopTurn h with hl | ⟨ha, he⟩
  · exact .loop hl
  · exact .stop ha he

/-- Every operation but `KEY_SET` leaves the keys alone (R35). -/
theorem effect_exec {i : Instr} {s t : State} (h : exec i s = .next t) (hk : ∀ row col p, i ≠ .keySet row col p) :
    Effect s t := by
  cases i with
  | busRead a => cases h; exact .loop (loopEffect_busRead a s)
  | busWrite a v => cases h; exact .loop (loopEffect_busWrite a v s)
  | peekRam a => exact .command (commandEffect_onHost h (commandEffect_respondHost s _))
  | peekRom a => exact .command (commandEffect_onHost h (commandEffect_respondHost s _))
  | keySet row col p => exact absurd rfl (hk row col p)
  | keyGet row col => exact .command (commandEffect_onHost h (commandEffect_respondHost s _))
  | keyScan m => exact .command (commandEffect_onHost h (commandEffect_respondHost s _))
  | init => exact .host (hostEffect_execInit h)
  | reqReset => exact .command (commandEffect_onHost h ⟨rfl, id⟩)
  | reqPause p => exact .command (commandEffect_onHost h ⟨rfl, id⟩)
  | reqStop => exact .command (commandEffect_onHost h ⟨rfl, fun _ => rfl⟩)
  | setDebug b => exact .command (commandEffect_onHost h ⟨rfl, id⟩)
  | iter => exact effect_iterate h
  | engStep => exact .loop (loopEffect_execEngStep h)
  | engReset => exact .loop (loopEffect_onControl h (loopEffect_strobe .reset s))
  | engIrq => exact .loop (loopEffect_onControl h (loopEffect_strobe .irq s))

/-- A step is a `KEY_SET` word on the host port, or has one of the effects, on the state with its event taken from the inbox. -/
theorem effect_step {s t : State} (h : step s = .next t) :
    (∃ x, Effect (s.setInbox x) t)
      ∨ ∃ raw rest row col p, s.inbox = .line .host raw :: rest ∧ decode raw = .ok (.keySet row col p)
          ∧ execKeySet row col p (s.setInbox rest) = .next t := by
  cases step_cases h with
  | free _ e => exact .inl ⟨s.inbox, effect_iterate e⟩
  | awaitStop _ e => exact .inl ⟨s.inbox, effect_iterate e⟩
  | awaitInit _ _ e => exact .inl ⟨s.inbox, .host (e ▸ hostEffect_callTurn _ s)⟩
  | operation src raw rest i hin hd hs _ _ e =>
    by_cases hk : ∃ row col p, i = .keySet row col p
    · obtain ⟨row, col, p, rfl⟩ := hk
      subst hs
      exact .inr ⟨raw, rest, row, col, p, hin, hd, e⟩
    · exact .inl ⟨rest, effect_exec e fun row col p he => hk ⟨row, col, p, he⟩⟩
  | idleStrobe rest _ _ e => exact .inl ⟨rest, .command (e ▸ commandEffect_refl _)⟩
  | refusedWord _ _ rest _ _ e => exact .inl ⟨rest, .command (commandEffect_refuseWord e)⟩
  | images im rest _ _ e => exact .inl ⟨rest, .command (e ▸ ⟨rfl, id⟩)⟩
  | nmi rest _ _ e => exact .inl ⟨rest, .loop (e ▸ loopEffect_hostNmi _)⟩
  | beginNmi rest _ _ e => exact .inl ⟨rest, .loop (e ▸ loopEffect_beginNmi _)⟩
  | now _ rest _ e => exact .inl ⟨rest, .command (commandEffect_presentTime e)⟩
  | beginKeyScan _ rest _ _ e => exact .inl ⟨rest, .host (hostEffect_beginKeyScan e)⟩
  | beginInit rest _ _ _ e => exact .inl ⟨rest, .host (hostEffect_beginInit e)⟩
  | loopTurn rest _ e => exact .inl ⟨rest, effect_loopTurn e⟩
  | callTurn k rest _ e => exact .inl ⟨rest, .host (e ▸ hostEffect_callTurn k _)⟩

/-! ### What every step keeps -/

/-- `KEY_SET` writes the key matrix and the response alone (R101). -/
theorem execKeySet_next {row col : BitVec 3} {p : Bool} {s t : State} (h : execKeySet row col p s = .next t) :
    t = { s with km := t.km, hostResp := t.hostResp } := by
  rcases onHost_next h with ⟨_, rfl⟩ | ⟨_, he⟩
  · rfl
  · cases he; rfl

/-- `KEY_SET` leaves the other 63 bits (R101). -/
theorem execKeySet_otherBits {row col : BitVec 3} {p : Bool} {s t : State} (h : execKeySet row col p s = .next t)
    {r c : BitVec 3} (hrc : ¬ (r = row ∧ c = col)) : (t.kmRow r).getLsbD c.toNat = (s.kmRow r).getLsbD c.toNat := by
  rcases onHost_next h with ⟨_, rfl⟩ | ⟨_, he⟩
  · rfl
  · cases he
    rw [kmRow_respondHost, State.kmRow_setKmRow]
    split
    · rename_i hr
      subst hr
      rw [keyRowAfter_bit, if_neg fun hc => hrc ⟨rfl, hc⟩]
    · rfl

/-- What no step breaks: the configuration, the latched bits, the order of time, the silence of the trace, and a `ROM` that is
loaded. -/
structure Kept (s t : State) : Prop where
  cfg : t.cfg = s.cfg
  stopped : s.stopped = true → t.stopped = true
  inited : s.inited = true → t.inited = true
  quit : s.fQuit = true → t.fQuit = true
  clock : s.clock ≤ t.clock
  lft : s.lft ≤ s.clock → s.lft ≤ t.lft ∧ t.lft ≤ t.clock
  trace : s.fDebug = false → t.trace = s.trace
  rom : s.inited = true → s.hostInInit = false → t.rom = s.rom ∧ t.hostInInit = false

theorem LoopEffect.kept {s t : State} (h : LoopEffect s t) : Kept s t where
  cfg := by rw [h.frame]
  stopped := by rw [h.frame]; exact id
  inited := by rw [h.frame]; exact id
  quit := by rw [h.frame]; exact id
  clock := h.clock
  lft := h.lft
  trace := h.trace
  rom := fun _ hn => ⟨by rw [h.frame], h.hostInInit.trans hn⟩

theorem kept_stopNow (s : State) : Kept s s.stopNow := by
  rw [State.stopNow_eq]
  exact ⟨rfl, fun _ => rfl, id, id, Nat.le_refl _, fun h => ⟨Nat.le_refl _, h⟩, fun _ => rfl, fun _ hn => ⟨rfl, hn⟩⟩

theorem HostEffect.kept {s t : State} (h : HostEffect s t) : Kept s t where
  cfg := by rw [h.frame]
  stopped := by rw [h.frame]; exact id
  inited := h.inited
  quit := by rw [h.frame]; exact id
  clock := by rw [h.frame]
  lft := by rw [h.frame]; exact fun hl => ⟨Nat.le_refl _, hl⟩
  trace := h.trace
  rom := fun hi hn => h.rom hn hi

theorem CommandEffect.kept {s t : State} (h : CommandEffect s t) : Kept s t := by
  have hq := h.quit
  rw [h.frame] at hq ⊢
  exact ⟨rfl, id, id, hq, Nat.le_refl _, fun h => ⟨Nat.le_refl _, h⟩, fun _ => rfl, fun _ hn => ⟨rfl, hn⟩⟩

theorem Effect.kept {s t : State} (h : Effect s t) : Kept s t := by
  cases h with
  | loop h => exact h.kept
  | stop _ e => exact e ▸ kept_stopNow s
  | host h => exact h.kept
  | command h => exact h.kept

theorem kept_step {s t : State} (h : step s = .next t) : Kept s t := by
  rcases effect_step h with ⟨x, he⟩ | ⟨_, rest, _, _, _, _, _, he⟩
  · obtain ⟨hcfg, hstop, hini, hquit, hclock, hlft, htrace, hrom⟩ := he.kept
    exact ⟨hcfg, hstop, hini, hquit, hclock, hlft, htrace, hrom⟩
  · rw [execKeySet_next he]
    exact ⟨rfl, id, id, id, Nat.le_refl _, fun h => ⟨Nat.le_refl _, h⟩, fun _ => rfl, fun _ hn => ⟨rfl, hn⟩⟩

/-- No effect but a `KEY_SET` touches a key. -/
theorem Effect.km {s t : State} (h : Effect s t) : t.km = s.km := by
  cases h with
  | loop h => rw [h.frame]
  | stop _ e => rw [e, State.stopNow_eq]
  | host h => rw [h.frame]
  | command h => rw [h.frame]

end Sys2Proof.Machine

open Sys2Proof Sys2Proof.Machine

/-- Settles O41: only an `INIT` writes `ROM`, and none is in progress or admitted. -/
theorem romIsFixedOnceInitialised : Obligations.RomIsFixedOnceInitialised := by
  intro s t hini hfree h
  obtain ⟨hrom, hfree'⟩ := (kept_step h).rom hini hfree
  exact ⟨hrom, (kept_step h).inited hini, hfree'⟩

/-- Settles O42: every effect but that of a `KEY_SET` word leaves the keys, and that one writes its own bit. -/
theorem onlyKeySetChangesKeys : Obligations.OnlyKeySetChangesKeys := by
  intro s t h
  rcases effect_step h with ⟨x, he⟩ | ⟨raw, rest, row, col, p, hin, hd, he⟩
  · exact .inl he.km
  · exact .inr ⟨raw, rest, row, col, p, hin, hd, fun r c hrc => execKeySet_otherBits he hrc⟩

/-- Settles O43: what no step breaks of time. -/
theorem timeNeverGoesBack : Obligations.TimeNeverGoesBack := by
  intro s t hle h
  obtain ⟨hup, hle'⟩ := (kept_step h).lft hle
  exact ⟨hup, hle', (kept_step h).clock⟩

/-- Settles O44: what no step breaks of the latched bits. -/
theorem latchedBitsStay : Obligations.LatchedBitsStay :=
  fun _ _ h => ⟨(kept_step h).stopped, (kept_step h).inited, (kept_step h).quit⟩

/-- Settles O45: no effect writes the configuration. -/
theorem configurationIsFixed : Obligations.ConfigurationIsFixed := fun _ _ h => (kept_step h).cfg

/-- Settles O46: no effect records while `F.debug = 0`. -/
theorem noTraceWithoutDebug : Obligations.NoTraceWithoutDebug := fun _ _ hd h => (kept_step h).trace hd

end

section
/-! The invariant of Safety.lean, kept by every step: the frames of the effects for the flags and the arrays, the port's protocol for
the sequencer's position (spec/10_state.md, spec/30_encoding.md R75). -/
namespace Sys2Proof.Machine

/-! ### Positions that an overlap does not tell apart -/

/-- Two positions of the sequencer that are alike in all that the invariant looks at. -/
structure SamePlace (p q : LoopPos) : Prop where
  strobe : q.activeStrobe = p.activeStrobe
  noNmi : p.noNmi → q.noNmi
  top : p = .top → q = .top
  stopping : q = .stopping → p = .stopping

theorem SamePlace.refl (p : LoopPos) : SamePlace p p := ⟨rfl, id, id, id⟩

/-- An overlap frees the program of the operation in progress and nothing else of the position (R197). -/
theorem SamePlace.disturbed (p : LoopPos) (d : Nat) : SamePlace p (p.disturbed d) := by
  cases p with
  | inEngine run => exact ⟨rfl, id, nofun, nofun⟩
  | _ => exact .refl _

theorem SamePlace.overlap (s : State) (d : Nat) :
    SamePlace s.loop (if s.engineBusy then s.loop.disturbed d else s.loop) := by
  split
  · exact .disturbed _ _
  · exact .refl _

/-! ### The invariant through each effect -/

/-- The loop thread's work keeps the invariant where its position and the port do. -/
theorem State.Inv.of_loopEffect {s t : State} (hi : s.Inv) (he : LoopEffect s t) (hstop : s.stopped = true → t.loop = .top)
    (hquit : t.loop = .stopping → s.fQuit = true) (hp : portState t.control = some t.loop.activeStrobe)
    (hn : t.loop.noNmi) : t.Inv := by
  have hf := he.frame
  have hstopped : t.stopped = s.stopped := by rw [hf]
  have hq : t.fQuit = s.fQuit := by rw [hf]
  have hinit : t.initCount = s.initCount := by
    have : t.inited = s.inited := by rw [hf]
    rw [State.initCount, State.initCount, he.inits, this]
  refine ⟨he.ramWf hi.ramWf, ?_, (he.lft hi.lftLeClock).2, fun h => ?_, fun h => hq.trans (hquit h), fun h => ?_, ?_, hp, hn⟩
  · rw [hf]; exact hi.romWf
  · rw [hstopped] at h
    exact ⟨hq.trans (hi.stoppedQuit h).1, hstop h⟩
  · rw [he.waitStop] at h
    rw [hq, hstopped]
    exact hi.waitQuit h
  · rw [hinit]; exact hi.initOnce

/-- The same where position and port stay alike. -/
theorem State.Inv.of_samePlace {s t : State} (hi : s.Inv) (he : LoopEffect s t) (hl : SamePlace s.loop t.loop)
    (hp : portState t.control = portState s.control) : t.Inv :=
  hi.of_loopEffect he (fun h => hl.top (hi.stoppedQuit h).2) (fun h => hi.stoppingQuit (hl.stopping h))
    (by rw [hp, hi.port, hl.strobe]) (hl.noNmi hi.loopNoNmi)

theorem activeStrobe_of_aboutToStop {s : State} (ha : s.aboutToStop) : s.loop.activeStrobe = none := by
  obtain ⟨_, hl | ⟨hl, _⟩⟩ := ha <;> rw [hl] <;> rfl

theorem State.Inv.stopNow {s : State} (hi : s.Inv) (ha : s.aboutToStop) : s.stopNow.Inv := by
  have hq : s.fQuit = true := by
    obtain ⟨_, hl | ⟨_, hq⟩⟩ := ha
    · exact hi.stoppingQuit hl
    · exact hq
  have hp := hi.port
  rw [activeStrobe_of_aboutToStop ha] at hp
  rw [State.stopNow_eq]
  exact ⟨hi.ramWf, hi.romWf, hi.lftLeClock, fun _ => ⟨hq, rfl⟩, nofun, nofun, hi.initOnce, hp, trivial⟩

/-- The owning thread keeps the invariant where no second `INIT` comes of its work. -/
theorem State.Inv.of_hostEffect {s t : State} (hi : s.Inv) (he : HostEffect s t) (hc : t.initCount ≤ 1) : t.Inv := by
  have hram := he.ramWf hi.ramWf
  have hrom := he.romWf hi.romWf
  rw [he.frame] at hram hrom hc ⊢
  exact ⟨hram, hrom, hi.lftLeClock, hi.stoppedQuit, hi.stoppingQuit, hi.waitQuit, hc, hi.port, hi.loopNoNmi⟩

/-- A command of one element keeps the invariant where it begins no wait. -/
theorem State.Inv.of_commandEffect {s t : State} (hi : s.Inv) (he : CommandEffect s t) (hw : t.waitStop = s.waitStop) :
    t.Inv := by
  have hq := he.quit
  rw [he.frame] at hq hw ⊢
  exact ⟨hi.ramWf, hi.romWf, hi.lftLeClock, fun h => ⟨hq (hi.stoppedQuit h).1, (hi.stoppedQuit h).2⟩,
    fun h => hq (hi.stoppingQuit h), fun h => ⟨hq (hi.waitQuit (hw ▸ h)).1, (hi.waitQuit (hw ▸ h)).2⟩, hi.initOnce, hi.port,
    hi.loopNoNmi⟩

/-! ### The loop thread -/

theorem State.Inv.iterate {s t : State} (hi : s.Inv) (h : iterate s = .next t) : t.Inv := by
  rcases loopEffect_iterate h with he | ⟨ha, rfl⟩
  · cases hs : s.stopped with
    | true => cases (exec_iter_stopped hs).symm.trans h; exact hi
    | false =>
      obtain ⟨hl, hp⟩ := iterate_end hs hi.port hi.loopNoNmi h
      refine hi.of_loopEffect he (fun _ => hl) (fun h => ?_) ?_ ?_ <;> rw [hl] at *
      · cases h
      · exact hp
      · trivial
  · exact hi.stopNow ha

/-- A turn inside an engine operation leaves the sequencer in it or at the action that follows. -/
theorem engineTurn_ne_stopping (run : EngineRun) (s : State) : (engineTurn run s).loop ≠ .stopping := by
  unfold engineTurn
  split
  · nofun
  · rw [State.setLoop_loop]
    cases run.op <;> nofun

/-- The sequencer comes to stop only by reading `F.quit = 1` (R136). -/
theorem loopTurn_stopping {s t : State} (hs : s.stopped = false) (h : loopTurn s = .next t) (hl : t.loop = .stopping) :
    s.fQuit = true := by
  simp only [loopTurn, hs, Bool.false_eq_true, if_false] at h
  split at h
  · cases h
    by_contra hq
    simp [hq] at hl
  · cases h; rw [State.stopNow_eq] at hl; cases hl
  · cases h; split at hl <;> cases hl
  · cases h; split at hl <;> cases hl
  · unfold startTurn at h
    split at h
    · cases h
    · cases h; cases hl
  · cases h; exact absurd hl (engineTurn_ne_stopping _ s)
  · cases h; cases hl
  · cases h; split at hl
    · cases hl
    · split at hl <;> cases hl
  · cases h; cases hl
  · cases h; rw [State.setLoop_loop] at hl; split at hl <;> cases hl
  · cases h; cases hl
  · cases h; unfold pollTurn at hl; split at hl <;> cases hl
  · cases h; rw [State.setLoop_loop] at hl; split at hl <;> cases hl

/-- After `STOPPED = 1` the loop thread takes no turn (R143). -/
theorem loopTurn_of_stopped {s : State} (hs : s.stopped = true) : loopTurn s = .next s := by
  rw [loopTurn, if_pos hs]

theorem State.Inv.loopTurn {s t : State} (hi : s.Inv) (h : loopTurn s = .next t) : t.Inv := by
  cases hs : s.stopped with
  | true => cases (loopTurn_of_stopped hs).symm.trans h; exact hi
  | false =>
    rcases loopEffect_loopTurn h with he | ⟨ha, rfl⟩
    · obtain ⟨hp, hn⟩ := port_loopTurn hi.port hi.loopNoNmi h
      exact hi.of_loopEffect he (fun h => by simp [hs] at h) (loopTurn_stopping hs h) hp hn
    · exact hi.stopNow ha

/-! ### The engine -/

theorem runWhole_loop (op : EngineOp) (s : State) :
    (runWhole op s).loop = if s.engineBusy then s.loop.disturbed (s.draws + 1) else s.loop := by
  rw [engineEffect_runWhole op s]

theorem runWhole_control (op : EngineOp) (s : State) : (runWhole op s).control = s.control := by
  rw [engineEffect_runWhole op s]

theorem State.Inv.hostNmi {s : State} (hi : s.Inv) : (hostNmi s).Inv :=
  hi.of_samePlace (loopEffect_hostNmi s) (runWhole_loop .nmi s ▸ .overlap s _) (by rw [Machine.hostNmi, runWhole_control])

theorem beginNmi_loop (s : State) :
    (beginNmi s).loop = if s.engineBusy then s.loop.disturbed (s.draws + 1) else s.loop := by
  rw [beginNmi, State.setCalls_loop, beginRun_state]

theorem State.Inv.beginNmi {s : State} (hi : s.Inv) : (beginNmi s).Inv :=
  hi.of_samePlace (loopEffect_beginNmi s) (beginNmi_loop s ▸ .overlap s _) (by rw [beginNmi_frame])

/-- With no strobe active the port is idle. -/
theorem State.Inv.portIdle {s : State} (hi : s.Inv) (ha : s.strobeActive = false) : s.PortIdle := by
  have hn : s.loop.activeStrobe = none := by
    unfold State.strobeActive at ha
    cases hl : s.loop with
    | inEngine run => simp [hl] at ha
    | _ => rfl
  rw [State.PortIdle, hi.port, hn]

theorem State.Inv.strobe {s : State} (hi : s.Inv) (ha : s.strobeActive = false) {op : EngineOp} (hop : op ≠ .nmi) :
    (strobe op s).Inv :=
  hi.of_samePlace (loopEffect_strobe op s) (strobe_loop op s ▸ .overlap s _)
    ((portIdle_strobe (hi.portIdle ha) hop).trans (hi.portIdle ha).symm)

theorem State.Inv.traceRec {s : State} (hi : s.Inv) (rec : TraceRec) : (s.traceRec rec).Inv := by
  rw [State.traceRec_eq]
  exact ⟨hi.ramWf, hi.romWf, hi.lftLeClock, hi.stoppedQuit, hi.stoppingQuit, hi.waitQuit, hi.initOnce, hi.port, hi.loopNoNmi⟩

theorem State.Inv.stepEngine {s : State} (hi : s.Inv) (ha : s.strobeActive = false) : (stepEngine s).Inv :=
  (hi.traceRec .step).strobe (by rw [State.traceRec_eq]; exact ha) nofun

theorem State.Inv.busEffect {s t : State} (hi : s.Inv) (he : LoopEffect s t) (hb : BusEffect s t) : t.Inv := by
  refine hi.of_samePlace he ?_ ?_ <;> rw [hb]
  exact .refl _

/-! ### `INIT` -/

/-- With none in progress, a count of at most one more `INIT` is at most one (R124). -/
theorem State.Inv.oneInit {s t : State} (hi : s.Inv) (hn : s.inited = false → s.hostInInit = false)
    (hc : t.initCount = s.initCount ∨ (s.inited = false ∧ t.initCount = s.initCount + 1)) : t.initCount ≤ 1 := by
  rcases hc with hc | ⟨hini, hc⟩
  · rw [hc]; exact hi.initOnce
  · have hz : s.calls.countP HostCall.isInit = 0 := by
      have := hn hini
      rw [hostInInit_eq] at this
      simpa using this
    rw [hc, State.initCount, hini, hz]
    rfl

/-- An `INIT`, whole or begun, where none is in progress or none is admitted. -/
theorem State.Inv.onInit {s t k : State} (hi : s.Inv) (hn : s.hostInInit = false ∨ s.stopped = true)
    (h : s.onInit k = .next t) (he : HostEffect s t)
    (hc : t.initCount = s.initCount ∨ (s.inited = false ∧ t.initCount = s.initCount + 1)) : t.Inv := by
  rcases onInit_next h with ⟨q, rfl⟩ | ⟨_, hs, _⟩
  · exact hi.of_commandEffect (commandEffect_respondHost s q) rfl
  · exact hi.of_hostEffect he (hi.oneInit (fun _ => hn.resolve_right (by simp [hs])) hc)

/-! ### Operations and steps -/

/-- A host command that begins no wait. -/
theorem State.Inv.onHost {s t u : State} (hi : s.Inv) (h : s.onHost (.next u) = .next t) (hu : CommandEffect s u)
    (hw : u.waitStop = s.waitStop) : t.Inv := by
  rcases onHost_next h with ⟨_, rfl⟩ | ⟨_, he⟩
  · exact hi.of_commandEffect (commandEffect_respondHost s _) rfl
  · cases he; exact hi.of_commandEffect hu hw

theorem State.Inv.execKeySet {row col : BitVec 3} {p : Bool} {s t : State} (hi : s.Inv)
    (h : execKeySet row col p s = .next t) : t.Inv := by
  rw [execKeySet_next h]
  exact ⟨hi.ramWf, hi.romWf, hi.lftLeClock, hi.stoppedQuit, hi.stoppingQuit, hi.waitQuit, hi.initOnce, hi.port, hi.loopNoNmi⟩

/-- The wait of `REQ_STOP` begins with `F.quit` set and before `STOPPED = 1` (R128). -/
theorem State.Inv.execReqStop {s t : State} (hi : s.Inv) (h : execReqStop s = .next t) : t.Inv := by
  rcases onHost_next h with ⟨_, rfl⟩ | ⟨hs, he⟩
  · exact hi.of_commandEffect (commandEffect_respondHost s _) rfl
  · cases he
    exact ⟨hi.ramWf, hi.romWf, hi.lftLeClock, fun h => ⟨rfl, (hi.stoppedQuit h).2⟩, fun _ => rfl, fun _ => ⟨rfl, hs⟩,
      hi.initOnce, hi.port, hi.loopNoNmi⟩

/-- A strobe standing alone, with none active (R75). -/
theorem State.Inv.onControl {s t : State} {k : Host.Outcome State Fault Refusal} (hi : s.Inv) (h : s.onControl k = .next t)
    (hk : s.strobeActive = false → k = .next t → t.Inv) : t.Inv := by
  rcases onControl_next h with ⟨_, rfl⟩ | ⟨_, ha, he⟩
  · exact hi
  · exact hk ha he

theorem State.Inv.exec {i : Instr} {s t : State} (hi : s.Inv) (hn : i = .init → s.hostInInit = false ∨ s.stopped = true)
    (h : exec i s = .next t) : t.Inv := by
  cases i with
  | busRead a => cases h; exact hi.busEffect (loopEffect_busRead a s) (busEffect_busRead a s)
  | busWrite a v => cases h; exact hi.busEffect (loopEffect_busWrite a v s) (busEffect_busWrite a v s)
  | peekRam a => exact hi.onHost h (commandEffect_respondHost s _) rfl
  | peekRom a => exact hi.onHost h (commandEffect_respondHost s _) rfl
  | keySet row col p => exact hi.execKeySet h
  | keyGet row col => exact hi.onHost h (commandEffect_respondHost s _) rfl
  | keyScan m => exact hi.onHost h (commandEffect_respondHost s _) rfl
  | init => exact hi.onInit (hn rfl) h (hostEffect_execInit h) (initCount_execInit h)
  | reqReset => exact hi.onHost h ⟨rfl, id⟩ rfl
  | reqPause p => exact hi.onHost h ⟨rfl, id⟩ rfl
  | reqStop => exact hi.execReqStop h
  | setDebug b => exact hi.onHost h ⟨rfl, id⟩ rfl
  | iter => exact hi.iterate h
  | engStep =>
    refine hi.onControl h fun ha he => ?_
    split at he
    · cases he
    · cases he; exact hi.stepEngine ha
  | engReset => exact hi.onControl h fun ha he => by cases he; exact hi.strobe ha nofun
  | engIrq => exact hi.onControl h fun ha he => by cases he; exact hi.strobe ha nofun

theorem State.Inv.callTurn {s : State} (hi : s.Inv) (k : Nat) : (callTurn k s).Inv :=
  hi.of_hostEffect (hostEffect_callTurn k s) ((initCount_callTurn k s).trans hi.initOnce)

theorem State.Inv.beginKeyScan {m : Byte} {s t : State} (hi : s.Inv) (h : beginKeyScan m s = .next t) : t.Inv := by
  obtain ⟨hf, hc⟩ := beginKeyScan_next h
  refine hi.of_hostEffect (hostEffect_beginKeyScan h) ?_
  have hini : t.inited = s.inited := by rw [hf]
  rw [State.initCount, hc, hini]
  exact hi.initOnce

/-- The events to come are no matter of the invariant. -/
theorem State.Inv.setInbox {s : State} (hi : s.Inv) (x : List Event) : (s.setInbox x).Inv :=
  ⟨hi.ramWf, hi.romWf, hi.lftLeClock, hi.stoppedQuit, hi.stoppingQuit, hi.waitQuit, hi.initOnce, hi.port, hi.loopNoNmi⟩

theorem State.Inv.refuseWord {s t : State} {src : Source} (hi : s.Inv) (h : s.refuseWord src = .next t) : t.Inv := by
  obtain ⟨q, ⟨_, rfl⟩ | ⟨_, rfl⟩⟩ := refuseWord_next h
  · exact hi.of_commandEffect ⟨rfl, id⟩ rfl
  · exact hi.of_commandEffect ⟨rfl, id⟩ rfl

theorem State.Inv.presentTime {s t : State} {x : Nat} (hi : s.Inv) (h : s.presentTime x = .next t) : t.Inv := by
  obtain ⟨_, rfl⟩ := presentTime_next h
  exact hi.of_commandEffect ⟨rfl, id⟩ rfl

end Sys2Proof.Machine

open Sys2Proof Sys2Proof.Machine

/-- Settles O39: empty memories, no time passed, an idle port. -/
theorem powerOnMeetsTheInvariant : Obligations.PowerOnMeetsTheInvariant :=
  ⟨rfl, rfl, Nat.le_refl _, nofun, nofun, nofun, Nat.zero_le _, rfl, trivial⟩

/-- Settles O40: whatever led to the next state keeps the invariant, on the state with its event taken from the inbox. -/
theorem stepKeepsTheInvariant : Obligations.StepKeepsTheInvariant := by
  intro s t hi h
  cases step_cases h with
  | free _ e => exact hi.iterate e
  | awaitStop _ e => exact hi.iterate e
  | awaitInit _ _ e => exact e ▸ hi.callTurn _
  | operation src raw rest i _ _ _ _ hn e => exact (hi.setInbox rest).exec hn e
  | idleStrobe rest _ _ e => exact e ▸ hi.setInbox rest
  | refusedWord _ _ rest _ _ e => exact (hi.setInbox rest).refuseWord e
  | images im rest _ _ e => exact e ▸ (hi.setInbox rest).of_commandEffect ⟨rfl, id⟩ rfl
  | nmi rest _ _ e => exact e ▸ (hi.setInbox rest).hostNmi
  | beginNmi rest _ _ e => exact e ▸ (hi.setInbox rest).beginNmi
  | now _ rest _ e => exact (hi.setInbox rest).presentTime e
  | beginKeyScan _ rest _ _ e => exact (hi.setInbox rest).beginKeyScan e
  | beginInit rest _ _ hn e =>
    exact (hi.setInbox rest).onInit hn e (hostEffect_beginInit e) (initCount_beginInit e)
  | loopTurn rest _ e => exact (hi.setInbox rest).loopTurn e
  | callTurn k rest _ e => exact e ▸ (hi.setInbox rest).callTurn k

end

section
/-! Encoding and decoding are inverse, and the words that decode are those of a row of the table (spec/30_encoding.md R66, R67, R71,
R72, R75, R78). -/
namespace Sys2Proof
open Sys2Proof.Machine

/-! ### Packed operands pass their checks -/

theorem needCoordinate_packCoordinate (row col : BitVec 3) (k : Except DecodeError Instr) :
    needCoordinate (packCoordinate row col) k = k := by
  obtain ⟨_, _, hrest⟩ := coordinate_fields row col
  exact if_pos hrest

theorem needBool_packBool (b : Bool) (k : Except DecodeError Instr) : needBool (packBool b) k = k :=
  if_pos (bool_fields b).2

theorem decode_packWord (op : BitVec 4) (a : Addr) (d : Byte) : decode (.w (packWord op a d)) = decodeFields op a d :=
  decodeWord_packWord op a d

/-- An operation with a coordinate (R71). -/
theorem keySet_of_packed (row col : BitVec 3) (p : Bool) :
    decodeFields 4 (packCoordinate row col) (packBool p) = .ok (.keySet row col p) := by
  change needCoordinate _ (needBool _ (.ok (.keySet (rowField _) (colField _) (boolField _)))) = _
  obtain ⟨hrow, hcol, _⟩ := coordinate_fields row col
  rw [needCoordinate_packCoordinate, needBool_packBool, hrow, hcol, (bool_fields p).1]

theorem keyGet_of_packed (row col : BitVec 3) :
    decodeFields 5 (packCoordinate row col) 0 = .ok (.keyGet row col) := by
  change needCoordinate _ (.ok (.keyGet (rowField _) (colField _))) = _
  obtain ⟨hrow, hcol, _⟩ := coordinate_fields row col
  rw [needCoordinate_packCoordinate, hrow, hcol]

/-- An operation with a boolean (R72). -/
theorem reqPause_of_packed (p : Bool) : decodeFields 9 0 (packBool p) = .ok (.reqPause p) := by
  change needBool _ (.ok (.reqPause (boolField _))) = _
  rw [needBool_packBool, (bool_fields p).1]

theorem setDebug_of_packed (b : Bool) : decodeFields 0xB 0 (packBool b) = .ok (.setDebug b) := by
  change needBool _ (.ok (.setDebug (boolField _))) = _
  rw [needBool_packBool, (bool_fields b).1]

/-! ### Strobes -/

theorem encode_of_decodeStrobe {c : Strobe} {i : Instr} (h : decodeStrobe c = .ok i) : encode i = .c c := by
  have hc : c = BitVec.ofNat 3 c.toNat := by simp
  rw [hc]
  unfold decodeStrobe at h
  generalize c.toNat = n at h ⊢
  split at h <;> cases h
  · rfl
  · rfl
  · rfl

/-! ### The words of a row -/

/-- A decoded word has a defined operation code (R77). -/
theorem op_le_of_decodeFields {op : BitVec 4} {a : Addr} {d : Byte} {i : Instr} (h : decodeFields op a d = .ok i) :
    op.toNat ≤ 0xC := by
  by_contra hop
  have hlt := op.isLt
  have hreserved : decodeFields op a d = .error .reservedOp := by
    unfold decodeFields
    split
    case h_14 => rfl
    all_goals omega
  cases hreserved.symm.trans h

/-- The value of the fixed bits is zero below the operation code. -/
theorem fields_fixedValue (op : BitVec 4) :
    zField (fixedValue op) = 0 ∧ aField (fixedValue op) = 0 ∧ dField (fixedValue op) = 0 := by
  revert op; decide

/-- A word of its row has the fixed bits of each field zero (R78). -/
theorem fields_of_tableWordOk {w : Word} (h : tableWordOk w = true) :
    zField w &&& zField (fixedBits (opField w)) = 0 ∧ aField w &&& aField (fixedBits (opField w)) = 0
      ∧ dField w &&& dField (fixedBits (opField w)) = 0 := by
  have hw : w &&& fixedBits (opField w) = fixedValue (opField w) := beq_iff_eq.1 h
  obtain ⟨hz, ha, hd⟩ := fields_fixedValue (opField w)
  rw [← hw] at hz ha hd
  simp only [zField, aField, dField, BitVec.extractLsb'_and] at hz ha hd ⊢
  exact ⟨hz, ha, hd⟩

/-- `Z` is fixed in every row (R66). -/
theorem zField_fixedBits (op : BitVec 4) : zField (fixedBits op) = BitVec.allOnes 4 := by revert op; decide

theorem eq_zero_of_and_ones {n : Nat} {x : BitVec n} (h : x &&& BitVec.allOnes n = 0) : x = 0 := by
  rwa [BitVec.and_allOnes] at h

theorem coordinate_of_fixed {a : Addr} (h : a &&& 0xFFC0 = 0) : a.extractLsb' 6 10 = 0 := by
  have := congrArg (BitVec.extractLsb' 6 10) h
  rw [BitVec.extractLsb'_and] at this
  exact eq_zero_of_and_ones this

theorem bool_of_fixed {d : Byte} (h : d &&& 0xFE = 0) : d.extractLsb' 1 7 = 0 := by
  have := congrArg (BitVec.extractLsb' 1 7) h
  rw [BitVec.extractLsb'_and] at this
  exact eq_zero_of_and_ones this

/-- With a defined code and the fixed bits of `A` and `D` zero every check of the code's row passes (the table of R67). -/
theorem decodeFields_of_fixed {op : BitVec 4} {a : Addr} {d : Byte} (hop : op.toNat ≤ 0xC)
    (ha : a &&& aField (fixedBits op) = 0) (hd : d &&& dField (fixedBits op) = 0) : ∃ i, decodeFields op a d = .ok i := by
  have hn : op = BitVec.ofNat 4 op.toNat := by simp
  generalize op.toNat = n at hn hop
  subst hn
  interval_cases n
  · exact ⟨_, if_pos (eq_zero_of_and_ones hd)⟩
  · exact ⟨_, rfl⟩
  · exact ⟨_, if_pos (eq_zero_of_and_ones hd)⟩
  · exact ⟨_, if_pos (eq_zero_of_and_ones hd)⟩
  · exact ⟨_, (if_pos (coordinate_of_fixed ha)).trans (if_pos (bool_of_fixed hd))⟩
  · exact ⟨_, (if_pos (coordinate_of_fixed ha)).trans (if_pos (eq_zero_of_and_ones hd))⟩
  · exact ⟨_, if_pos (eq_zero_of_and_ones ha)⟩
  · exact ⟨_, (if_pos (eq_zero_of_and_ones ha)).trans (if_pos (eq_zero_of_and_ones hd))⟩
  · exact ⟨_, (if_pos (eq_zero_of_and_ones ha)).trans (if_pos (eq_zero_of_and_ones hd))⟩
  · exact ⟨_, (if_pos (eq_zero_of_and_ones ha)).trans (if_pos (bool_of_fixed hd))⟩
  · exact ⟨_, (if_pos (eq_zero_of_and_ones ha)).trans (if_pos (eq_zero_of_and_ones hd))⟩
  · exact ⟨_, (if_pos (eq_zero_of_and_ones ha)).trans (if_pos (bool_of_fixed hd))⟩
  · exact ⟨_, (if_pos (eq_zero_of_and_ones ha)).trans (if_pos (eq_zero_of_and_ones hd))⟩

end Sys2Proof

open Sys2Proof Sys2Proof.Machine

/-- Settles O1: the packed word's fields are what was packed, and each check of its code passes on a packed operand. -/
theorem encodeThenDecode : Obligations.EncodeThenDecode := by
  intro i
  cases i with
  | busRead a => exact decode_packWord 0 a 0
  | busWrite a v => exact decode_packWord 1 a v
  | peekRam a => exact decode_packWord 2 a 0
  | peekRom a => exact decode_packWord 3 a 0
  | keySet row col p => exact (decode_packWord _ _ _).trans (keySet_of_packed row col p)
  | keyGet row col => exact (decode_packWord _ _ _).trans (keyGet_of_packed row col)
  | keyScan m => exact decode_packWord 6 0 m
  | init => exact decode_packWord 7 0 0
  | reqReset => exact decode_packWord 8 0 0
  | reqPause p => exact (decode_packWord _ _ _).trans (reqPause_of_packed p)
  | reqStop => exact decode_packWord 0xA 0 0
  | setDebug b => exact (decode_packWord _ _ _).trans (setDebug_of_packed b)
  | iter => exact decode_packWord 0xC 0 0
  | engStep => rfl
  | engReset => rfl
  | engIrq => rfl

/-- Settles O2: the checks of a row give the operand fields back, packed, so the encoding is the word. -/
theorem everyWordHasOneMeaning : Obligations.EveryWordHasOneMeaning := by
  intro raw i h
  cases raw with
  | w word => exact encode_of_decode_word h
  | c strobe => exact encode_of_decodeStrobe h

/-- Settles O3: a decoded word has the bits of its row, and the bits of a row pass the checks of its code. -/
theorem wordsThatDecode : Obligations.WordsThatDecode := by
  refine fun w => ⟨fun ⟨i, h⟩ => ⟨?_, (row_of_decode_word h).1⟩, fun ⟨hop, hw⟩ => ?_⟩
  · exact op_le_of_decodeFields (ite_error_eq_ok.1 h).2
  · obtain ⟨hz, ha, hd⟩ := fields_of_tableWordOk hw
    rw [zField_fixedBits] at hz
    obtain ⟨i, hi⟩ := decodeFields_of_fixed hop ha hd
    exact ⟨i, (if_pos (eq_zero_of_and_ones hz)).trans hi⟩

/-- Settles O4, by decoding each of the words. -/
theorem specWordsDecode : Obligations.SpecWordsDecode := by
  unfold Obligations.SpecWordsDecode
  decide

end

section
/-! The trace and the debug mode are observation alone (spec/10_state.md R24, spec/60_exceptions.md R171): every operation takes
states that differ at most in them to states that differ at most in them. -/
namespace Sys2Proof.Machine

/-- The state as it would be with another debug flag and another trace. -/
def State.observed (s : State) (tr : List TraceRec) (d : Bool) : State := { s with trace := tr, fDebug := d }

/-- Two states that differ at most so are one state observed in two ways. -/
theorem SameButTrace.exists_observed {s t : State} (h : SameButTrace s t) : ∃ tr d, t = s.observed tr d :=
  ⟨t.trace, t.fDebug, h⟩

/-- A test that both sides answer alike chooses the same branch of both. -/
theorem rel_ite {α : Type} {R : α → α → Prop} {c : Prop} [Decidable c] {a b a' b' : α} (ht : R a a') (hf : R b b') :
    R (if c then a else b) (if c then a' else b') := by
  split
  · exact ht
  · exact hf

/-- What an access leaves of the thread that made it, and a state that differs at most so. -/
def SamePairButTrace {α : Type} (x y : α × State) : Prop := x.1 = y.1 ∧ SameButTrace x.2 y.2

section
variable {s t : State}

theorem SameButTrace.cfg_eq (h : SameButTrace s t) : t.cfg = s.cfg := by rw [h]

theorem SameButTrace.loop_eq (h : SameButTrace s t) : t.loop = s.loop := by rw [h]

theorem SameButTrace.stopped_eq (h : SameButTrace s t) : t.stopped = s.stopped := by rw [h]

theorem SameButTrace.calls_eq (h : SameButTrace s t) : t.calls = s.calls := by rw [h]

theorem SameButTrace.timeIn_eq (h : SameButTrace s t) : t.timeIn = s.timeIn := by rw [h]

theorem SameButTrace.images_eq (h : SameButTrace s t) : t.images = s.images := by rw [h]

theorem SameButTrace.inbox_eq (h : SameButTrace s t) : t.inbox = s.inbox := by rw [h]

/-! ### Bus transactions and engine programs -/

/-- The one operation that looks at `F.debug` writes the trace alone (R171). -/
theorem sameButTrace_traceRec (h : SameButTrace s t) (rec : TraceRec) : SameButTrace (s.traceRec rec) (t.traceRec rec) := by
  obtain ⟨tr, d, rfl⟩ := h.exists_observed
  rw [State.traceRec_eq, State.traceRec_eq]
  rfl

theorem sameButTrace_respondEngine (h : SameButTrace s t) (q : Response) :
    SameButTrace (s.respondEngine q) (t.respondEngine q) := by
  obtain ⟨tr, d, rfl⟩ := h.exists_observed
  rfl

theorem sameButTrace_respondHost (h : SameButTrace s t) (q : Response) :
    SameButTrace (s.respondHost q) (t.respondHost q) := by
  obtain ⟨tr, d, rfl⟩ := h.exists_observed
  rfl

theorem sameButTrace_writeRam (h : SameButTrace s t) (a : Addr) (v : Byte) :
    SameButTrace (s.writeRam a v) (t.writeRam a v) := by
  obtain ⟨tr, d, rfl⟩ := h.exists_observed
  rfl

theorem sameButTrace_setLoop (h : SameButTrace s t) (p : LoopPos) : SameButTrace (s.setLoop p) (t.setLoop p) := by
  obtain ⟨tr, d, rfl⟩ := h.exists_observed
  rfl

theorem sameButTrace_setInbox (h : SameButTrace s t) (x : List Event) : SameButTrace (s.setInbox x) (t.setInbox x) := by
  obtain ⟨tr, d, rfl⟩ := h.exists_observed
  rfl

theorem sameButTrace_showControl (h : SameButTrace s t) (c : Strobe) :
    SameButTrace (s.showControl c) (t.showControl c) := by
  obtain ⟨tr, d, rfl⟩ := h.exists_observed
  rfl

theorem sameButTrace_finishBus (h : SameButTrace s t) (rec : TraceRec) (v : Byte) :
    SameButTrace (s.finishBus rec v) (t.finishBus rec v) :=
  sameButTrace_respondEngine (sameButTrace_traceRec h rec) _

theorem samePairButTrace_memRead (h : SameButTrace s t) (a : Addr) : SamePairButTrace (memRead a s) (memRead a t) := by
  unfold memRead
  rw [h.cfg_eq]
  obtain ⟨tr, d, rfl⟩ := h.exists_observed
  cases region s.cfg.params a <;> exact ⟨rfl, rfl⟩

theorem samePairButTrace_busRead (h : SameButTrace s t) (a : Addr) : SamePairButTrace (busRead a s) (busRead a t) := by
  have hm := samePairButTrace_memRead h a
  obtain ⟨tr, d, rfl⟩ := h.exists_observed
  refine rel_ite ⟨rfl, sameButTrace_respondEngine h _⟩ ⟨hm.1, ?_⟩
  rw [← hm.1]
  exact sameButTrace_finishBus hm.2 _ _

theorem sameButTrace_busWrite (h : SameButTrace s t) (a : Addr) (v : Byte) :
    SameButTrace (busWrite a v s) (busWrite a v t) := by
  obtain ⟨tr, d, rfl⟩ := h.exists_observed
  exact rel_ite (sameButTrace_respondEngine h _) (sameButTrace_finishBus (sameButTrace_writeRam h a v) _ _)

theorem sameButTrace_runProg (p : EngineProg) (h : SameButTrace s t) : SameButTrace (runProg p s) (runProg p t) := by
  induction p generalizing s t with
  | ret e =>
    obtain ⟨tr, d, rfl⟩ := h.exists_observed
    rfl
  | read a k ih =>
    obtain ⟨hb, hs⟩ := samePairButTrace_busRead h a
    rw [runProg, runProg, ← hb]
    exact ih _ hs
  | write a v k ih => exact ih (sameButTrace_busWrite h a v)

theorem samePairButTrace_beginRun (h : SameButTrace s t) (op : EngineOp) :
    SamePairButTrace (beginRun op s) (beginRun op t) := by
  obtain ⟨tr, d, rfl⟩ := h.exists_observed
  exact rel_ite ⟨rfl, rfl⟩ ⟨rfl, rfl⟩

theorem sameButTrace_runWhole (h : SameButTrace s t) (op : EngineOp) :
    SameButTrace (runWhole op s) (runWhole op t) := by
  obtain ⟨hr, hs⟩ := samePairButTrace_beginRun h op
  rw [runWhole, runWhole, ← hr, h.cfg_eq]
  exact sameButTrace_runProg _ hs

theorem sameButTrace_strobe (h : SameButTrace s t) (op : EngineOp) : SameButTrace (strobe op s) (strobe op t) :=
  sameButTrace_showControl (sameButTrace_runWhole (sameButTrace_showControl h _) op) _

theorem sameButTrace_stepEngine (h : SameButTrace s t) : SameButTrace (stepEngine s) (stepEngine t) :=
  sameButTrace_strobe (sameButTrace_traceRec h _) .step

/-! ### The timer and the iteration -/

theorem samePairButTrace_sampleNow (h : SameButTrace s t) : SamePairButTrace s.sampleNow t.sampleNow := by
  unfold State.sampleNow
  rw [h.timeIn_eq]
  obtain ⟨tr, d, rfl⟩ := h.exists_observed
  cases s.timeIn <;> exact ⟨rfl, rfl⟩

theorem sameButTrace_setLft (h : SameButTrace s t) (x : Nat) : SameButTrace (s.setLft x) (t.setLft x) := by
  obtain ⟨tr, d, rfl⟩ := h.exists_observed
  rfl

theorem sameButTrace_requestIrq (h : SameButTrace s t) : SameButTrace (requestIrq s) (requestIrq t) := by
  have hs := sameButTrace_strobe h .irq
  obtain ⟨tr, d, rfl⟩ := h.exists_observed
  exact rel_ite hs h

theorem sameButTrace_timerPoll (h : SameButTrace s t) (x : Nat) : SameButTrace (timerPoll x s) (timerPoll x t) := by
  have hr := sameButTrace_requestIrq (sameButTrace_setLft h x)
  obtain ⟨tr, d, rfl⟩ := h.exists_observed
  exact rel_ite hr h

theorem sameButTrace_pollNow (h : SameButTrace s t) : SameButTrace (pollNow s) (pollNow t) := by
  obtain ⟨hx, hs⟩ := samePairButTrace_sampleNow h
  rw [pollNow, pollNow, ← hx]
  exact sameButTrace_timerPoll hs _

theorem sameButTrace_iterFromPoll (h : SameButTrace s t) : SameButTrace (iterFromPoll s) (iterFromPoll t) :=
  sameButTrace_setLoop (sameButTrace_pollNow h) _

theorem sameButTrace_iterFromReload (h : SameButTrace s t) : SameButTrace (iterFromReload s) (iterFromReload t) := by
  obtain ⟨hx, hs⟩ := samePairButTrace_sampleNow h
  rw [iterFromReload, iterFromReload, reloadNow, reloadNow, ← hx]
  exact sameButTrace_setLoop (sameButTrace_setLft hs _) _

theorem sameButTrace_iterFromA6 (h : SameButTrace s t) : SameButTrace (iterFromA6 s) (iterFromA6 t) := by
  have hr := sameButTrace_iterFromReload h
  have hp := sameButTrace_iterFromPoll h
  obtain ⟨tr, d, rfl⟩ := h.exists_observed
  exact rel_ite hr (rel_ite hp rfl)

theorem sameButTrace_setReset (h : SameButTrace s t) (b : Bool) : SameButTrace (s.setReset b) (t.setReset b) := by
  obtain ⟨tr, d, rfl⟩ := h.exists_observed
  rfl

theorem sameButTrace_iterFromA5 (h : SameButTrace s t) : SameButTrace (iterFromA5 s) (iterFromA5 t) :=
  sameButTrace_iterFromA6 (sameButTrace_setReset h false)

theorem sameButTrace_iterFromA4 (h : SameButTrace s t) : SameButTrace (iterFromA4 s) (iterFromA4 t) :=
  sameButTrace_iterFromA5 (sameButTrace_strobe h .reset)

theorem sameOutcome_iterFromA8 (h : SameButTrace s t) : SameOutcomeButTrace (iterFromA8 s) (iterFromA8 t) := by
  have hp := sameButTrace_iterFromPoll (sameButTrace_stepEngine h)
  obtain ⟨tr, d, rfl⟩ := h.exists_observed
  exact rel_ite rfl hp

theorem sameOutcome_iterFromA7 (h : SameButTrace s t) : SameOutcomeButTrace (iterFromA7 s) (iterFromA7 t) := by
  have hr := sameButTrace_iterFromReload h
  have h8 := sameOutcome_iterFromA8 h
  obtain ⟨tr, d, rfl⟩ := h.exists_observed
  exact rel_ite hr h8

theorem sameButTrace_clearRam (h : SameButTrace s t) :
    SameButTrace ((s.setDraws (s.draws + 1)).setRam Memory.zero) ((t.setDraws (t.draws + 1)).setRam Memory.zero) := by
  obtain ⟨tr, d, rfl⟩ := h.exists_observed
  rfl

theorem sameOutcome_iterFromA2 (h : SameButTrace s t) : SameOutcomeButTrace (iterFromA2 s) (iterFromA2 t) := by
  have h4 := sameButTrace_iterFromA4 (sameButTrace_clearRam h)
  have h7 := sameOutcome_iterFromA7 h
  obtain ⟨tr, d, rfl⟩ := h.exists_observed
  exact rel_ite h4 h7

theorem sameButTrace_stopNow (h : SameButTrace s t) : SameButTrace s.stopNow t.stopNow := by
  obtain ⟨tr, d, rfl⟩ := h.exists_observed
  rw [State.stopNow_eq, State.stopNow_eq]
  rfl

theorem sameOutcome_iterFromA1 (h : SameButTrace s t) : SameOutcomeButTrace (iterFromA1 s) (iterFromA1 t) := by
  have hs := sameButTrace_stopNow h
  have h2 := sameOutcome_iterFromA2 h
  obtain ⟨tr, d, rfl⟩ := h.exists_observed
  exact rel_ite hs h2

theorem sameButTrace_iterAfter (h : SameButTrace s t) (op : EngineOp) :
    SameButTrace (iterAfter op s) (iterAfter op t) := by
  cases op with
  | step => exact sameButTrace_iterFromPoll h
  | reset => exact sameButTrace_iterFromA5 h
  | irq => exact sameButTrace_setLoop h _
  | nmi => exact sameButTrace_setLoop h _

theorem sameOutcome_iterFromStart (h : SameButTrace s t) (op : EngineOp) :
    SameOutcomeButTrace (iterFromStart op s) (iterFromStart op t) := by
  have ha := sameButTrace_iterAfter (sameButTrace_strobe h op) op
  obtain ⟨tr, d, rfl⟩ := h.exists_observed
  exact rel_ite rfl ha

theorem samePairButTrace_finishTransaction (h : SameButTrace s t) (run : EngineRun) :
    SamePairButTrace (finishTransaction run s) (finishTransaction run t) := by
  unfold finishTransaction
  obtain ⟨tr, d, rfl⟩ := h.exists_observed
  cases run.bus with
  | idle => exact ⟨rfl, h⟩
  | scan m acc r => exact ⟨rfl, sameButTrace_finishBus (sameButTrace_writeRam h _ _) _ _⟩
  | emit rec v => exact ⟨rfl, sameButTrace_finishBus h _ _⟩

theorem sameButTrace_finishRun (h : SameButTrace s t) (run : EngineRun) :
    SameButTrace (finishRun run s) (finishRun run t) := by
  obtain ⟨ha, hs⟩ := samePairButTrace_finishTransaction h run
  rw [finishRun, finishRun, ← ha, h.cfg_eq]
  exact sameButTrace_runProg _ hs

theorem sameButTrace_clearFrom (h : SameButTrace s t) (order k : Nat) :
    SameButTrace (s.setRam (s.ram.clearFrom order k)) (t.setRam (t.ram.clearFrom order k)) := by
  obtain ⟨tr, d, rfl⟩ := h.exists_observed
  rfl

theorem sameOutcome_iterate (h : SameButTrace s t) : SameOutcomeButTrace (iterate s) (iterate t) := by
  unfold iterate
  rw [h.stopped_eq, h.loop_eq]
  refine rel_ite h ?_
  cases s.loop with
  | top => exact sameOutcome_iterFromA1 h
  | stopping => exact sameButTrace_stopNow h
  | a2 => exact sameOutcome_iterFromA2 h
  | fill k order => exact sameButTrace_iterFromA4 (sameButTrace_clearFrom h order k)
  | start op => exact sameOutcome_iterFromStart h op
  | inEngine run =>
    exact sameButTrace_iterAfter (sameButTrace_showControl (sameButTrace_setLoop (sameButTrace_finishRun h run) _) _) _
  | a5 => exact sameButTrace_iterFromA5 h
  | a6 => exact sameButTrace_iterFromA6 h
  | reload => exact sameButTrace_iterFromReload h
  | a7 => exact sameOutcome_iterFromA7 h
  | a8 => exact sameOutcome_iterFromA8 h
  | poll => exact sameButTrace_iterFromPoll h
  | gate => exact sameButTrace_setLoop (sameButTrace_requestIrq h) _

/-! ### Turns -/

theorem samePairButTrace_beginRead (h : SameButTrace s t) (run : EngineRun) (a : Addr) :
    SamePairButTrace (beginRead run a s) (beginRead run a t) := by
  unfold beginRead
  rw [h.cfg_eq]
  obtain ⟨tr, d, rfl⟩ := h.exists_observed
  refine rel_ite ⟨rfl, rfl⟩ ?_
  cases region s.cfg.params a <;> exact ⟨rfl, rfl⟩

theorem samePairButTrace_beginWrite (h : SameButTrace s t) (run : EngineRun) (a : Addr) (v : Byte) :
    SamePairButTrace (beginWrite run a v s) (beginWrite run a v t) := by
  obtain ⟨tr, d, rfl⟩ := h.exists_observed
  exact rel_ite ⟨rfl, rfl⟩ ⟨rfl, rfl⟩

theorem SamePairButTrace.some {α : Type} {x y : α × State} (h : SamePairButTrace x y) :
    SamePairButTrace (Option.some x.1, x.2) (Option.some y.1, y.2) := ⟨congrArg Option.some h.1, h.2⟩

theorem samePairButTrace_runTurn (h : SameButTrace s t) (run : EngineRun) :
    SamePairButTrace (runTurn run s) (runTurn run t) := by
  unfold runTurn
  cases run.bus with
  | idle =>
    simp only [h.cfg_eq]
    cases remaining (engineProg s.cfg.engine run.prog) run.answers with
    | ret e => exact ⟨rfl, sameButTrace_runProg (.ret e) h⟩
    | read a k => exact (samePairButTrace_beginRead h run a).some
    | write a v k => exact (samePairButTrace_beginWrite h run a v).some
  | scan m acc r =>
    simp only [h.cfg_eq]
    refine rel_ite ⟨?_, h⟩ ⟨rfl, sameButTrace_writeRam h _ _⟩
    rw [h]
  | emit rec v => exact ⟨rfl, sameButTrace_finishBus h rec v⟩

theorem sameOutcome_startTurn (h : SameButTrace s t) (op : EngineOp) :
    SameOutcomeButTrace (startTurn op s) (startTurn op t) := by
  obtain ⟨hr, hs⟩ := samePairButTrace_beginRun (sameButTrace_showControl h (strobeCode op)) op
  have hb := sameButTrace_setLoop hs (.inEngine (beginRun op (s.showControl (strobeCode op))).1)
  unfold startTurn
  rw [← hr]
  obtain ⟨tr, d, rfl⟩ := h.exists_observed
  exact rel_ite rfl hb

theorem sameButTrace_engineTurn (h : SameButTrace s t) (run : EngineRun) :
    SameButTrace (engineTurn run s) (engineTurn run t) := by
  obtain ⟨hr, hs⟩ := samePairButTrace_runTurn h run
  unfold engineTurn
  revert hr hs
  cases runTurn run s with
  | mk r s' =>
    cases runTurn run t with
    | mk r' t' =>
      rintro rfl hs
      cases r with
      | some run' => exact sameButTrace_setLoop hs _
      | none => exact sameButTrace_setLoop (sameButTrace_showControl hs _) _

theorem sameButTrace_pollTurn (h : SameButTrace s t) : SameButTrace (pollTurn s) (pollTurn t) := by
  obtain ⟨hx, hs⟩ := samePairButTrace_sampleNow h
  have hg := sameButTrace_setLoop (sameButTrace_setLft hs s.sampleNow.1) .gate
  have ht := sameButTrace_setLoop hs .top
  have hl : t.sampleNow.2.lft = s.sampleNow.2.lft := by rw [hs]
  unfold pollTurn State.timerDue
  rw [← hx, hl]
  exact rel_ite hg ht

theorem sameOutcome_loopTurn (h : SameButTrace s t) : SameOutcomeButTrace (loopTurn s) (loopTurn t) := by
  have hstart := fun op => sameOutcome_startTurn h op
  have hengine := fun run => sameButTrace_engineTurn h run
  have hstop := sameButTrace_stopNow h
  have hreload := sameButTrace_iterFromReload h
  have hstep := sameButTrace_setLoop (sameButTrace_traceRec h .step) (.start .step)
  have hpoll := sameButTrace_pollTurn h
  unfold loopTurn
  rw [h.stopped_eq, h.loop_eq]
  obtain ⟨tr, d, rfl⟩ := h.exists_observed
  refine rel_ite h ?_
  cases s.loop with
  | top => rfl
  | stopping => exact hstop
  | a2 => exact rel_ite (R := SameButTrace) rfl rfl
  | fill k order => exact rel_ite (R := SameButTrace) rfl rfl
  | start op => exact hstart op
  | inEngine run => exact hengine run
  | a5 => rfl
  | a6 => exact rel_ite (R := SameButTrace) rfl (rel_ite rfl rfl)
  | reload => exact hreload
  | a7 => rfl
  | a8 => exact hstep
  | poll => exact hpoll
  | gate => rfl

theorem samePairButTrace_initTurn (h : SameButTrace s t) (im : Images) (pos : InitPos) :
    SamePairButTrace (initTurn im pos s) (initTurn im pos t) := by
  obtain ⟨tr, d, rfl⟩ := h.exists_observed
  cases pos with
  | ramFill k order => exact rel_ite ⟨rfl, rfl⟩ ⟨rfl, rfl⟩
  | romFill k order => exact rel_ite ⟨rfl, rfl⟩ ⟨rfl, rfl⟩
  | copy b i =>
    simp only [initTurn]
    cases (im.bytes b)[i]? <;> exact ⟨rfl, rfl⟩
  | flag => exact ⟨rfl, rfl⟩

theorem samePairButTrace_turn (h : SameButTrace s t) (c : HostCall) : SamePairButTrace (c.turn s) (c.turn t) := by
  cases c with
  | init im pos =>
    obtain ⟨hp, hs⟩ := samePairButTrace_initTurn h im pos
    exact ⟨by rw [HostCall.turn, HostCall.turn, hp], hs⟩
  | nmi run =>
    obtain ⟨hr, hs⟩ := samePairButTrace_runTurn h run
    exact ⟨by rw [HostCall.turn, HostCall.turn, hr], hs⟩
  | keyScan m acc r =>
    obtain ⟨tr, d, rfl⟩ := h.exists_observed
    exact rel_ite ⟨rfl, rfl⟩ ⟨rfl, rfl⟩

theorem sameButTrace_setCalls (h : SameButTrace s t) (cs : List HostCall) :
    SameButTrace (s.setCalls cs) (t.setCalls cs) := by
  obtain ⟨tr, d, rfl⟩ := h.exists_observed
  rfl

theorem sameButTrace_callTurn (h : SameButTrace s t) (k : Nat) : SameButTrace (callTurn k s) (callTurn k t) := by
  unfold callTurn
  rw [h.calls_eq]
  cases s.calls[k]? with
  | none => exact h
  | some c =>
    obtain ⟨hr, hs⟩ := samePairButTrace_turn h c
    simp only [← hr]
    exact sameButTrace_setCalls hs _

theorem sameButTrace_beginNmi (h : SameButTrace s t) : SameButTrace (beginNmi s) (beginNmi t) := by
  obtain ⟨hr, hs⟩ := samePairButTrace_beginRun h .nmi
  rw [beginNmi, beginNmi, ← hr, hs.calls_eq]
  exact sameButTrace_setCalls hs _

/-! ### Commands, events and steps -/

theorem sameOutcome_onHost {k k' : Host.Outcome State Fault Refusal} (h : SameButTrace s t)
    (hk : SameOutcomeButTrace k k') : SameOutcomeButTrace (s.onHost k) (t.onHost k') := by
  unfold State.onHost
  rw [h.stopped_eq]
  exact rel_ite (sameButTrace_respondHost h _) hk

theorem sameOutcome_onInit {k k' : State} (h : SameButTrace s t) (hk : SameButTrace k k') :
    SameOutcomeButTrace (s.onInit k) (t.onInit k') := by
  refine sameOutcome_onHost h ?_
  rw [h.images_eq]
  obtain ⟨tr, d, rfl⟩ := h.exists_observed
  refine rel_ite rfl (rel_ite rfl ?_)
  cases configErrorCode s.images with
  | some code => rfl
  | none => exact hk

theorem sameOutcome_onControl {k k' : Host.Outcome State Fault Refusal} (h : SameButTrace s t)
    (hk : SameOutcomeButTrace k k') : SameOutcomeButTrace (s.onControl k) (t.onControl k') := by
  obtain ⟨tr, d, rfl⟩ := h.exists_observed
  exact rel_ite rfl (rel_ite rfl hk)

theorem sameOutcome_execEngStep (h : SameButTrace s t) : SameOutcomeButTrace (execEngStep s) (execEngStep t) := by
  refine sameOutcome_onControl h ?_
  have hs := sameButTrace_stepEngine h
  obtain ⟨tr, d, rfl⟩ := h.exists_observed
  exact rel_ite rfl hs

theorem sameOutcome_strobe (h : SameButTrace s t) (op : EngineOp) :
    SameOutcomeButTrace (s.onControl (.next (strobe op s))) (t.onControl (.next (strobe op t))) :=
  sameOutcome_onControl (k' := .next (strobe op t)) h (sameButTrace_strobe h op)

theorem sameOutcome_exec (h : SameButTrace s t) (i : Instr) : SameOutcomeButTrace (exec i s) (exec i t) := by
  have hiter := sameOutcome_iterate h
  have hstep := sameOutcome_execEngStep h
  have hstrobe := fun op => sameOutcome_strobe h op
  have hread := fun a => (samePairButTrace_busRead h a).2
  have hwrite := fun a v => sameButTrace_busWrite h a v
  obtain ⟨tr, d, rfl⟩ := h.exists_observed
  cases i with
  | busRead a => exact hread a
  | busWrite a v => exact hwrite a v
  | init => exact sameOutcome_onInit h rfl
  | iter => exact hiter
  | engStep => exact hstep
  | engReset => exact hstrobe .reset
  | engIrq => exact hstrobe .irq
  | _ => exact sameOutcome_onHost h rfl

/-- What a step is about, alike but for observation. -/
def Todo.SameButTrace : Todo → Todo → Prop
  | .run i s, .run j t => i = j ∧ Machine.SameButTrace s t
  | .done o, .done o' => SameOutcomeButTrace o o'
  | _, _ => False

theorem sameOutcome_refuseWord (h : SameButTrace s t) (src : Source) :
    SameOutcomeButTrace (s.refuseWord src) (t.refuseWord src) := by
  obtain ⟨tr, d, rfl⟩ := h.exists_observed
  cases src <;> rfl

theorem sameTodo_onLine (h : SameButTrace s t) (src : Source) (raw : RawWord) :
    (onLine src raw s).SameButTrace (onLine src raw t) := by
  unfold onLine
  cases decode raw with
  | ok i => exact rel_ite ⟨rfl, h⟩ (sameOutcome_refuseWord h src)
  | error e => exact rel_ite h (sameOutcome_refuseWord h src)

theorem sameTodo_onEvent (h : SameButTrace s t) (ev : Event) : (onEvent ev s).SameButTrace (onEvent ev t) := by
  have hnmi := sameButTrace_runWhole h .nmi
  have hbegin := sameButTrace_beginNmi h
  have hloop := sameOutcome_loopTurn h
  have hcall := fun k => sameButTrace_callTurn h k
  have hline := fun src raw => sameTodo_onLine h src raw
  obtain ⟨tr, d, rfl⟩ := h.exists_observed
  cases ev with
  | line src raw => exact hline src raw
  | images im => rfl
  | now x => exact rel_ite (R := SameOutcomeButTrace) rfl rfl
  | nmi => exact hnmi
  | beginNmi => exact hbegin
  | beginInit => exact sameOutcome_onInit h rfl
  | beginKeyScan m => exact sameOutcome_onHost h rfl
  | loopTurn => exact hloop
  | callTurn k => exact hcall k

theorem sameTodo_nextEvent (h : SameButTrace s t) : (nextEvent s).SameButTrace (nextEvent t) := by
  unfold nextEvent
  rw [h.inbox_eq]
  cases s.inbox with
  | nil => exact ⟨rfl, h⟩
  | cons ev rest =>
    have hcall := sameButTrace_callTurn h (s.calls.findIdx HostCall.isInit)
    have hevent := sameTodo_onEvent (sameButTrace_setInbox h rest) ev
    obtain ⟨tr, d, rfl⟩ := h.exists_observed
    exact rel_ite ⟨rfl, h⟩ (rel_ite hcall hevent)

end

end Sys2Proof.Machine

open Sys2Proof Sys2Proof.Machine

/-- Settles O48: what a step is about is alike in both states, and so is every operation it may run. -/
theorem traceHasNoEffect : Obligations.TraceHasNoEffect := by
  intro s t h
  have hn := sameTodo_nextEvent h
  unfold step
  revert hn
  cases nextEvent s with
  | run i s' =>
    cases nextEvent t with
    | run j t' => rintro ⟨rfl, hs⟩; exact sameOutcome_exec hs i
    | done o' => exact False.elim
  | done o =>
    cases nextEvent t with
    | run j t' => exact False.elim
    | done o' => exact id

end

section
/-! The bus transactions and the peeks, from the laws of memory (spec/40_address_space.md R86 to R92). -/
namespace Sys2Proof.Machine

/-- The end of a transaction: the record when `F.debug = 1`, and the response. -/
theorem finishBus_appends (s : State) (rec : TraceRec) (v : Byte) :
    s.finishBus rec v =
      { s with trace := s.trace ++ (if s.fDebug then [rec] else []), engineResp := some (okResponse v) } := by
  rw [State.finishBus_eq]
  by_cases hd : s.fDebug = true <;> simp [State.setTrace, State.setEngineResp, hd]

theorem BusEffect.stopped_eq {s t : State} (h : BusEffect s t) : t.stopped = s.stopped := by
  unfold BusEffect at h; rw [h]

theorem BusEffect.cfg_eq {s t : State} (h : BusEffect s t) : t.cfg = s.cfg := by
  unfold BusEffect at h; rw [h]

theorem region_kbdDataAddr (p : Params) : region p p.kbdDataAddr = .keyboard := if_pos rfl

theorem region_ne_keyboard {p : Params} {a : Addr} (ha : a ≠ p.kbdDataAddr) : region p a ≠ .keyboard := by
  rw [region, if_neg ha]
  split
  · nofun
  · split <;> nofun

/-- Outside the keyboard port the decoded byte is `ROM`'s in a window and `RAM`'s elsewhere (R45, R86). -/
theorem arrayRead_region {s : State} {a : Addr} (ha : a ≠ s.cfg.params.kbdDataAddr) :
    arrayRead (region s.cfg.params a) a s =
      if s.cfg.params.basicBase.toNat ≤ a.toNat ∧ a.toNat < s.cfg.params.basicBase.toNat + 8192 then s.readRom a
      else if s.cfg.params.kernelBase.toNat ≤ a.toNat ∧ a.toNat < s.cfg.params.kernelBase.toNat + 8192 then s.readRom a
      else s.readRam a := by
  rw [region_eq_of_bounds, if_neg ha]
  split
  · rfl
  · split <;> rfl

/-- In a window the decoded byte is `ROM`'s. -/
theorem arrayRead_window {s : State} {a : Addr} {r : Region} (hr : r = .basic ∨ r = .kernel) : arrayRead r a s = s.readRom a := by
  rcases hr with rfl | rfl <;> rfl

theorem ne_keyboard_of_window {r : Region} (hr : r = .basic ∨ r = .kernel) : r ≠ .keyboard := by
  rcases hr with rfl | rfl <;> nofun

/-- A read of a window answers the byte of `ROM`, or the refusal after `STOPPED = 1`. -/
theorem engineResp_busRead_window {s : State} {a : Addr}
    (hr : region s.cfg.params a = .basic ∨ region s.cfg.params a = .kernel) :
    (busRead a s).2.engineResp = some (if s.stopped then afterStop else okResponse (s.readRom a)) := by
  split
  · rename_i hs
    rw [busRead_stopped a hs]
    rfl
  · rename_i hs
    rw [engineResp_busRead_array (by simpa using hs) (ne_keyboard_of_window hr), arrayRead_window hr]

theorem exec_peekRam {s : State} (hs : s.stopped = false) (a : Addr) :
    exec (.peekRam a) s = .next (s.respondHost (okResponse (s.readRam a))) := onHost_of_running hs _

theorem exec_peekRom {s : State} (hs : s.stopped = false) (a : Addr) :
    exec (.peekRom a) s = .next (s.respondHost (okResponse (s.readRom a))) := onHost_of_running hs _

/-- Any number of writes complete; they keep the form of `RAM` and every byte at an address that none of them has. -/
theorem busWrites_keep (ws : List (Addr × Byte)) {s : State} (hs : s.stopped = false) (hw : s.ram.wf = true) :
    ∃ u, busWrites ws s = .next u ∧ BusEffect s u ∧ ∀ a : Addr, (∀ w ∈ ws, w.1 ≠ a) → u.readRam a = s.readRam a := by
  induction ws generalizing s with
  | nil => exact ⟨s, rfl, .refl s, fun _ _ => rfl⟩
  | cons w ws ih =>
    obtain ⟨b, v⟩ := w
    have hb := busEffect_busWrite b v s
    obtain ⟨u, hu, he, hread⟩ := ih (hb.stopped_eq.trans hs) (ramWf_busWrite hw b v)
    refine ⟨u, hu, hb.trans he, fun a ha => ?_⟩
    rw [hread a fun w hm => ha w (List.mem_cons_of_mem _ hm), readRam_busWrite hw hs,
      if_neg (ha (b, v) List.mem_cons_self).symm]

theorem region_of_not_shadowed {p : Params} {a : Addr} (h : shadowed p a = false) : region p a = .ram := by
  simpa [shadowed] using h

end Sys2Proof.Machine

open Sys2Proof Sys2Proof.Machine

/-- Settles O9: a read of an array address writes the record and the response alone, of the byte the decode names. -/
theorem busReadAnswersDecodedByte : Obligations.BusReadAnswersDecodedByte := by
  intro s a hs ha
  rw [exec_busRead, busRead_array hs (region_ne_keyboard ha), finishBus_appends, arrayRead_region ha]

/-- Settles O10: a read of the keyboard port is one write of the scan to its mirror, then the record and the response. -/
theorem keyboardPortRead : Obligations.KeyboardPortRead := by
  intro s hs hw
  refine ⟨_, exec_busRead _ s, ?_, fun b => ?_, ?_, busEffect_busRead _ s⟩ <;>
    rw [busRead_keyboard hs (region_kbdDataAddr _)]
  · exact finishBus_engineResp _ _ _
  · rw [finishBus_readRam, State.readRam_writeRam hw]
    rfl
  · rw [finishBus_appends]
    rfl

/-- Settles O11: the write lands in `RAM`, where a peek finds it, and a window reads `ROM`, which it leaves. -/
theorem busWriteLandsInRam : Obligations.BusWriteLandsInRam := by
  intro s a v hs hw
  have hb := busEffect_busWrite a v s
  have hs' := hb.stopped_eq.trans hs
  refine ⟨_, exec_busWrite a v s, fun b => readRam_busWrite hw hs a b v, ?_, ?_, hb,
    ⟨_, exec_peekRam hs' a, ?_⟩, fun hr => ⟨_, exec_busRead a _, ?_⟩⟩
  · rw [busWrite_eq hs, finishBus_appends]
    rfl
  · rw [busWrite_eq hs, finishBus_engineResp]
  · rw [readRam_busWrite hw hs, if_pos rfl]
    rfl
  · rw [engineResp_busRead_window (by rwa [hb.cfg_eq]), hs', State.readRom, hb.rom_eq]
    rfl

/-- Settles O12: the writes in between keep the byte, and an unshadowed address reads `RAM`. -/
theorem readAfterWrite : Obligations.ReadAfterWrite := by
  intro s a v others hs hw hsh hothers
  have hb := busEffect_busWrite a v s
  obtain ⟨u, hu, he, hread⟩ := busWrites_keep others (hb.stopped_eq.trans hs) (ramWf_busWrite hw a v)
  refine ⟨_, u, _, exec_busWrite a v s, hu, exec_busRead a u, ?_⟩
  have hbu := hb.trans he
  have hr : region u.cfg.params a = .ram := by rw [hbu.cfg_eq]; exact region_of_not_shadowed hsh
  have hv : u.readRam a = v := by rw [hread a hothers, readRam_busWrite hw hs, if_pos rfl]
  rw [engineResp_busRead_array (hbu.stopped_eq.trans hs) (by rw [hr]; nofun), hr, ← hv]
  rfl

/-- Settles O13: the answer is the byte of `ROM`, or the refusal after `STOPPED = 1`. -/
theorem romWindowReadIgnoresRam : Obligations.RomWindowReadIgnoresRam := by
  intro s m a hr
  refine ⟨_, _, exec_busRead a s, exec_busRead a _, ?_⟩
  rw [engineResp_busRead_window hr, engineResp_busRead_window (s := { s with ram := m }) hr]
  rfl

/-- Settles O14: before `STOPPED = 1` a host command has its own effect. -/
theorem peekRamReadsTheArray : Obligations.PeekRamReadsTheArray := fun _ a hs => exec_peekRam hs a

/-- Settles O15, as O14. -/
theorem peekRomReachesEveryOffset : Obligations.PeekRomReachesEveryOffset := fun _ a hs => exec_peekRom hs a

/-- Settles O49, by the laws of memory. -/
theorem memoryLaws : Obligations.MemoryLaws :=
  ⟨fun _ _ _ _ hm => Memory.read_write hm, fun _ a _ hm => Memory.wf_write hm a.isLt, fun _ _ => Memory.eq_of_read⟩

end

section
/-! The key matrix through `KEY_SET`, `KEY_GET`, `KEY_SCAN` and a key change inside a scan (spec/41_keyboard_matrix.md,
spec/70_reset_and_hazards.md R198). -/
namespace Sys2Proof.Machine

/-- The state a `KEY_SET` leaves (R101). -/
def State.afterKeySet (s : State) (row col : BitVec 3) (pressed : Bool) : State :=
  (s.setKmRow row (keyRowAfter (s.kmRow row) col pressed)).respondHost (okResponse 0)

theorem exec_keySet {s : State} (hs : s.stopped = false) (row col : BitVec 3) (pressed : Bool) :
    exec (.keySet row col pressed) s = .next (s.afterKeySet row col pressed) := onHost_of_running hs _

theorem kmRow_afterKeySet (s : State) (row col r : BitVec 3) (pressed : Bool) :
    (s.afterKeySet row col pressed).kmRow r = if r = row then keyRowAfter (s.kmRow row) col pressed else s.kmRow r := by
  rw [State.afterKeySet, kmRow_respondHost, State.kmRow_setKmRow]

theorem bit_afterKeySet (s : State) (row col r c : BitVec 3) (pressed : Bool) :
    ((s.afterKeySet row col pressed).kmRow r).getLsbD c.toNat =
      if r = row ∧ c = col then !pressed else (s.kmRow r).getLsbD c.toNat := by
  rw [kmRow_afterKeySet]
  by_cases hr : r = row
  · subst hr
    rw [if_pos rfl, keyRowAfter_bit]
    simp
  · rw [if_neg hr, if_neg fun h => hr h.1]

/-- `KEY_SET` done again changes nothing. -/
theorem afterKeySet_twice (s : State) (row col : BitVec 3) (pressed : Bool) :
    (s.afterKeySet row col pressed).afterKeySet row col pressed = s.afterKeySet row col pressed := by
  rw [State.afterKeySet, kmRow_afterKeySet, if_pos rfl, keyRowAfter_twice]
  unfold State.afterKeySet State.respondHost State.setKmRow State.setHostResp State.setKm
  simp

/-- The first `m + n` turns of a scan are the first `m` and then `n` more. -/
theorem scanRows_add (km : Vector Byte 8) (m : Byte) (k n r : Nat) (acc : Byte) :
    scanRows km m (k + n) r acc = scanRows km m n (r + k) (scanRows km m k r acc) := by
  induction k generalizing r acc with
  | zero => rw [Nat.zero_add]; rfl
  | succ k ih =>
    rw [Nat.succ_add, scanRows, scanRows, ih]
    congr 1
    omega

/-- Turns that do not come to a row do not see it changed. -/
theorem scanRows_set {km : Vector Byte 8} {i : Nat} (hi : i < 8) (v m : Byte) (n r : Nat) (acc : Byte)
    (h : i < r ∨ r + n ≤ i) : scanRows (km.set i v hi) m n r acc = scanRows km m n r acc := by
  induction n generalizing r acc with
  | zero => rfl
  | succ n ih =>
    have hrow : scanRow (km.set i v hi) m acc r = scanRow km m acc r := by
      unfold scanRow
      split
      · rw [Vector.getElem_set_ne _ _ (by omega)]
      · rfl
    rw [scanRows, scanRows, hrow, ih _ _ (by omega)]

end Sys2Proof.Machine

open Sys2Proof Sys2Proof.Machine

/-- Settles O16: `KEY_SET` writes its own bit, and the row it leaves is the one it would leave again. -/
theorem keySetChangesOneBit : Obligations.KeySetChangesOneBit := by
  intro s row col pressed hs
  refine ⟨_, exec_keySet hs row col pressed, fun r c => bit_afterKeySet s row col r c pressed, rfl, rfl, ?_⟩
  rw [exec_keySet (s := s.afterKeySet row col pressed) hs, afterKeySet_twice]

/-- Settles O17: the key is held just when its bit is clear. -/
theorem keyGetTellsWhetherHeld : Obligations.KeyGetTellsWhetherHeld := by
  intro s row col hs
  rw [exec_keyGet hs, State.keyHeld]
  cases (s.kmRow row).getLsbD col.toNat <;> rfl

/-- Settles O18: a column of a scan is 1 just when every selected row has it 1. -/
theorem keyScanCombinesSelectedRows : Obligations.KeyScanCombinesSelectedRows := by
  refine fun s m hs => ⟨scan s.km m, onHost_of_running hs _, fun c => ?_⟩
  rw [← Bool.not_eq_true, scan_bit_iff_rows]
  simp

/-- Settles O54: the rows read before the change and those read after it are all of the old matrix when the row changed is among the
first, and all of the new one when it is not. -/
theorem keyChangeDuringScan : Obligations.KeyChangeDuringScan := by
  intro km row v m r hr
  have whole : ∀ km : Vector Byte 8, scan km m = scanRows km m (8 - r) r (scanRows km m r 0 0xFF) := fun km => by
    have h := scanRows_add km m r (8 - r) 0 0xFF
    rwa [show r + (8 - r) = 8 by omega, Nat.zero_add] at h
  by_cases hrow : row.toNat < r
  · left
    rw [whole, scanRows_set row.isLt v m (8 - r) r _ (.inl hrow)]
  · right
    rw [whole, scanRows_set row.isLt v m r 0 _ (.inr (by omega))]

end

section
/-! What the next step is about, for each of the four cases of the inbox (spec/43_machine_control.md R120, R128). -/
namespace Sys2Proof.Machine

theorem nextEvent_nil {s : State} (hin : s.inbox = []) : nextEvent s = .run .iter s := by
  simp [nextEvent, hin]

theorem nextEvent_awaitStop {s : State} {ev : Event} {rest : List Event} (hin : s.inbox = ev :: rest)
    (hb : ev.byHost = true) (hw : s.waitStop = true) : nextEvent s = .run .iter s := by
  simp [nextEvent, hin, hb, hw]

theorem nextEvent_awaitInit {s : State} {ev : Event} {rest : List Event} (hin : s.inbox = ev :: rest)
    (hn : ev.startsInit = true) (hw : s.waitStop = false) (hi : s.hostInInit = true) (hs : s.stopped = false) :
    nextEvent s = .done (.next (callTurn (s.calls.findIdx HostCall.isInit) s)) := by
  simp [nextEvent, hin, hn, hw, hi, hs]

/-- An event that is not held is taken. -/
theorem nextEvent_taken {s : State} {ev : Event} {rest : List Event} (hin : s.inbox = ev :: rest)
    (hb : ev.byHost = true → s.waitStop = false)
    (hn : ev.startsInit = true → s.hostInInit = false ∨ s.stopped = true) :
    nextEvent s = onEvent ev (s.setInbox rest) := by
  have h1 : (ev.byHost && s.waitStop) = false := by
    cases h : ev.byHost
    · rfl
    · exact hb h
  have h2 : (ev.startsInit && s.hostInInit && !s.stopped) = false := by
    cases h : ev.startsInit
    · rfl
    · rcases hn h with h | h <;> simp [h]
  simp [nextEvent, hin, h1, h2]

theorem step_of_run {s u : State} {i : Instr} (h : nextEvent s = .run i u) : step s = exec i u := by rw [step, h]

theorem step_of_done {s : State} {o : Host.Outcome State Fault Refusal} (h : nextEvent s = .done o) : step s = o := by
  rw [step, h]

theorem onLine_of_decode {src : Source} {raw : RawWord} {i : Instr} (hd : decode raw = .ok i) (hi : i.source = src)
    (s : State) : onLine src raw s = .run i s := by
  simp [onLine, hd, Instr.wellFormedOn, hi]

/-- A word on the port of its operation, taken from the inbox, is that operation (R67). -/
theorem step_line {s : State} {src : Source} {raw : RawWord} {rest : List Event} {i : Instr}
    (hin : s.inbox = .line src raw :: rest) (hd : decode raw = .ok i) (hi : i.source = src)
    (hw : src = .host → s.waitStop = false) (hn : i = .init → s.hostInInit = false ∨ s.stopped = true) :
    step s = exec i (s.setInbox rest) :=
  step_of_run ((nextEvent_taken hin (fun hb => hw (beq_iff_eq.1 hb)) (fun h => hn ((startsInit_line hd hi).1 h))).trans
    (onLine_of_decode hd hi _))

end Sys2Proof.Machine

open Sys2Proof Sys2Proof.Machine

/-- Settles O6: the word is not held, and a word that decodes on its own port runs. -/
theorem stepRunsDecodedInstruction : Obligations.StepRunsDecodedInstruction :=
  fun _ _ _ _ _ hin hd hi hw hn => step_line hin hd hi hw hn

/-- Settles O7: nothing to take, an event held for the stop, or one held for the `INIT` in progress. -/
theorem sequencerRunsFreely : Obligations.SequencerRunsFreely := fun _ =>
  ⟨fun hin => step_of_run (nextEvent_nil hin),
    fun _ _ hin hb hw => step_of_run (nextEvent_awaitStop hin hb hw),
    fun _ _ hin hn hw hi hs => step_of_done (nextEvent_awaitInit hin hn hw hi hs)⟩

/-- Settles O60: the time input holds how far the time shown is past the last sample. -/
theorem shownTimeIsTheSample : Obligations.ShownTimeIsTheSample := by
  intro s x rest hin
  have hstep : step s = (s.setInbox rest).presentTime x := step_of_done (nextEvent_taken hin nofun nofun)
  refine ⟨fun hx => ⟨(s.setInbox rest).setTimeIn (some (x - s.clock)), hstep.trans (if_pos hx), ?_, rfl⟩,
    fun hx => hstep.trans (if_neg (Nat.not_le.2 hx))⟩
  rw [sampleNow_of_shown rfl]
  exact Nat.add_sub_cancel' hx

end

section
/-! Machine control: `INIT` and its refusals, the flag commands, the FSM and its terminal state (spec/43_machine_control.md). -/
namespace Sys2Proof.Machine

/-! ### `INIT` -/

theorem imageOk_eq_false_iff {im : Images} {b : RomBlock} :
    imageOk im b = false ↔ ∀ bytes, im.of b = some bytes → bytes.length ≠ blockSize b := by
  rw [← Bool.not_eq_true, imageOk_iff]
  exact ⟨fun h bytes hb hl => h ⟨bytes, hb, hl⟩, fun h ⟨bytes, hb, hl⟩ => h bytes hb hl⟩

/-- An admitted `INIT` is decided by its size checks (R123). -/
theorem onInit_admitted {s : State} (hs : s.stopped = false) (hi : s.inited = false) (hp : s.fPaused = true)
    (hl : s.loopInStep = false) {k : State} :
    (configErrorCode s.images = none → s.onInit k = .next k)
      ∧ ∀ code, configErrorCode s.images = some code → s.onInit k = .next (s.raiseConfigError code) := by
  unfold State.onInit
  rw [onHost_of_running hs]
  simp only [hi, hp, hl, Bool.not_true, Bool.or_false, Bool.false_eq_true, if_false]
  constructor
  · intro hc; rw [hc]
  · intro code hc; rw [hc]

/-- An `INIT` of a running machine or a second one (R124). -/
theorem onInit_notAdmitted {s : State} (hs : s.stopped = false) (h : s.fPaused = false ∨ s.inited = true) (k : State) :
    s.onInit k = .next (s.respondHost notAdmitted) := by
  unfold State.onInit
  rw [onHost_of_running hs, if_pos]
  rcases h with h | h <;> simp [h]

/-- An `INIT` that meets an engine step (U1). -/
theorem onInit_inStep {s : State} (hs : s.stopped = false) (hp : s.fPaused = true) (hi : s.inited = false)
    (hl : s.loopInStep = true) (k : State) : s.onInit k = .refused .initDuringStep := by
  unfold State.onInit
  rw [onHost_of_running hs]
  simp [hi, hp, hl]

/-- Byte `i` of an image is loaded at its base plus `i`. -/
theorem read_loadedRom_byte {p : Params} {im : Images} (hp : p.legal = true) (him : configErrorCode im = none)
    (b : RomBlock) {i : Nat} (hi : i < blockSize b) :
    (loadedRom p im).read ((blockBase p b).toNat + i) = (im.bytes b)[i]?.getD 0 := by
  rw [read_loadedRom_in hp him (b := b) ⟨Nat.le_add_right _ _, Nat.add_lt_add_left hi _⟩, Nat.add_sub_cancel_left]

/-! ### The flag commands -/

theorem exec_reqReset {s : State} (hs : s.stopped = false) :
    exec .reqReset s = .next ((s.setReset true).respondHost (okResponse 0)) := onHost_of_running hs _

theorem exec_reqPause {s : State} (hs : s.stopped = false) (p : Bool) :
    exec (.reqPause p) s = .next ((s.setPaused p).respondHost (okResponse 0)) := onHost_of_running hs _

theorem exec_reqStop {s : State} (hs : s.stopped = false) :
    exec .reqStop s = .next (((s.setQuit true).setWaitStop true).setHostResp none) := onHost_of_running hs _

theorem exec_setDebug {s : State} (hs : s.stopped = false) (b : Bool) :
    exec (.setDebug b) s = .next ((s.setDebug b).respondHost (okResponse 0)) := onHost_of_running hs _

/-! ### The answers after `STOPPED = 1` -/

theorem onHost_of_stopped {s : State} (hs : s.stopped = true) (k : Host.Outcome State Fault Refusal) :
    s.onHost k = .next (s.respondHost afterStop) := if_pos hs

theorem onControl_of_stopped {s : State} (hs : s.stopped = true) (k : Host.Outcome State Fault Refusal) :
    s.onControl k = .next s := if_pos hs

/-- What an operation of a port leaves after `STOPPED = 1` (R143). -/
def State.stoppedAnswer (s : State) : Source → State
  | .engine => s.respondEngine afterStop
  | .host => s.respondHost afterStop
  | .sequencer => s
  | .control => s

theorem exec_of_stopped {s : State} (hs : s.stopped = true) (i : Instr) :
    exec i s = .next (s.stoppedAnswer i.source) := by
  cases i with
  | busRead a => rw [exec_busRead, busRead_stopped a hs]; rfl
  | busWrite a v => rw [exec_busWrite, busWrite_stopped a v hs]; rfl
  | iter => exact exec_iter_stopped hs
  | engStep => exact onControl_of_stopped hs _
  | engReset => exact onControl_of_stopped hs _
  | engIrq => exact onControl_of_stopped hs _
  | _ => exact onHost_of_stopped hs _

theorem stopped_stoppedAnswer (s : State) (src : Source) : (s.stoppedAnswer src).stopped = s.stopped := by
  cases src <;> rfl

/-! ### The FSM -/

theorem fsm_stopped_iff {s : State} : s.fsm = .stopped ↔ s.stopped = true := by
  unfold State.fsm
  cases s.stopped <;> cases s.fPaused <;> cases s.inited <;> decide

theorem stopped_eq_false_of_fsm {s : State} (h : s.fsm ≠ .stopped) : s.stopped = false := by
  rwa [Ne, fsm_stopped_iff, Bool.not_eq_true] at h

/-- The FSM is a function of three bits (R25). -/
theorem fsm_congr {s t : State} (h1 : t.stopped = s.stopped) (h2 : t.fPaused = s.fPaused) (h3 : t.inited = s.inited) :
    t.fsm = s.fsm := by
  unfold State.fsm
  rw [h1, h2, h3]

theorem LoopEffect.fsm {s t : State} (h : LoopEffect s t) : t.fsm = s.fsm := by
  apply fsm_congr <;> rw [h.frame]

theorem fsm_running {s : State} (hs : s.stopped = false) (hp : s.fPaused = false) : s.fsm = .running := by
  simp [State.fsm, hs, hp]

theorem fsm_paused {s : State} (hs : s.stopped = false) (hp : s.fPaused = true) :
    s.fsm = if s.inited then .idle else .uninitialized := by
  simp [State.fsm, hs, hp]

/-! ### The flag of a reset service -/

theorem strobe_fReset (op : EngineOp) (s : State) : (strobe op s).fReset = s.fReset := by rw [strobe_eq]

theorem pollNow_fReset (s : State) : (pollNow s).fReset = s.fReset := by
  unfold pollNow timerPoll requestIrq
  split
  · split
    · rw [strobe_fReset, State.setLft_fReset, sampleNow_frame]
    · rw [State.setLft_fReset, sampleNow_frame]
  · rw [sampleNow_frame]

theorem iterFromA6_fReset (s : State) : (iterFromA6 s).fReset = s.fReset := by
  unfold iterFromA6 iterFromReload iterFromPoll endIteration reloadNow skipSample
  split
  · rw [State.setLoop_fReset, State.setLft_fReset, sampleNow_frame]
  · split
    · rw [State.setLoop_fReset, pollNow_fReset]
    · rfl

/-- From A5 on no reset is pending (R137). -/
theorem iterFromA5_fReset (s : State) : (iterFromA5 s).fReset = false := iterFromA6_fReset _

theorem iterFromA4_fReset (s : State) : (iterFromA4 s).fReset = false := iterFromA5_fReset _

/-- The iteration of a reset service, from its first action (R137). -/
theorem iterFromA1_of_reset {s : State} (hq : s.fQuit = false) (hr : s.fReset = true) :
    iterFromA1 s = .next (iterFromA4 ((s.setDraws (s.draws + 1)).setRam Memory.zero)) := by
  simp only [iterFromA1, iterFromA2, hq, hr, Bool.false_eq_true, if_false, if_true]

theorem strobeActive_of_top {s : State} (hl : s.loop = .top) : s.strobeActive = false := by
  rw [State.strobeActive, hl]

end Sys2Proof.Machine

open Sys2Proof Sys2Proof.Machine

/-- Settles O21: the size checks pass, and what is then loaded is read block by block. -/
theorem initLoadsFirmware : Obligations.InitLoadsFirmware := by
  intro s basic kernel chargen hs hi hp hl him hbasic hkernel hchargen
  have hok : configErrorCode s.images = none := by
    rw [configErrorCode_none_iff, him]
    intro b
    cases b with
    | basic => exact imageOk_iff.2 ⟨basic, rfl, hbasic⟩
    | kernel => exact imageOk_iff.2 ⟨kernel, rfl, hkernel⟩
    | chargen => exact imageOk_iff.2 ⟨chargen, rfl, hchargen⟩
  have hbytes : s.images.bytes .basic = basic ∧ s.images.bytes .kernel = kernel ∧ s.images.bytes .chargen = chargen := by
    rw [him]; exact ⟨rfl, rfl, rfl⟩
  obtain ⟨hb, hk, hc⟩ := hbytes
  have hbyte := read_loadedRom_byte s.cfg.legal hok
  refine ⟨initialised s, (onInit_admitted hs hi hp hl).1 hok, fun a => rfl, fun i hlt => ?_, fun i hlt => ?_,
    fun i hlt => ?_, fun a h1 h2 h3 => ?_, rfl, rfl, rfl⟩
  · rw [← hb]; exact hbyte .basic hlt
  · rw [← hk]; exact hbyte .kernel hlt
  · rw [← hc]; exact hbyte .chargen hlt
  · refine read_loadedRom_out s.cfg.legal hok fun b => ?_
    cases b with
    | basic => exact h1
    | kernel => exact h2
    | chargen => exact h3

/-- Settles O22: the size checks in their order, each decided by its own image. -/
theorem initReportsFirstBadImage : Obligations.InitReportsFirstBadImage := by
  intro s hs hi hp hl
  have report := (onInit_admitted hs hi hp hl (k := initialised s)).2
  refine ⟨fun hb => report 0x01 ?_, fun b hb hlen hk => report 0x02 ?_, fun b k hb hlen hk hlen' hc => report 0x03 ?_⟩
  · have h1 : imageOk s.images .basic = false := imageOk_eq_false_iff.2 hb
    simp [configErrorCode, h1]
  · have h1 : imageOk s.images .basic = true := imageOk_iff.2 ⟨b, hb, hlen⟩
    have h2 : imageOk s.images .kernel = false := imageOk_eq_false_iff.2 hk
    simp [configErrorCode, h1, h2]
  · have h1 : imageOk s.images .basic = true := imageOk_iff.2 ⟨b, hb, hlen⟩
    have h2 : imageOk s.images .kernel = true := imageOk_iff.2 ⟨k, hk, hlen'⟩
    have h3 : imageOk s.images .chargen = false := imageOk_eq_false_iff.2 hc
    simp [configErrorCode, h1, h2, h3]

/-- Settles O23: admission comes first, then the meeting with an engine step. -/
theorem initNotAdmitted : Obligations.InitNotAdmitted := fun _ hs =>
  ⟨fun h => onInit_notAdmitted hs h _, fun hp hi hl => onInit_inStep hs hp hi hl _⟩

/-- Settles O24: before `STOPPED = 1` each flag command has its own effect. -/
theorem flagCommandsAssign : Obligations.FlagCommandsAssign := fun _ _ _ hs =>
  ⟨exec_reqReset hs, exec_reqPause hs _, exec_setDebug hs _⟩

/-- Settles O25: the iteration reads the flag first and answers `stopNow`, which lifts the wait. -/
theorem reqStopWaitsForTheSequencer : Obligations.ReqStopWaitsForTheSequencer := by
  refine fun s hs => ⟨exec_reqStop hs, fun hl => ?_⟩
  rw [exec_iter_top (s := { s with fQuit := true, waitStop := true, hostResp := none }) hs hl, iterFromA1_of_quit rfl,
    State.stopNow_eq, ← hl]
  rfl

/-- Settles O27, by the port of the operation. -/
theorem stoppedRefusesEverything : Obligations.StoppedRefusesEverything := by
  intro s i hs
  refine ⟨fun hi => ?_, fun hi => ?_, fun hi => ?_⟩ <;> rw [exec_of_stopped hs]
  · rw [hi]; rfl
  · rw [hi]; rfl
  · rcases hi with hi | hi <;> rw [hi] <;> rfl

/-- Settles O26: each command assigns its bit of the three that the FSM reads, and an iteration assigns `STOPPED` or none. -/
theorem fsmTransitions : Obligations.FsmTransitions := by
  intro s t
  refine ⟨fun hf h => ?_, fun hf h => ?_, fun hf h => ?_, fun hf h => ?_, fun hf h => ?_, fun hf hl hq h => ?_,
    fun hf hl hq hr h => ?_, fun i hf h => ?_⟩
  · rcases onInit_next h with ⟨q, rfl⟩ | ⟨rfl, hs, _, hp, _⟩
    · exact .inr ⟨hf, rfl⟩
    · exact .inl (fsm_paused (s := initialised s) hs hp)
  · have hs := stopped_eq_false_of_fsm hf
    cases (exec_reqPause hs false).symm.trans h
    exact fsm_running hs rfl
  · have hs := stopped_eq_false_of_fsm hf
    cases (exec_reqPause hs true).symm.trans h
    exact fsm_paused hs rfl
  · cases (exec_reqReset (stopped_eq_false_of_fsm hf)).symm.trans h
    exact ⟨rfl, rfl⟩
  · cases (exec_reqStop (stopped_eq_false_of_fsm hf)).symm.trans h
    rfl
  · rw [exec_iter_top (stopped_eq_false_of_fsm hf) hl, iterFromA1_of_quit hq] at h
    cases h
    rw [fsm_stopped_iff, State.stopNow_eq]
  · rw [exec_iter_top (stopped_eq_false_of_fsm hf) hl, iterFromA1_of_reset hq hr] at h
    cases h
    exact ⟨((loopEffect_clearRam s _).trans (loopEffect_iterFromA4 _)).fsm, iterFromA4_fReset _⟩
  · rw [exec_of_stopped (fsm_stopped_iff.1 hf)] at h
    cases h
    rw [fsm_stopped_iff, stopped_stoppedAnswer, ← fsm_stopped_iff]
    exact hf

/-- Settles O28: with no operation in progress an `nmi` overlaps nothing, its transactions are refused, and every other event is
answered or changes an input. -/
theorem stoppedIsTerminal : Obligations.StoppedIsTerminal := by
  intro s t hi hs hc h
  have hquiet : s.engineBusy = false := by
    rw [State.engineBusy, State.hostInNmi, hc, strobeActive_of_top (hi.stoppedQuit hs).2]
    rfl
  cases step_cases h with
  | free _ e => cases (exec_iter_stopped hs).symm.trans e; rfl
  | awaitStop _ e => cases (exec_iter_stopped hs).symm.trans e; rfl
  | awaitInit _ hs' _ => simp [hs] at hs'
  | operation src raw rest i _ _ _ _ _ e =>
    rw [exec_of_stopped (s := s.setInbox rest) hs] at e
    cases e
    cases i.source <;> rfl
  | idleStrobe rest _ _ e => rw [e]; rfl
  | refusedWord _ _ rest _ _ e =>
    obtain ⟨q, ⟨_, rfl⟩ | ⟨_, rfl⟩⟩ := refuseWord_next e <;> rfl
  | images im rest _ _ e => rw [e]; rfl
  | nmi rest _ _ e =>
    have hrun := runProg_stopped (engineCall s.cfg.engine .nmi s.eng) (s := s.setInbox rest) hs
    rw [e, hostNmi, runWhole_quiet (s := s.setInbox rest) hquiet]
    exact hrun ▸ rfl
  | beginNmi rest _ _ e =>
    rw [e, beginNmi, beginRun_quiet (s := s.setInbox rest) hquiet]
    rfl
  | now x rest _ e =>
    obtain ⟨_, rfl⟩ := presentTime_next e
    rfl
  | beginKeyScan m rest _ _ e =>
    rw [(beginKeyScan_next e).1]
    rfl
  | beginInit rest _ _ _ e =>
    rcases onInit_next e with ⟨q, rfl⟩ | ⟨_, hs', _⟩
    · rfl
    · exact absurd hs (by simpa using hs')
  | loopTurn rest _ e =>
    cases (loopTurn_of_stopped (s := s.setInbox rest) hs).symm.trans e
    rfl
  | callTurn k rest _ e =>
    rw [e, callTurn_none (by rw [State.setInbox_calls, hc]; rfl)]
    rfl

/-- Settles O38: each element of the power-on state; an array with nothing listed reads zero everywhere. -/
theorem powerOnValues : Obligations.PowerOnValues := by
  refine ⟨rfl, rfl, rfl, rfl, rfl, rfl, fun r => ?_, fun _ => rfl, fun _ => rfl, rfl, rfl, rfl, rfl, rfl⟩
  rw [State.kmRow]
  exact Vector.getElem_replicate r.isLt

end

section
/-! The engine's operations, whole and turn by turn: what they write, and what they are when nothing overlaps them
(spec/43_machine_control.md R138 to R140, spec/60_exceptions.md R165, spec/70_reset_and_hazards.md R197). -/
namespace Sys2Proof.Machine

/-- A trace record is one more at the end when `F.debug = 1`. -/
theorem traceRec_appends (s : State) (rec : TraceRec) :
    s.traceRec rec = { s with trace := s.trace ++ (if s.fDebug then [rec] else []) } := by
  rw [State.traceRec_eq]
  by_cases hd : s.fDebug = true <;> simp [State.setTrace, hd]

/-- With nothing to overlap a strobe shows its code, runs the engine's own program and shows idle (R75, R121). -/
theorem strobe_quiet {op : EngineOp} {s : State} (h : s.engineBusy = false) :
    strobe op s =
      (runProg (engineCall s.cfg.engine op s.eng) (s.showControl (strobeCode op))).showControl 0 := by
  rw [strobe, runWhole_quiet (s := s.showControl (strobeCode op)) h]
  rfl

/-- With nothing to overlap a strobe writes what its transactions do, and the port. -/
theorem strobe_quiet_frame {op : EngineOp} {s : State} (h : s.engineBusy = false) :
    strobe op s = { s with
      ram := (strobe op s).ram, trace := (strobe op s).trace, engineResp := (strobe op s).engineResp,
      eng := (strobe op s).eng, control := (strobe op s).control } := by
  have hf := strobe_eq op s
  simp only [h, Bool.false_eq_true, if_false] at hf
  rw [strobe_control]
  exact hf

/-- A `{t with control}` of a strobe is that of its program. -/
theorem strobe_quiet_setControl {op : EngineOp} {s : State} (h : s.engineBusy = false) (c : List Strobe) :
    (strobe op s).setControl c =
      (runProg (engineCall s.cfg.engine op s.eng) (s.showControl (strobeCode op))).setControl c := by
  rw [strobe_quiet h]
  rfl

theorem engineBusy_traceRec (s : State) (rec : TraceRec) : (s.traceRec rec).engineBusy = s.engineBusy := by
  rw [State.traceRec_eq]
  rfl

theorem strobeActive_of_quiet {s : State} (h : s.engineBusy = false) : s.strobeActive = false := by
  rw [State.engineBusy, Bool.or_eq_false_iff] at h
  exact h.1

theorem onControl_of_idle {s : State} (hs : s.stopped = false) (ha : s.strobeActive = false)
    (k : Host.Outcome State Fault Refusal) : s.onControl k = k := by
  simp [State.onControl, hs, ha]

/-- The step's own turn keeps to what an operation may write, its place and the port (R75). -/
theorem engineTurn_frame (run : EngineRun) (s : State) :
    engineTurn run s = { s with
      ram := (engineTurn run s).ram, trace := (engineTurn run s).trace, engineResp := (engineTurn run s).engineResp,
      eng := (engineTurn run s).eng, loop := (engineTurn run s).loop, control := (engineTurn run s).control } := by
  have h := progEffect_runTurn run s
  unfold engineTurn
  cases hr : runTurn run s with
  | mk r s' =>
    rw [hr] at h
    change ProgEffect s s' at h
    unfold ProgEffect at h
    rw [h]
    cases r <;> rfl

/-- The turn of an `nmi` of the host keeps to what an operation may write and the places of the host's operations. -/
theorem callTurn_nmi_frame {k : Nat} {run : EngineRun} {s : State} (hk : s.calls[k]? = some (.nmi run)) :
    callTurn k s = { s with
      ram := (callTurn k s).ram, trace := (callTurn k s).trace, engineResp := (callTurn k s).engineResp,
      eng := (callTurn k s).eng, calls := (callTurn k s).calls } := by
  have h := progEffect_runTurn run s
  unfold ProgEffect at h
  rw [callTurn_some hk]
  simp only [HostCall.turn]
  rw [h]
  rfl

theorem strobe_draws (op : EngineOp) (s : State) :
    (strobe op s).draws = if s.engineBusy then s.draws + 2 + s.calls.length else s.draws := by
  rw [strobe_eq]

/-- A strobe writes what its operation may, the port and the places that an overlap frees. -/
theorem strobe_frame (op : EngineOp) (s : State) :
    strobe op s = { s with
      ram := (strobe op s).ram, trace := (strobe op s).trace, engineResp := (strobe op s).engineResp,
      eng := (strobe op s).eng, control := s.control ++ [strobeCode op, 0], loop := (strobe op s).loop,
      calls := (strobe op s).calls, draws := (strobe op s).draws } := by
  rw [strobe_loop, strobe_calls, strobe_draws]
  exact strobe_eq op s

/-- So does a whole operation, but for the port. -/
theorem runWhole_frame (op : EngineOp) (s : State) :
    runWhole op s = { s with
      ram := (runWhole op s).ram, trace := (runWhole op s).trace, engineResp := (runWhole op s).engineResp,
      eng := (runWhole op s).eng, loop := (runWhole op s).loop, calls := (runWhole op s).calls,
      draws := (runWhole op s).draws } := by
  have h := engineEffect_runWhole op s
  unfold EngineEffect at h
  have hcalls : (runWhole op s).calls = _ := congrArg State.calls h
  have hdraws : (runWhole op s).draws = _ := congrArg State.draws h
  rw [runWhole_loop, hcalls, hdraws]
  exact h

theorem startTurn_next {op : EngineOp} {s t : State} (h : startTurn op s = .next t) :
    t = { s with control := s.control ++ [strobeCode op], loop := t.loop, calls := t.calls, draws := t.draws } := by
  unfold startTurn at h
  split at h
  · cases h
  · cases h
    rw [beginRun_state]
    rfl

end Sys2Proof.Machine

open Sys2Proof Sys2Proof.Machine

/-- Settles O36: an idle port takes the strobe, and with nothing to overlap the strobe is the engine's program between its two port
values. -/
theorem strobesInvokeTheEngine : Obligations.StrobesInvokeTheEngine := by
  intro s hs hq
  have ha := strobeActive_of_quiet hq
  have hq' : (s.traceRec .step).engineBusy = false := by rwa [engineBusy_traceRec]
  refine ⟨fun hn => ⟨stepEngine s, ?_, ?_, ?_, ?_⟩, ⟨strobe .reset s, onControl_of_idle hs ha _, strobe_control _ s,
    strobe_quiet_setControl hq s.control, strobe_quiet_frame hq⟩, ⟨strobe .irq s, onControl_of_idle hs ha _,
    strobe_control _ s, strobe_quiet_setControl hq s.control, strobe_quiet_frame hq⟩⟩
  · refine (onControl_of_idle hs ha _).trans (if_neg ?_)
    rw [hn]
    nofun
  · rw [stepEngine, strobe_control, State.traceRec_eq]
    rfl
  · have h := strobe_quiet_setControl (op := .step) hq' s.control
    rw [← stepEngine, traceRec_appends] at h
    exact h
  · have h := strobe_quiet_frame (op := .step) hq'
    rw [← stepEngine] at h
    conv_lhs => rw [h]
    rw [State.traceRec_eq]
    rfl

/-- Settles O37, by the frame of each operation, whole, begun or turn by turn. -/
theorem engineCannotReachTheRest : Obligations.EngineCannotReachTheRest := by
  refine ⟨fun p s => ⟨progEffect_runProg p s, fun hw => ramWf_runProg p hw⟩,
    fun run s => ⟨progEffect_runTurn run s, (loopEffect_runTurn run s).ramWf⟩,
    fun run s hs hl => ⟨engineTurn run s, loopTurn_engine hs hl, engineTurn_frame run s, (loopEffect_engineTurn run s).ramWf⟩,
    fun k run s t hk ht => ?_, fun op s t ht => ?_, fun op s t ht => startTurn_next ht, fun s t ht => ?_, fun s t ht => ?_⟩ <;>
    subst t
  · exact ⟨callTurn_nmi_frame hk, (hostEffect_callTurn k s).ramWf⟩
  · refine ⟨strobe_frame op s, fun hq => ?_, fun hw => ramWf_strobe op hw⟩
    have h := strobe_quiet_frame (op := op) hq
    exact ⟨by rw [h], by rw [h], by rw [h]⟩
  · exact ⟨runWhole_frame .nmi s, fun hw => ramWf_runWhole .nmi hw⟩
  · exact beginNmi_frame s

/-- Settles O55: the strobe active makes the engine busy, so the `nmi` overlaps it. -/
theorem overlapFreesBothOperations : Obligations.OverlapFreesBothOperations := by
  intro s run hl
  have hb : s.engineBusy = true := by simp [State.engineBusy, State.strobeActive, hl]
  simp only [beginNmi, beginRun, hb, if_true, hl]
  rfl

/-- Settles O56: with nothing to overlap the whole `nmi` is the engine's program. -/
theorem quietNmiOnlyRunsTheEngine : Obligations.QuietNmiOnlyRunsTheEngine := by
  refine fun s hq => ⟨runWhole_quiet hq, ?_⟩
  rw [hostNmi, runWhole_quiet hq]
  exact progEffect_runProg _ s

end

section
/-! The timer poll and the iterations that come to the engine (spec/42_interrupt_timer.md, spec/43_machine_control.md R135 to
R146). -/
namespace Sys2Proof.Machine

/-! ### The poll -/

theorem timerPoll_early {s : State} {x : Nat} (h : x - s.lft < 16666) : timerPoll x s = s := by
  have hd : s.timerDue x = false := decide_eq_false (Nat.not_le.2 h)
  rw [timerPoll, hd]
  rfl

theorem timerPoll_due {s : State} {x : Nat} (h : 16666 ≤ x - s.lft) : timerPoll x s = requestIrq (s.setLft x) :=
  if_pos (decide_eq_true h)

theorem requestIrq_closed {s : State} (h : s.gateOpen = false) : requestIrq s = s := by
  rw [requestIrq, h]
  rfl

theorem requestIrq_open {s : State} (h : s.gateOpen = true) : requestIrq s = strobe .irq s := if_pos h

/-- A sample leaves `LFT` and the gate. -/
theorem sampleNow_lft (s : State) : s.sampleNow.2.lft = s.lft := by rw [sampleNow_frame]

theorem gateOpen_sampleNow (s : State) (x : Nat) : (s.sampleNow.2.setLft x).gateOpen = s.gateOpen := by
  rw [sampleNow_frame]
  rfl

/-- `LFT` is later than its last value by the threshold or more, and the gate lets the request through. -/
def State.requests (s : State) : Prop := 16666 ≤ s.sampleNow.1 - s.lft ∧ s.gateOpen = true

/-- The three ways a poll can go (R111, R112). -/
theorem pollNow_cases (s : State) :
    (s.sampleNow.1 - s.lft < 16666 ∧ pollNow s = s.sampleNow.2)
      ∨ (16666 ≤ s.sampleNow.1 - s.lft ∧ s.gateOpen = false ∧ pollNow s = s.sampleNow.2.setLft s.sampleNow.1)
      ∨ (s.requests ∧ pollNow s = strobe .irq (s.sampleNow.2.setLft s.sampleNow.1)) := by
  unfold pollNow
  by_cases hd : s.sampleNow.1 - s.lft < 16666
  · exact .inl ⟨hd, timerPoll_early (by rwa [sampleNow_lft])⟩
  · have hd' : 16666 ≤ s.sampleNow.1 - s.lft := Nat.not_lt.1 hd
    rw [timerPoll_due (by rwa [sampleNow_lft])]
    cases hg : s.gateOpen with
    | false => exact .inr (.inl ⟨hd', rfl, requestIrq_closed (by rwa [gateOpen_sampleNow])⟩)
    | true => exact .inr (.inr ⟨⟨hd', hg⟩, requestIrq_open (by rwa [gateOpen_sampleNow])⟩)

theorem State.SameTransactions.refl (s : State) : s.SameTransactions s := ⟨rfl, rfl, rfl, rfl⟩

/-- A sample makes no transaction. -/
theorem sameTransactions_sampleNow (s : State) : s.sampleNow.2.SameTransactions s := by
  rw [sampleNow_frame]
  exact .refl s

theorem sampleNow_control (s : State) : s.sampleNow.2.control = s.control := by rw [sampleNow_frame]

/-- What an iteration that polls leaves: the sample, `LFT` reloaded when due, and then, if the gate is open, one request (R111). -/
theorem iterFromPoll_spec (s : State) :
    (iterFromPoll s).clock = s.sampleNow.1 ∧ (iterFromPoll s).timeIn = s.sampleNow.2.timeIn
      ∧ ((iterFromPoll s).clock - s.lft < 16666 →
          (iterFromPoll s).lft = s.lft ∧ (iterFromPoll s).control = s.control ∧ (iterFromPoll s).SameTransactions s)
      ∧ (16666 ≤ (iterFromPoll s).clock - s.lft → (iterFromPoll s).lft = (iterFromPoll s).clock
          ∧ (s.gateOpen = false → (iterFromPoll s).control = s.control ∧ (iterFromPoll s).SameTransactions s)
          ∧ (s.gateOpen = true → (iterFromPoll s).control = s.control ++ [0b100, 0]
              ∧ (iterFromPoll s).SameTransactions (strobe .irq (s.sampleNow.2.setLft (iterFromPoll s).clock)))) := by
  have hx := sampleNow_fst s
  have hc := sampleNow_control s
  have hs := sameTransactions_sampleNow s
  unfold iterFromPoll endIteration
  rcases pollNow_cases s with ⟨hd, hp⟩ | ⟨hd, hg, hp⟩ | ⟨⟨hd, hg⟩, hp⟩ <;> rw [hp]
  · refine ⟨hx.symm, rfl, fun _ => ⟨sampleNow_lft s, hc, hs⟩, fun h => ?_⟩
    rw [State.setLoop_clock, ← hx] at h
    omega
  · refine ⟨hx.symm, rfl, fun h => ?_, fun _ => ⟨hx, fun _ => ⟨hc, hs⟩, fun h => ?_⟩⟩
    · rw [State.setLoop_clock, State.setLft_clock, ← hx] at h
      omega
    · rw [hg] at h
      cases h
  · have he := strobe_eq .irq (s.sampleNow.2.setLft s.sampleNow.1)
    have hclock : (strobe .irq (s.sampleNow.2.setLft s.sampleNow.1)).clock = s.sampleNow.1 := by rw [he]; exact hx.symm
    have hlft : (strobe .irq (s.sampleNow.2.setLft s.sampleNow.1)).lft = s.sampleNow.1 := by rw [he]; rfl
    have htime : (strobe .irq (s.sampleNow.2.setLft s.sampleNow.1)).timeIn = s.sampleNow.2.timeIn := by rw [he]; rfl
    refine ⟨hclock, htime, fun h => ?_, fun _ => ⟨hlft.trans hclock.symm, fun h => ?_, fun _ => ⟨?_, ?_⟩⟩⟩
    · rw [State.setLoop_clock, hclock] at h
      omega
    · rw [hg] at h
      cases h
    · rw [State.setLoop_control, strobe_control, State.setLft_control, hc]
      rfl
    · rw [State.setLoop_clock, hclock]
      exact .refl _

theorem engineBusy_sampleNow (s : State) (x : Nat) : (s.sampleNow.2.setLft x).engineBusy = s.engineBusy := by
  rw [sampleNow_frame]
  rfl

/-- With nothing to overlap a poll leaves the host's operations alone. -/
theorem iterFromPoll_calls {s : State} (hq : s.engineBusy = false) : (iterFromPoll s).calls = s.calls := by
  have hc : s.sampleNow.2.calls = s.calls := by rw [sampleNow_frame]
  unfold iterFromPoll endIteration
  rcases pollNow_cases s with ⟨_, hp⟩ | ⟨_, _, hp⟩ | ⟨_, hp⟩ <;> rw [hp]
  · exact hc
  · exact hc
  · rw [State.setLoop_calls, strobe_calls, engineBusy_sampleNow, hq]
    exact hc

theorem iterFromPoll_fReset (s : State) : (iterFromPoll s).fReset = s.fReset := pollNow_fReset s

/-! ### What a strobe leaves for the rest of the iteration -/

/-- What the timer and the rest of an iteration look at, after a strobe of `op`. -/
structure Strobed (op : EngineOp) (s u : State) : Prop where
  control : u.control = s.control ++ [strobeCode op, 0]
  lft : u.lft = s.lft
  clock : u.clock = s.clock
  timeIn : u.timeIn = s.timeIn
  paused : u.fPaused = s.fPaused
  cfg : u.cfg = s.cfg
  quiet : s.engineBusy = false → u.engineBusy = false ∧ u.calls = s.calls

theorem strobed_strobe (op : EngineOp) (s : State) : Strobed op s (strobe op s) := by
  have he := strobe_eq op s
  refine ⟨strobe_control op s, ?_, ?_, ?_, ?_, ?_, fun hq => ?_⟩
  · rw [he]
  · rw [he]
  · rw [he]
  · rw [he]
  · rw [he]
  · have hf := strobe_quiet_frame (op := op) hq
    rw [hf]
    exact ⟨hq, rfl⟩

theorem strobed_stepEngine (s : State) : Strobed .step s (stepEngine s) := by
  have h := strobed_strobe .step (s.traceRec .step)
  rw [← stepEngine, State.traceRec_eq] at h
  exact ⟨h.control, h.lft, h.clock, h.timeIn, h.paused, h.cfg, h.quiet⟩

/-- Clearing the flag after the service touches none of it. -/
theorem strobed_resetServed (s : State) : Strobed .reset s ((resetServed s).setReset false) := by
  have h := strobed_strobe .reset ((s.setDraws (s.draws + 1)).setRam Memory.zero)
  exact ⟨h.control, h.lft, h.clock, h.timeIn, h.paused, h.cfg, h.quiet⟩

theorem stepEngine_fReset (s : State) : (stepEngine s).fReset = s.fReset := by
  rw [stepEngine, strobe_fReset, State.traceRec_eq]
  rfl

/-- A sample shown is what the clock then reads, and it is shown no longer (R21, R73). -/
theorem sample_of_shown {s u : State} {d : Nat} (hc : u.clock = s.clock) (ht : u.timeIn = s.timeIn) (hd : s.timeIn = some d) :
    u.sampleNow.1 = s.clock + d ∧ u.sampleNow.2.timeIn = none := by
  rw [sampleNow_of_shown (ht.trans hd), hc]
  exact ⟨rfl, rfl⟩

/-! ### The iterations from the first action -/

theorem iterFromA1_of_running {s : State} (hq : s.fQuit = false) (hr : s.fReset = false) (hp : s.fPaused = false) :
    iterFromA1 s = iterFromA8 s := by
  simp only [iterFromA1, iterFromA2, iterFromA7, hq, hr, hp, Bool.false_eq_true, if_false]

theorem iterFromA8_of_free {s : State} (hn : s.hostInInit = false) : iterFromA8 s = .next (iterFromPoll (stepEngine s)) := by
  rw [iterFromA8, hn]
  rfl

/-- A reset iteration is the reset served, the flag cleared, then what it does with the timer (R137). -/
theorem exec_iter_reset {s : State} (hs : s.stopped = false) (hl : s.loop = .top) (hq : s.fQuit = false)
    (hr : s.fReset = true) : exec .iter s = .next (iterFromA6 ((resetServed s).setReset false)) :=
  (exec_iter_top hs hl).trans (iterFromA1_of_reset hq hr)

theorem iterFromA6_paused {s : State} (hp : s.fPaused = true) : iterFromA6 s = iterFromReload s := if_pos hp

theorem iterFromA6_polls {s : State} (hp : s.fPaused = false) (hc : s.cfg.params.resetIterPollsTimer = true) :
    iterFromA6 s = iterFromPoll s := by
  simp [iterFromA6, hp, hc]

theorem iterFromA6_skips {s : State} (hp : s.fPaused = false) (hc : s.cfg.params.resetIterPollsTimer = false) :
    iterFromA6 s = endIteration (skipSample s) := by
  simp [iterFromA6, hp, hc]

/-- The reload makes no transaction and shows nothing. -/
theorem iterFromReload_spec (s : State) :
    (iterFromReload s).clock = s.sampleNow.1 ∧ (iterFromReload s).lft = s.sampleNow.1
      ∧ (iterFromReload s).timeIn = s.sampleNow.2.timeIn ∧ (iterFromReload s).control = s.control
      ∧ (iterFromReload s).SameTransactions s ∧ (iterFromReload s).calls = s.calls := by
  rw [iterFromReload, endIteration, reloadNow_eq]
  exact ⟨rfl, rfl, rfl, rfl, .refl s, rfl⟩

theorem iterFromReload_control (s : State) : (iterFromReload s).control = s.control := by
  obtain ⟨_, _, _, hc, _⟩ := iterFromReload_spec s
  exact hc

theorem iterFromReload_calls (s : State) : (iterFromReload s).calls = s.calls := by
  obtain ⟨_, _, _, _, _, hc⟩ := iterFromReload_spec s
  exact hc

theorem iterFromA6_calls {s : State} (hq : s.engineBusy = false) : (iterFromA6 s).calls = s.calls := by
  unfold iterFromA6
  split
  · exact iterFromReload_calls s
  · split
    · exact iterFromPoll_calls hq
    · rfl

/-- With the gate closed a reset iteration makes no transaction after its strobe. -/
theorem iterFromA6_of_closed {s : State} (hg : s.gateOpen = false) :
    (iterFromA6 s).control = s.control ∧ (iterFromA6 s).SameTransactions s := by
  unfold iterFromA6
  split
  · obtain ⟨_, _, _, hc, hs, _⟩ := iterFromReload_spec s
    exact ⟨hc, hs⟩
  · split
    · obtain ⟨_, _, hearly, hdue⟩ := iterFromPoll_spec s
      rcases Nat.lt_or_ge ((iterFromPoll s).clock - s.lft) 16666 with hd | hd
      · exact (hearly hd).2
      · obtain ⟨_, hclosed, _⟩ := hdue hd
        exact hclosed hg
    · exact ⟨rfl, .refl s⟩

/-! ### An engine program that does not write -/

/-- A read of another address than the keyboard port writes no byte of `RAM`. -/
theorem busRead_ram_of_ne {s : State} {a : Addr} (ha : a ≠ s.cfg.params.kbdDataAddr) : (busRead a s).2.ram = s.ram := by
  cases hs : s.stopped with
  | true => rw [busRead_stopped a hs]; rfl
  | false => rw [busRead_array hs (region_ne_keyboard ha), finishBus_ram]

/-- A read writes at most the mirror of the keyboard port (R87). -/
theorem busRead_readRam_other {s : State} {a b : Addr} (hb : b ≠ s.cfg.params.kbdDataAddr) :
    (busRead a s).2.readRam b = s.readRam b := by
  by_cases ha : a = s.cfg.params.kbdDataAddr
  · cases hs : s.stopped with
    | true => rw [busRead_stopped a hs]; rfl
    | false =>
      rw [busRead_keyboard hs (by rw [ha]; exact region_kbdDataAddr _), finishBus_readRam]
      exact Memory.read_write_other fun h => hb (BitVec.eq_of_toNat_eq h)
  · rw [State.readRam, busRead_ram_of_ne ha, State.readRam]

/-- A program without a `BUS_WRITE` writes at most the mirror of the keyboard port. -/
theorem runProg_readRam_other (p : EngineProg) {s : State} (hw : writesNothing p s = true) {b : Addr}
    (hb : b ≠ s.cfg.params.kbdDataAddr) : (runProg p s).readRam b = s.readRam b := by
  induction p generalizing s with
  | ret e => rfl
  | write a v k ih => cases hw
  | read a k ih =>
    have hc := (busEffect_busRead a s).cfg_eq
    exact (ih _ hw (by rwa [hc])).trans (busRead_readRam_other hb)

/-- And where it does not read that port either, `RAM` stays. -/
theorem runProg_ram_of_untouched (p : EngineProg) {s : State} (hw : writesNothing p s = true)
    (hr : readsNothingAt s.cfg.params.kbdDataAddr p s = true) : (runProg p s).ram = s.ram := by
  induction p generalizing s with
  | ret e => rfl
  | write a v k ih => cases hw
  | read a k ih =>
    have hc := (busEffect_busRead a s).cfg_eq
    rw [readsNothingAt, Bool.and_eq_true, bne_iff_ne] at hr
    exact (ih _ hw (by rw [hc]; exact hr.2)).trans (busRead_ram_of_ne hr.1)

theorem gateOpen_of_zero {s : State} (h : s.readRam s.cfg.params.irqEnAddr = 0) : s.gateOpen = false := by
  rw [State.gateOpen, h]
  exact BitVec.getLsbD_zero

/-- What a reset service leaves when its engine does not touch the gate's cell: the iteration makes no request (R160). -/
theorem iterFromA6_of_resetServed {s : State} (hz : (resetServed s).readRam s.cfg.params.irqEnAddr = 0) :
    (iterFromA6 ((resetServed s).setReset false)).control = s.control ++ [0b010, 0]
      ∧ (iterFromA6 ((resetServed s).setReset false)).SameTransactions (resetServed s) := by
  have hg : ((resetServed s).setReset false).gateOpen = false :=
    gateOpen_of_zero (by rw [(strobed_resetServed s).cfg]; exact hz)
  obtain ⟨hc, hs⟩ := iterFromA6_of_closed hg
  exact ⟨hc.trans (strobed_resetServed s).control, hs⟩

end Sys2Proof.Machine

open Sys2Proof Sys2Proof.Machine

/-- Settles O35: the threshold, the reload before the gate, and the request. -/
theorem timerPollCompares : Obligations.TimerPollCompares := by
  refine fun s t => ⟨timerPoll_early, fun hd hg => ?_, fun hd hg => ?_⟩ <;> rw [timerPoll_due hd]
  · exact requestIrq_closed hg
  · rw [requestIrq_open (s := s.setLft t) hg]
    exact ⟨(strobed_strobe .irq _).lft, strobe_control _ _⟩

/-- Settles O31: from the first action the iteration is the step and then a poll of what it left. -/
theorem runningIterationStepsThenPolls : Obligations.RunningIterationStepsThenPolls := by
  intro s hs hl hq hr hp hn
  obtain ⟨hcontrol, hlft, hclock, htime, _, _, hquiet⟩ := strobed_stepEngine s
  obtain ⟨hx, htime', hearly, hdue⟩ := iterFromPoll_spec (stepEngine s)
  have hle := clock_le_sampleNow (stepEngine s)
  rw [hlft, hcontrol] at hearly hdue
  rw [List.append_assoc] at hdue
  refine ⟨iterFromPoll (stepEngine s), ?_, ?_, hearly, hdue, fun d hd => ?_, fun hbusy => ?_, ?_⟩
  · rw [exec_iter_top hs hl, iterFromA1_of_running hq hr hp, iterFromA8_of_free hn]
  · rw [hx, ← hclock]
    exact hle
  · obtain ⟨h1, h2⟩ := sample_of_shown hclock htime hd
    exact ⟨hx.trans h1, htime'.trans h2⟩
  · obtain ⟨hb, hc⟩ := hquiet hbusy
    exact (iterFromPoll_calls hb).trans hc
  · have hf := ((loopEffect_stepEngine s).trans (loopEffect_iterFromPoll _)).frame
    have hreset : (iterFromPoll (stepEngine s)).fReset = s.fReset := (iterFromPoll_fReset _).trans (stepEngine_fReset s)
    have hloop : (iterFromPoll (stepEngine s)).loop = s.loop := hl.symm ▸ rfl
    rwa [hreset, hloop] at hf

/-- Settles O32: the reset served, the flag cleared, and then a reload, a poll or neither. -/
theorem resetIterationServices : Obligations.ResetIterationServices := by
  intro s hs hl hq hr
  obtain ⟨hcontrol, hlft, hclock, htime, hpaused, hcfg, hquiet⟩ := strobed_resetServed s
  have hle : s.clock ≤ ((resetServed s).setReset false).sampleNow.1 :=
    hclock.symm.le.trans (clock_le_sampleNow ((resetServed s).setReset false))
  have hshown := fun d => sample_of_shown (s := s) (u := (resetServed s).setReset false) (d := d) hclock htime
  refine ⟨_, exec_iter_reset hs hl hq hr, iterFromA6_fReset _, fun hp => ?_, fun hp hc => ?_, fun hp hc => ?_, fun d hd => ?_,
    fun hbusy => ?_, ?_⟩
  · rw [iterFromA6_paused (hpaused.trans hp)]
    obtain ⟨hx, hx', _, hc, hsame, _⟩ := iterFromReload_spec ((resetServed s).setReset false)
    exact ⟨hx'.trans hx.symm, hx ▸ hle, hc.trans hcontrol, hsame⟩
  · rw [iterFromA6_skips (hpaused.trans hp) (by rwa [hcfg])]
    exact ⟨hlft, hclock, hcontrol, .refl _⟩
  · rw [iterFromA6_polls (hpaused.trans hp) (by rwa [hcfg])]
    obtain ⟨hx, _, hearly, hdue⟩ := iterFromPoll_spec ((resetServed s).setReset false)
    rw [hlft, hcontrol] at hearly hdue
    rw [List.append_assoc] at hdue
    exact ⟨hx ▸ hle, hearly, hdue⟩
  · obtain ⟨h1, h2⟩ := hshown d hd
    cases hp : s.fPaused with
    | true =>
      rw [iterFromA6_paused (hpaused.trans hp)]
      obtain ⟨hx, _, ht, _⟩ := iterFromReload_spec ((resetServed s).setReset false)
      exact ⟨ht.trans h2, fun _ => hx.trans h1⟩
    | false =>
      cases hc : s.cfg.params.resetIterPollsTimer with
      | true =>
        rw [iterFromA6_polls (hpaused.trans hp) (by rwa [hcfg])]
        obtain ⟨hx, ht, _⟩ := iterFromPoll_spec ((resetServed s).setReset false)
        exact ⟨ht.trans h2, fun _ => hx.trans h1⟩
      | false =>
        rw [iterFromA6_skips (hpaused.trans hp) (by rwa [hcfg])]
        exact ⟨rfl, fun h => by simp at h⟩
  · obtain ⟨hb, hc⟩ := hquiet hbusy
    exact (iterFromA6_calls (s := (resetServed s).setReset false) hb).trans hc
  · have hf := ((loopEffect_clearRam s (s.draws + 1)).trans (loopEffect_iterFromA4 _)).frame
    have hloop : (iterFromA4 ((s.setDraws (s.draws + 1)).setRam Memory.zero)).loop = s.loop :=
      (iterFromA6_loop _).trans hl.symm
    rwa [hloop] at hf

/-- Settles O33: what the engine's `reset` does not write stays zero, the gate's cell among it, so no request follows. -/
theorem resetIterationZeroesRam : Obligations.ResetIterationZeroesRam := by
  intro s hs hl hq hr hbusy hw
  have hserved : ∀ a, (resetServed s).readRam a =
      (runProg (engineCall s.cfg.engine .reset s.eng)
        (((s.setDraws (s.draws + 1)).setRam Memory.zero).showControl 0b010)).readRam a := fun a => by
    rw [resetServed, strobe_quiet (s := (s.setDraws (s.draws + 1)).setRam Memory.zero) hbusy]
    rfl
  refine ⟨_, exec_iter_reset hs hl hq hr, fun hne => ?_, fun hreads => ?_⟩
  · have hz : ∀ a, a ≠ s.cfg.params.kbdDataAddr → (resetServed s).readRam a = 0 := fun a ha =>
      (hserved a).trans (runProg_readRam_other _ hw ha)
    obtain ⟨hc, hram, heng, _⟩ := iterFromA6_of_resetServed (hz _ hne)
    exact ⟨fun a ha => by rw [State.readRam, hram]; exact hz a ha, hc, heng⟩
  · have hz : ∀ a, (resetServed s).readRam a = 0 := fun a => by
      rw [hserved, State.readRam, runProg_ram_of_untouched _ hw hreads]
      rfl
    obtain ⟨hc, hram, heng, _⟩ := iterFromA6_of_resetServed (hz _)
    exact ⟨fun a => by rw [State.readRam, hram]; exact hz a, hc, heng⟩

/-- The control history of an iteration that polls `u`, what an earlier strobe left. -/
theorem request_of_iterFromPoll (u : State) :
    (iterFromPoll u).control = u.control
      ∨ ((iterFromPoll u).control = u.control ++ [0b100, 0] ∧ u.lft + 16666 ≤ (iterFromPoll u).clock
          ∧ (iterFromPoll u).lft = (iterFromPoll u).clock) := by
  obtain ⟨_, _, hearly, hdue⟩ := iterFromPoll_spec u
  rcases Nat.lt_or_ge ((iterFromPoll u).clock - u.lft) 16666 with hd | hd
  · obtain ⟨_, hc, _⟩ := hearly hd
    exact .inl hc
  · obtain ⟨hl, hclosed, hopen⟩ := hdue hd
    cases hg : u.gateOpen with
    | false => exact .inl (hclosed hg).1
    | true => exact .inr ⟨(hopen hg).1, by omega, hl⟩

/-- The control history of what a reset iteration does with the timer: a request only unpaused. -/
theorem request_of_iterFromA6 (u : State) :
    (iterFromA6 u).control = u.control
      ∨ ((iterFromA6 u).control = u.control ++ [0b100, 0] ∧ u.lft + 16666 ≤ (iterFromA6 u).clock
          ∧ (iterFromA6 u).lft = (iterFromA6 u).clock ∧ u.fPaused = false) := by
  unfold iterFromA6
  split
  · exact .inl (iterFromReload_control u)
  · rename_i hp
    split
    · rcases request_of_iterFromPoll u with hc | ⟨hc, hd, hl⟩
      · exact .inl hc
      · exact .inr ⟨hc, hd, hl, by simpa using hp⟩
    · exact .inl rfl

theorem iterFromA8_next {s t : State} (h : iterFromA8 s = .next t) : t = iterFromPoll (stepEngine s) := by
  unfold iterFromA8 at h
  split at h
  · cases h
  · cases h; rfl

/-- Settles O34, by the kind of the iteration: stopped, quit, reset, paused or running. -/
theorem atMostOneRequestPerIteration : Obligations.AtMostOneRequestPerIteration := by
  intro s t hl h
  cases hs : s.stopped with
  | true => cases (exec_iter_stopped hs).symm.trans h; exact .inl rfl
  | false =>
    rw [exec_iter_top hs hl] at h
    cases hq : s.fQuit with
    | true =>
      rw [iterFromA1_of_quit hq] at h
      cases h
      exact .inl (by rw [State.stopNow_eq])
    | false =>
      cases hr : s.fReset with
      | true =>
        rw [← exec_iter_top hs hl, exec_iter_reset hs hl hq hr] at h
        cases h
        obtain ⟨hcontrol, hlft, _, _, hpaused, _, _⟩ := strobed_resetServed s
        rcases request_of_iterFromA6 ((resetServed s).setReset false) with hc | ⟨hc, hd, hl', hp⟩ <;>
          rw [hcontrol] at hc
        · exact .inr (.inr (.inl hc))
        · rw [List.append_assoc] at hc
          rw [hlft] at hd
          exact .inr (.inr (.inr ⟨.inr hc, hd, hl', hpaused.symm.trans hp, rfl⟩))
      | false =>
        cases hp : s.fPaused with
        | true =>
          rw [iterFromA1_of_paused hq hr hp] at h
          cases h
          exact .inl (iterFromReload_control s)
        | false =>
          rw [iterFromA1_of_running hq hr hp] at h
          cases iterFromA8_next h
          obtain ⟨hcontrol, hlft, _⟩ := strobed_stepEngine s
          rcases request_of_iterFromPoll (stepEngine s) with hc | ⟨hc, hd, hl'⟩ <;> rw [hcontrol] at hc
          · exact .inr (.inl hc)
          · rw [List.append_assoc] at hc
            rw [hlft] at hd
            exact .inr (.inr (.inr ⟨.inl hc, hd, hl', rfl, rfl⟩))

end

section
/-! The loop thread's turns alone reach what `ITER` answers, from every position (spec/43_machine_control.md R135,
spec/20_memory.md R57), and what a host command between two of them changes (spec/70_reset_and_hazards.md R191, R193). -/
namespace Sys2Proof.Machine

theorem iterFromA2_setLoop (s : State) (l : LoopPos) (h1 : ∀ r, s.loop ≠ .inEngine r) (h2 : ∀ r, l ≠ .inEngine r) :
    iterFromA2 (s.setLoop l) = iterFromA2 s := by
  unfold iterFromA2
  rw [iterFromA7_setLoop s l h1 h2]
  exact congrArg (fun u => if s.fReset then Host.Outcome.next u else iterFromA7 s)
    (iterFromA4_setLoop ((s.setDraws (s.draws + 1)).setRam Memory.zero) l h1 h2)

/-- From A1: the flag read as 1 is followed by the stop, as 0 by A2 (R136). -/
theorem reach_top (s t : State) (hw : s.ram.wf = true) (hs : s.stopped = false) (hl : s.loop = .top)
    (h : iterFromA1 s = .next t) : LoopReaches s t := by
  refine LoopReaches.step (by simp only [loopTurn, hs, hl]; rfl) ?_
  unfold iterFromA1 at h
  split at h
  · rename_i hq
    cases h
    rw [if_pos hq]
    refine LoopReaches.step (u := (s.setLoop .stopping).stopNow) (by simp [loopTurn, hs]) ?_
    rw [State.stopNow_eq, State.stopNow_eq]
    exact LoopReaches.refl _
  · rename_i hq
    rw [if_neg hq]
    refine reach_a2 (s.setLoop .a2) t hw hs rfl ?_
    rwa [iterFromA2_setLoop s .a2 (by rw [hl]; nofun) nofun]

/-- What follows an engine operation that the sequencer started. -/
theorem reach_after (op : EngineOp) (s : State) (hs : s.stopped = false) (hn : ∀ r, s.loop ≠ .inEngine r) :
    LoopReaches (s.setLoop (posAfter op)) (iterAfter op s) := by
  cases op with
  | step =>
    have h := reach_poll (s.setLoop .poll) hs rfl
    rwa [iterFromPoll_setLoop s .poll hn nofun] at h
  | reset =>
    have h := reach_a5 (s.setLoop .a5) hs rfl
    rwa [iterFromA5_setLoop s .a5 hn nofun] at h
  | irq => exact LoopReaches.refl _
  | nmi => exact LoopReaches.refl _

theorem finishRun_stopped (run : EngineRun) (s : State) : (finishRun run s).stopped = s.stopped := by
  rw [(loopEffect_finishRun run s).frame]

/-- `ITER` is the loop thread's turns alone (R57, R135). -/
theorem reach_iterate {s t : State} (hw : s.ram.wf = true) (h : iterate s = .next t) : LoopReaches s t := by
  cases hs : s.stopped with
  | true => cases (exec_iter_stopped hs).symm.trans h; exact LoopReaches.refl _
  | false =>
    simp only [iterate, hs, Bool.false_eq_true, if_false] at h
    cases hl : s.loop <;> rw [hl] at h
    case top => exact reach_top s t hw hs hl h
    case stopping => cases h; exact LoopReaches.step (by simp only [loopTurn, hs, hl]; rfl) (LoopReaches.refl _)
    case a2 => exact reach_a2 s t hw hs hl h
    case fill k order => cases h; exact reach_fillA4 s order k hw hs hl
    case start op =>
      simp only [iterFromStart] at h
      split at h
      · cases h
      · rename_i hi
        cases h
        exact reach_start op s hs hl (Bool.eq_false_iff.2 hi)
    case inEngine run =>
      cases h
      exact (reach_run s run hs hl).trans
        (reach_after run.op (((finishRun run s).setLoop .top).showControl 0) ((finishRun_stopped run s).trans hs) nofun)
    case a5 => cases h; exact reach_a5 s hs hl
    case a6 => cases h; exact reach_a6 s hs hl
    case reload => cases h; exact reach_reload s hs hl
    case a7 => exact reach_a7 s t hs hl h
    case a8 => exact reach_a8 s t hs hl h
    case poll => cases h; exact reach_poll s hs hl
    case gate => cases h; exact reach_gate s hs hl

/-! ### `ITER` from a position inside a reset service -/

theorem exec_iter_fill {s : State} {k order : Nat} (hs : s.stopped = false) (hl : s.loop = .fill k order) :
    exec .iter s = .next (iterFromA4 (s.setRam (s.ram.clearFrom order k))) := by
  simp only [exec, execIter, iterate, hs, hl, Bool.false_eq_true, if_false]

theorem exec_iter_startReset {s : State} (hs : s.stopped = false) (hl : s.loop = .start .reset) :
    exec .iter s = .next (iterFromA4 s) := by
  simp only [exec, execIter, iterate, hs, hl, Bool.false_eq_true, if_false]
  rfl

theorem exec_iter_inEngine {s : State} {run : EngineRun} (hs : s.stopped = false) (hl : s.loop = .inEngine run) :
    exec .iter s = .next (iterAfter run.op (((finishRun run s).setLoop .top).showControl 0)) := by
  simp only [exec, execIter, iterate, hs, hl, Bool.false_eq_true, if_false]

theorem exec_iter_a5 {s : State} (hs : s.stopped = false) (hl : s.loop = .a5) : exec .iter s = .next (iterFromA5 s) := by
  simp only [exec, execIter, iterate, hs, hl, Bool.false_eq_true, if_false]

theorem exec_iter_a8 {s : State} (hs : s.stopped = false) (hl : s.loop = .a8) : exec .iter s = iterFromA8 s := by
  simp only [exec, execIter, iterate, hs, hl, Bool.false_eq_true, if_false]

/-- The sequencer is past the read of `F.reset` and before its clearing (R135, R137). -/
def State.inService (s : State) : Prop :=
  (∃ k order, s.loop = .fill k order) ∨ s.loop = .start .reset ∨ (∃ run, s.loop = .inEngine run ∧ run.op = .reset)
    ∨ s.loop = .a5

/-- Whatever `F.reset` is there, the service clears it (R193). -/
theorem exec_iter_inService {s : State} (hs : s.stopped = false) (h : s.inService) :
    ∃ t, exec .iter s = .next t ∧ t.fReset = false := by
  rcases h with ⟨k, order, hl⟩ | hl | ⟨run, hl, hop⟩ | hl
  · exact ⟨_, exec_iter_fill hs hl, iterFromA4_fReset _⟩
  · exact ⟨_, exec_iter_startReset hs hl, iterFromA4_fReset _⟩
  · refine ⟨_, exec_iter_inEngine hs hl, ?_⟩
    rw [hop]
    exact iterFromA5_fReset _
  · exact ⟨_, exec_iter_a5 hs hl, iterFromA5_fReset _⟩

theorem loopTurn_a7 {s : State} (hs : s.stopped = false) (hl : s.loop = .a7) (hp : s.fPaused = false) :
    loopTurn s = .next (s.setLoop .a8) := by
  simp [loopTurn, hs, hl, hp]

end Sys2Proof.Machine

open Sys2Proof Sys2Proof.Machine

/-- Settles O50, by the position of the sequencer. -/
theorem iterationIsItsTurns : Obligations.IterationIsItsTurns := fun _ _ hw h => reach_iterate hw h

/-- Settles O52: the request sets the flag that the service in progress clears. -/
theorem requestDuringServiceIsAbsorbed : Obligations.RequestDuringServiceIsAbsorbed := by
  intro s hs hl
  obtain ⟨t, ht, hreset⟩ := exec_iter_inService (s := (s.setReset true).respondHost (okResponse 0)) hs hl
  exact ⟨_, t, exec_reqReset hs, rfl, ht, hreset⟩

/-- Settles O53: past A7 the iteration is the step and a poll, which do not read `F.paused`. -/
theorem latePauseStillSteps : Obligations.LatePauseStillSteps := by
  intro s hs hl hp hn
  let v := ((s.setLoop .a8).setPaused true).respondHost (okResponse 0)
  have hiter : exec .iter v = .next (iterFromPoll (stepEngine v)) :=
    (exec_iter_a8 (s := v) hs rfl).trans (iterFromA8_of_free (s := v) hn)
  have hcontrol : (stepEngine v).control = s.control ++ [0b001, 0] := (strobed_stepEngine v).control
  refine ⟨_, v, _, loopTurn_a7 hs hl hp, exec_reqPause (s := s.setLoop .a8) hs true, hiter, ?_, ?_⟩
  · rw [((loopEffect_stepEngine v).trans (loopEffect_iterFromPoll _)).frame]
    rfl
  · rcases request_of_iterFromPoll (stepEngine v) with hc | ⟨hc, _⟩ <;> rw [hc, hcontrol]
    · exact ⟨[], (List.append_nil _).symm⟩
    · exact ⟨[0b100, 0], rfl⟩

end

section
/-! The owning thread's operations alone reach what they answer whole, and what the host sees inside an `INIT`
(spec/20_memory.md R57, spec/43_machine_control.md R122, R123, spec/70_reset_and_hazards.md R194). -/
namespace Sys2Proof.Machine

/-! ### `INIT` -/

/-- The state in which an `INIT` begins to write. -/
def State.beforeInit (s : State) : State := (s.setDraws (s.draws + 1)).setHostResp none

/-- An `INIT` that begins is admitted, and stands at the first byte of its first zero-fill. -/
theorem beginInit_begun {s u : State} (h : beginInit s = .next u) (hc : u.calls ≠ s.calls) :
    u = s.beforeInit.inInit s.calls s.images (.ramFill 0 s.draws) ∧ s.stopped = false
      ∧ configErrorCode s.images = none ∧ execInit s = .next (initialised s) := by
  rcases onInit_next h with ⟨q, rfl⟩ | ⟨rfl, hs, hi, hp, hl, hok⟩
  · exact absurd rfl hc
  · exact ⟨rfl, hs, hok, (onInit_admitted hs hi hp hl).1 hok⟩

/-- The copy of one whole image (R50, R123). -/
theorem callReaches_image (cs : List HostCall) {im : Images} (him : configErrorCode im = none) (b : RomBlock) {s : State}
    (hw : s.rom.wf = true) :
    ∃ m : Memory, m.wf = true
      ∧ (∀ a, m.read a =
          if inRomBlock s.cfg.params b a then ((im.bytes b)[a - (blockBase s.cfg.params b).toNat]?).getD 0
          else s.rom.read a)
      ∧ CallReaches cs.length (s.inInit cs im (.copy b 0)) ((s.setRom m).inInit cs im (nextCopy b)) := by
  have hlen := bytes_length_of_imageOk (configErrorCode_none_iff.1 him b)
  have hfit : (blockBase s.cfg.params b).toNat + 0 + (im.bytes b).length ≤ 65536 := by
    rw [hlen]
    exact legal_blocks_fit s.cfg.legal b
  obtain ⟨m, hm, hread, hr⟩ := callReaches_copy cs im b (im.bytes b) 0 s rfl hw hfit
  refine ⟨m, hm, fun a => ?_, hr⟩
  rw [hread, hlen]
  rfl

/-- The three copies of an `INIT`, after its zero-fills: what it loads whole. -/
theorem callReaches_images (cs : List HostCall) {im : Images} (him : configErrorCode im = none) {s : State}
    (hz : s.rom = Memory.zero) :
    CallReaches cs.length (s.inInit cs im (.copy .basic 0))
      ((s.setRom (loadedRom s.cfg.params im)).inInit cs im .flag) := by
  obtain ⟨m1, hm1, hread1, hr1⟩ := callReaches_image cs him .basic (s := s) (by rw [hz]; rfl)
  obtain ⟨m2, hm2, hread2, hr2⟩ := callReaches_image cs him .kernel (s := s.setRom m1) hm1
  obtain ⟨m3, hm3, hread3, hr3⟩ := callReaches_image cs him .chargen (s := (s.setRom m1).setRom m2) hm2
  have hloaded : m3 = loadedRom s.cfg.params im := by
    refine Memory.eq_of_read hm3 (wf_loadedRom _ _) fun a => ?_
    have hp := s.cfg.legal
    simp only [State.setRom_cfg, State.setRom_rom, hread1, hread2, hz, Memory.read_zero] at hread2 hread3
    rw [hread3]
    split
    · rename_i hc
      exact (read_loadedRom_in hp him hc).symm
    · rename_i hc
      split
      · rename_i hk
        exact (read_loadedRom_in hp him hk).symm
      · rename_i hk
        split
        · rename_i hb
          exact (read_loadedRom_in hp him hb).symm
        · rename_i hb
          refine (read_loadedRom_out hp him fun b => ?_).symm
          cases b with
          | basic => exact hb
          | kernel => exact hk
          | chargen => exact hc
  rw [← hloaded]
  exact hr1.trans (hr2.trans hr3)

/-- An `INIT`, access by access, to its end. -/
theorem callReaches_initialised {s : State} (hr : s.ram.wf = true) (hw : s.rom.wf = true)
    (him : configErrorCode s.images = none) :
    CallReaches s.calls.length (s.beforeInit.inInit s.calls s.images (.ramFill 0 s.draws)) (initialised s) :=
  (callReaches_fills s.calls s.images s.draws s.beforeInit hr hw).trans
    ((callReaches_images s.calls him rfl).trans callReaches_initEnd)

/-! ### What the host sees inside it -/

/-- The position of an address in a zero-fill. -/
def fillPos (order : Nat) (a : Addr) : Nat := ((Config.fillOrder order).symm a).toNat

theorem fillPos_ne {order : Nat} {a b : Addr} (h : a ≠ b) : fillPos order a ≠ fillPos order b :=
  fun he => h ((Config.fillOrder order).symm.injective (BitVec.eq_of_toNat_eq he))

/-- After the byte visited first of two, the other still holds what it held (R194). -/
theorem callTurns_torn {s : State} (cs : List HostCall) (im : Images) (order : Nat) (hr : s.ram.wf = true) {a b : Addr}
    (h : fillPos order a < fillPos order b) :
    ∃ n, (callTurns cs.length n (s.inInit cs im (.ramFill 0 order))).readRam a = 0
      ∧ (callTurns cs.length n (s.inInit cs im (.ramFill 0 order))).readRam b = s.readRam b := by
  have hlt : fillPos order a < 65536 := ((Config.fillOrder order).symm a).isLt
  obtain ⟨m, _, hread, n, hn⟩ := callReaches_ramFill cs im order (fillPos order a + 1) 0 s (by omega) hr
  refine ⟨n, ?_, ?_⟩ <;> rw [← hn]
  · refine (hread a).trans (if_pos ⟨Nat.zero_le _, ?_⟩)
    change fillPos order a < _
    omega
  · refine (hread b).trans (if_neg fun hb => ?_)
    have hb' : fillPos order b < 0 + (fillPos order a + 1) := hb.2
    omega

theorem hostInInit_inInit (s : State) (cs : List HostCall) (im : Images) (pos : InitPos) :
    (s.inInit cs im pos).hostInInit = true := by
  simp [State.hostInInit, State.inInit, HostCall.isInit]

/-- The last byte of the character generator's block, and that it is no byte of another block (R7). -/
theorem chargen_last {p : Params} (h : p.legal = true) : inRomBlock p .chargen (p.chargenBase + 4095).toNat := by
  have hfit := legal_blocks_fit h .chargen
  have hle : p.chargenBase.toNat + 4096 ≤ 65536 := hfit
  have hn : (p.chargenBase + 4095).toNat = p.chargenBase.toNat + 4095 := by
    rw [BitVec.toNat_add]
    exact Nat.mod_eq_of_lt (by simp; omega)
  rw [hn]
  exact ⟨Nat.le_add_right _ _, Nat.add_lt_add_left (by decide) _⟩

/-- After the copy of BASIC its first byte is in `ROM` and the last of the character generator is not. -/
theorem callTurns_halfLoaded {s : State} (cs : List HostCall) {im : Images} (him : configErrorCode im = none) (order : Nat)
    (hr : s.ram.wf = true) (hw : s.rom.wf = true) :
    ∃ n, (callTurns cs.length n (s.inInit cs im (.ramFill 0 order))).readRom s.cfg.params.basicBase =
        (im.bytes .basic)[0]?.getD 0
      ∧ (callTurns cs.length n (s.inInit cs im (.ramFill 0 order))).readRom (s.cfg.params.chargenBase + 4095) = 0
      ∧ (callTurns cs.length n (s.inInit cs im (.ramFill 0 order))).hostInInit = true := by
  have hfills := callReaches_fills cs im order s hr hw
  obtain ⟨m, _, hread, hcopy⟩ := callReaches_image cs him .basic
    (s := ((s.setRam Memory.zero).setDraws (s.draws + 1)).setRom Memory.zero) rfl
  obtain ⟨n, hn⟩ := hfills.trans hcopy
  refine ⟨n, ?_, ?_, ?_⟩ <;> rw [← hn]
  · refine (hread _).trans ((if_pos ⟨Nat.le_refl _, Nat.lt_add_of_pos_right (by decide)⟩).trans ?_)
    exact congrArg (fun k => (im.bytes .basic)[k]?.getD 0) (Nat.sub_self _)
  · refine (hread _).trans (if_neg fun hb => ?_)
    cases legal_blocks_apart s.cfg.legal hb (chargen_last s.cfg.legal)
  · exact hostInInit_inInit _ _ _ _

/-- The host's own turns neither stop the block nor begin a wait. -/
theorem callTurns_flags (k n : Nat) (s : State) :
    (callTurns k n s).stopped = s.stopped ∧ (callTurns k n s).waitStop = s.waitStop := by
  induction n generalizing s with
  | zero => exact ⟨rfl, rfl⟩
  | succ n ih =>
    have hf := (hostEffect_callTurn k s).frame
    obtain ⟨h1, h2⟩ := ih (callTurn k s)
    refine ⟨h1.trans ?_, h2.trans ?_⟩ <;> rw [hf]

/-- A script line first in the inbox is its operation (R67, R82). -/
theorem step_scriptLine (i : Instr) (rest : List Event) {s : State} (hw : i.source = .host → s.waitStop = false)
    (hn : i = .init → s.hostInInit = false) : step (s.setInbox (scriptLine i :: rest)) = exec i (s.setInbox rest) :=
  step_line (s := s.setInbox (scriptLine i :: rest)) rfl (encodeThenDecode i) rfl hw fun h => .inl (hn h)

/-! ### `nmi` and `KEY_SCAN` -/

theorem beginRun_calls_length (op : EngineOp) (s : State) : (beginRun op s).2.calls.length = s.calls.length := by
  unfold beginRun
  split
  · exact disturbCalls_length _ _
  · rfl

theorem beginRun_fresh (op : EngineOp) (s : State) : (beginRun op s).1.bus = .idle ∧ (beginRun op s).1.answers = [] := by
  unfold beginRun
  split <;> exact ⟨rfl, rfl⟩

theorem beginRun_cfg (op : EngineOp) (s : State) : (beginRun op s).2.cfg = s.cfg := by
  rw [beginRun_state]

/-- An `nmi`, access by access, to its end, whether it overlaps or not (R122, R197). -/
theorem callReaches_hostNmi (s : State) : CallReaches s.calls.length (beginNmi s) (hostNmi s) := by
  obtain ⟨hbus, hans⟩ := beginRun_fresh .nmi s
  have hrun := runReaches_prog (engineProg s.cfg.engine (beginRun .nmi s).1.prog) (beginRun .nmi s).2 (beginRun .nmi s).1
    hbus (by rw [hans, beginRun_cfg, remaining_nil])
  have h := callReaches_nmi hrun (beginRun .nmi s).2.calls
  have hcalls : (hostNmi s).calls = (beginRun .nmi s).2.calls := by
    rw [hostNmi, runWhole, progEffect_runProg]
  rw [beginRun_calls_length, ← hcalls] at h
  rw [beginNmi, ← hcalls]
  exact h

end Sys2Proof.Machine

open Sys2Proof Sys2Proof.Machine

/-- Settles O51: the zero-fills, the three copies and the flag of an `INIT` that is admitted. -/
theorem initIsItsTurns : Obligations.InitIsItsTurns := by
  intro s u hr hw h hc
  obtain ⟨rfl, _, him, hexec⟩ := beginInit_begun h hc
  obtain ⟨n, hn⟩ := callReaches_initialised hr hw him
  exact ⟨n, hn ▸ hexec⟩

/-- Settles O58, by the accesses of each to its end. -/
theorem nmiAndKeyScanAreTheirTurns : Obligations.NmiAndKeyScanAreTheirTurns := by
  refine ⟨callReaches_hostNmi, fun s m hs => ?_⟩
  obtain ⟨n, hn⟩ := callReaches_keyScan m s.calls (s.setHostResp none) 8 0 0xFF rfl
  exact ⟨_, n, onHost_of_running hs _, (onHost_of_running hs _).trans (congrArg _ hn)⟩

/-- Settles O59: the torn views by how far the `INIT` has come, and the peeks as host commands that nothing holds. -/
theorem hostSeesInitHalfDone : Obligations.HostSeesInitHalfDone := by
  intro s u hr hw hwait h hc
  obtain ⟨rfl, hs, him, _⟩ := beginInit_begun h hc
  refine ⟨fun a b hab => ?_, callTurns_halfLoaded (s := s.beforeInit) s.calls him s.draws hr hw, fun n c rest t ht => ?_⟩
  · rcases Nat.lt_or_gt_of_ne (fillPos_ne (order := s.draws) hab) with hlt | hlt
    · obtain ⟨n, hn⟩ := callTurns_torn (s := s.beforeInit) s.calls s.images s.draws hr hlt
      exact ⟨n, .inl hn⟩
    · obtain ⟨n, hn⟩ := callTurns_torn (s := s.beforeInit) s.calls s.images s.draws hr hlt
      exact ⟨n, .inr hn⟩
  · obtain ⟨hstopped, hwaiting⟩ := callTurns_flags s.calls.length n (s.beforeInit.inInit s.calls s.images (.ramFill 0 s.draws))
    rw [← ht] at hstopped hwaiting
    have hs' : t.stopped = false := hstopped.trans hs
    have hw' : t.waitStop = false := hwaiting.trans hwait
    exact ⟨(step_scriptLine (.peekRam c) rest (fun _ => hw') nofun).trans (exec_peekRam (s := t.setInbox rest) hs' c),
      (step_scriptLine (.peekRom c) rest (fun _ => hw') nofun).trans (exec_peekRom (s := t.setInbox rest) hs' c)⟩

end

section
/-! The boot contract (spec/70_reset_and_hazards.md R186). -/
namespace Sys2Proof.Machine

theorem run_of_step {M : Host.Core} {s u : M.State} (h : M.step s = .next u) (k : Nat) : M.run (k + 1) s = M.run k u := by
  rw [Host.Core.run, h]

theorem run_succ {s u : State} (h : step s = .next u) (k : Nat) : core.run (k + 1) s = core.run k u :=
  run_of_step (M := core) h k

/-- The paused reset iteration of a boot: the reset served, once, and nothing else of the block but time (R137). -/
theorem exec_iter_pausedReset {s : State} (hs : s.stopped = false) (hl : s.loop = .top) (hq : s.fQuit = false)
    (hr : s.fReset = true) (hp : s.fPaused = true) :
    ∃ t, exec .iter s = .next t ∧ LoopEffect s t ∧ t.fReset = false ∧ t.control = s.control ++ [0b010, 0] := by
  have hu := strobed_resetServed s
  refine ⟨_, exec_iter_reset hs hl hq hr, (loopEffect_clearRam s _).trans (loopEffect_iterFromA4 _), iterFromA6_fReset _, ?_⟩
  rw [iterFromA6_paused (hu.paused.trans hp), iterFromReload_control, hu.control]
  rfl

end Sys2Proof.Machine

open Sys2Proof Sys2Proof.Machine

/-- Settles O57, step by step through the script. -/
theorem bootReachesRunning : Obligations.BootReachesRunning := by
  intro s im hin hwait hfree hl hs hq hi hp him
  have hok := configErrorCode_none_iff.2 him
  have hstep : s.loopInStep = false := by rw [State.loopInStep, hl]
  let s1 := s.setImages im
  let s2 := initialised s1
  let s3 := (s2.setReset true).respondHost (okResponse 0)
  let r3 : List Event := [scriptLine (.reqPause false)]
  let r2 := scriptLine .iter :: r3
  let r1 := scriptLine .reqReset :: r2
  have h1 : step s = .next (s1.setInbox (scriptLine .init :: r1)) := step_of_done (nextEvent_taken hin (fun _ => hwait) nofun)
  have h2 : step (s1.setInbox (scriptLine .init :: r1)) = .next (s2.setInbox r1) :=
    (step_scriptLine .init r1 (s := s1) (fun _ => hwait) fun _ => hfree).trans
      ((onInit_admitted (s := s1.setInbox r1) hs hi hp hstep).1 hok)
  have h3 : step (s2.setInbox r1) = .next (s3.setInbox r2) :=
    (step_scriptLine .reqReset r2 (s := s2) (fun _ => hwait) nofun).trans (exec_reqReset (s := s2.setInbox r2) hs)
  obtain ⟨s4, hiter, he, hreset, hcontrol⟩ := exec_iter_pausedReset (s := s3.setInbox r3) hs hl hq rfl hp
  have h4 : step (s3.setInbox r2) = .next s4 := (step_scriptLine .iter r3 nofun nofun).trans hiter
  have hf := he.frame
  have hs4 : s4.stopped = false := by rw [hf]; exact hs
  have hin4 : s4 = s4.setInbox r3 := by rw [hf]; rfl
  have h5 : step s4 = .next (((s4.setInbox []).setPaused false).respondHost (okResponse 0)) := by
    rw [hin4]
    exact (step_scriptLine (.reqPause false) [] (fun _ => he.waitStop.trans hwait) nofun).trans
      (exec_reqPause (s := s4.setInbox []) hs4 false)
  refine ⟨⟨s2.setInbox r1, ?_, rfl, rfl⟩, ((s4.setInbox []).setPaused false).respondHost (okResponse 0), ?_,
    fsm_running hs4 rfl, ?_, hreset, rfl, ?_, hcontrol⟩
  · rw [run_succ h1, run_succ h2]
    rfl
  · rw [run_succ h1, run_succ h2, run_succ h3, run_succ h4, run_succ h5]
    rfl
  · change s4.inited = true
    rw [hf]
    rfl
  · change s4.rom = _
    rw [hf]
    rfl

end

section
/-! When a step is refused: one condition per piece of work that can refuse, and the step that comes to it
(spec/60_exceptions.md R152, spec/93_implementation_defined.md U1, U15, spec/30_encoding.md R75). -/
namespace Sys2Proof.Machine

/-! ### Tests on the way to a refusal -/

section
variable {c : Prop} [Decidable c] {u : State} {k : Host.Outcome State Fault Refusal} {r q : Refusal}

theorem ite_next_eq_refused : (if c then .next u else k) = .refused r ↔ ¬ c ∧ k = .refused r := by
  split <;> simp [*]

theorem ite_refused_eq_refused : (if c then .refused q else k) = .refused r ↔ (c ∧ r = q) ∨ (¬ c ∧ k = .refused r) := by
  split <;> simp [*, eq_comm]

theorem ite_refused_next_eq_refused :
    (if c then .refused q else (.next u : Host.Outcome State Fault Refusal)) = .refused r ↔ c ∧ r = q := by
  rw [ite_refused_eq_refused]
  simp

end

section
variable {s : State} {k : Host.Outcome State Fault Refusal} {r : Refusal}

/-! ### The iteration and the loop thread's turns -/

theorem iterFromA8_eq_refused : iterFromA8 s = .refused r ↔ s.hostInInit = true ∧ r = .initDuringStep :=
  ite_refused_next_eq_refused

theorem iterFromA7_eq_refused :
    iterFromA7 s = .refused r ↔ s.fPaused = false ∧ s.hostInInit = true ∧ r = .initDuringStep := by
  rw [iterFromA7, ite_next_eq_refused, iterFromA8_eq_refused, Bool.not_eq_true]

theorem iterFromA2_eq_refused :
    iterFromA2 s = .refused r ↔
      s.fReset = false ∧ s.fPaused = false ∧ s.hostInInit = true ∧ r = .initDuringStep := by
  rw [iterFromA2, ite_next_eq_refused, iterFromA7_eq_refused, Bool.not_eq_true]

theorem iterFromA1_eq_refused :
    iterFromA1 s = .refused r ↔
      s.fQuit = false ∧ s.fReset = false ∧ s.fPaused = false ∧ s.hostInInit = true ∧ r = .initDuringStep := by
  rw [iterFromA1, ite_next_eq_refused, iterFromA2_eq_refused, Bool.not_eq_true]

theorem iterFromStart_eq_refused {op : EngineOp} :
    iterFromStart op s = .refused r ↔ (op = .step ∧ s.hostInInit = true) ∧ r = .initDuringStep := by
  rw [iterFromStart, ite_refused_next_eq_refused, Bool.and_eq_true, beq_iff_eq]

theorem startTurn_eq_refused {op : EngineOp} :
    startTurn op s = .refused r ↔ (op = .step ∧ s.hostInInit = true) ∧ r = .initDuringStep := by
  rw [startTurn, ite_refused_next_eq_refused, Bool.and_eq_true, beq_iff_eq]

/-- An iteration is refused just where it would begin an engine step during an `INIT` (U1). -/
theorem iterate_eq_refused :
    iterate s = .refused r ↔
      s.stopped = false ∧ s.iterBeginsStep = true ∧ s.hostInInit = true ∧ r = .initDuringStep := by
  rw [iterate, ite_next_eq_refused, Bool.not_eq_true, State.iterBeginsStep]
  refine and_congr_right fun _ => ?_
  cases s.loop with
  | top =>
    simp only [iterFromA1_eq_refused, Bool.and_eq_true, Bool.not_eq_true']
    tauto
  | a2 =>
    simp only [iterFromA2_eq_refused, Bool.and_eq_true, Bool.not_eq_true']
    tauto
  | a7 =>
    simp only [iterFromA7_eq_refused, Bool.not_eq_true']
  | a8 => simp only [iterFromA8_eq_refused, true_and]
  | start op => simp only [iterFromStart_eq_refused, beq_iff_eq, and_assoc]
  | _ => simp only [reduceCtorEq, Bool.false_eq_true, false_and]

/-- A turn of the loop thread is refused just at the strobe of A8 during an `INIT`. -/
theorem loopTurn_eq_refused :
    loopTurn s = .refused r ↔
      s.stopped = false ∧ s.loop = .start .step ∧ s.hostInInit = true ∧ r = .initDuringStep := by
  rw [loopTurn, ite_next_eq_refused, Bool.not_eq_true]
  refine and_congr_right fun _ => ?_
  cases s.loop with
  | start op => simp only [startTurn_eq_refused, LoopPos.start.injEq, and_assoc]
  | _ => simp only [reduceCtorEq, false_and]

/-! ### Host commands, strobes and inputs -/

theorem onHost_next_ne_refused {u : State} : s.onHost (.next u) ≠ .refused r := by
  rw [State.onHost, Ne, ite_next_eq_refused]
  nofun

/-- An `INIT` is refused just where it is admitted and meets an engine step (R124, U1). -/
theorem onInit_eq_refused {u : State} :
    s.onInit u = .refused r ↔
      s.stopped = false ∧ s.inited = false ∧ s.fPaused = true ∧ s.loopInStep = true ∧ r = .initDuringStep := by
  rw [State.onInit, State.onHost, ite_next_eq_refused, ite_next_eq_refused, ite_refused_eq_refused]
  cases configErrorCode s.images <;>
    simp only [reduceCtorEq, and_false, or_false, Bool.not_eq_true, Bool.or_eq_false_iff, Bool.not_eq_false', and_assoc]

theorem onControl_eq_refused :
    s.onControl k = .refused r ↔
      s.stopped = false
        ∧ ((s.strobeActive = true ∧ r = .strobeActive) ∨ (s.strobeActive = false ∧ k = .refused r)) := by
  rw [State.onControl, ite_next_eq_refused, ite_refused_eq_refused, Bool.not_eq_true, Bool.not_eq_true]

theorem presentTime_eq_refused {x : Nat} :
    s.presentTime x = .refused r ↔ x < s.clock ∧ r = .clockSteppedBack := by
  rw [State.presentTime, ite_next_eq_refused, Nat.not_le, Host.Outcome.refused.injEq, eq_comm]

theorem refuseWord_eq_refused {src : Source} :
    s.refuseWord src = .refused r ↔ (src = .sequencer ∨ src = .control) ∧ r = .notOnThisLine := by
  cases src <;> simp only [State.refuseWord, reduceCtorEq, or_self, or_true, true_or, false_and, true_and,
    Host.Outcome.refused.injEq, eq_comm (a := r)]

/-- Why an operation is refused. -/
inductive ExecRefused (s : State) : Instr → Refusal → Prop where
  | init (hs : s.stopped = false) (hi : s.inited = false) (hp : s.fPaused = true) (hl : s.loopInStep = true) :
      ExecRefused s .init .initDuringStep
  | iter (hs : s.stopped = false) (hb : s.iterBeginsStep = true) (hn : s.hostInInit = true) :
      ExecRefused s .iter .initDuringStep
  | engStep (hs : s.stopped = false) (ha : s.strobeActive = false) (hn : s.hostInInit = true) :
      ExecRefused s .engStep .initDuringStep
  | strobe (i : Instr) (hi : i.source = .control) (hs : s.stopped = false) (ha : s.strobeActive = true) :
      ExecRefused s i .strobeActive

theorem execRefused_of_strobe {i : Instr} {u : State} (hi : i.source = .control)
    (h : s.onControl (.next u) = .refused r) : ExecRefused s i r := by
  obtain ⟨hs, ⟨ha, rfl⟩ | ⟨_, hk⟩⟩ := onControl_eq_refused.1 h
  · exact .strobe i hi hs ha
  · cases hk

theorem exec_eq_refused {i : Instr} : exec i s = .refused r ↔ ExecRefused s i r := by
  constructor
  · intro h
    cases i with
    | busRead a => cases h
    | busWrite a v => cases h
    | init =>
      obtain ⟨hs, hi, hp, hl, rfl⟩ := onInit_eq_refused.1 h
      exact .init hs hi hp hl
    | iter =>
      obtain ⟨hs, hb, hn, rfl⟩ := iterate_eq_refused.1 h
      exact .iter hs hb hn
    | engStep =>
      obtain ⟨hs, ⟨ha, rfl⟩ | ⟨ha, hk⟩⟩ := onControl_eq_refused.1 h
      · exact .strobe _ rfl hs ha
      · obtain ⟨hn, rfl⟩ := ite_refused_next_eq_refused.1 hk
        exact .engStep hs ha hn
    | engReset => exact execRefused_of_strobe rfl h
    | engIrq => exact execRefused_of_strobe rfl h
    | _ => exact absurd h onHost_next_ne_refused
  · intro h
    cases h with
    | init hs hi hp hl => exact onInit_eq_refused.2 ⟨hs, hi, hp, hl, rfl⟩
    | iter hs hb hn => exact iterate_eq_refused.2 ⟨hs, hb, hn, rfl⟩
    | engStep hs ha hn => exact onControl_eq_refused.2 ⟨hs, .inr ⟨ha, ite_refused_next_eq_refused.2 ⟨hn, rfl⟩⟩⟩
    | strobe _ hi hs ha =>
      have hstrobe : ∀ k, s.onControl k = .refused .strobeActive := fun k => onControl_eq_refused.2 ⟨hs, .inl ⟨ha, rfl⟩⟩
      cases i with
      | engStep => exact hstrobe _
      | engReset => exact hstrobe _
      | engIrq => exact hstrobe _
      | _ => cases hi

/-! ### A word -/

/-- A word is refused as no word of its place: it decodes to no operation of it, nor to the idle strobe of the engine-control port
(R75, R77). -/
theorem onLine_eq_refuseWord {src : Source} {raw : RawWord} (hbad : ∀ i, decode raw = .ok i → i.source ≠ src)
    (hidle : ¬ (src = .control ∧ decode raw = .error .idleStrobe)) (s : State) :
    onLine src raw s = .done (s.refuseWord src) := by
  unfold onLine
  cases hd : decode raw with
  | ok i => exact if_neg (by simpa [Instr.wellFormedOn] using hbad i hd)
  | error e =>
    refine if_neg fun h => hidle ?_
    simp only [Bool.and_eq_true, beq_iff_eq] at h
    exact ⟨h.1, h.2 ▸ hd⟩

/-- What a word is: an operation of its place, the idle strobe, or refused as no word of its place. -/
theorem onLine_kinds (src : Source) (raw : RawWord) (s : State) :
    (∃ i, decode raw = .ok i ∧ i.source = src ∧ onLine src raw s = .run i s)
      ∨ onLine src raw s = .done (.next s)
      ∨ ((∀ i, decode raw = .ok i → i.source ≠ src) ∧ ¬ (src = .control ∧ decode raw = .error .idleStrobe)
        ∧ onLine src raw s = .done (s.refuseWord src)) := by
  by_cases hop : ∃ i, decode raw = .ok i ∧ i.source = src
  · obtain ⟨i, hd, hi⟩ := hop
    exact .inl ⟨i, hd, hi, onLine_of_decode hd hi s⟩
  · have hbad : ∀ i, decode raw = .ok i → i.source ≠ src := fun i hd hi => hop ⟨i, hd, hi⟩
    by_cases hidle : src = .control ∧ decode raw = .error .idleStrobe
    · obtain ⟨rfl, hd⟩ := hidle
      exact .inr (.inl (by simp [onLine, hd]))
    · exact .inr (.inr ⟨hbad, hidle, onLine_eq_refuseWord hbad hidle s⟩)

/-! ### A step -/

/-- The step is an `ITER` wherever one is next. -/
theorem step_of_iterNext (h : s.iterNext) : ∃ x, step s = iterate (s.setInbox x) := by
  rcases h with hin | ⟨ev, rest, hin, hb, hw⟩ | ⟨raw, rest, hin, hd⟩
  · exact ⟨s.inbox, step_of_run (nextEvent_nil hin)⟩
  · exact ⟨s.inbox, step_of_run (nextEvent_awaitStop hin hb hw)⟩
  · exact ⟨rest, step_line hin hd rfl nofun nofun⟩

/-- The two ways an `INIT` is begun by the next event. -/
def State.initNext (s : State) : Prop :=
  ∃ rest, s.inbox = .beginInit :: rest ∨ ∃ raw, s.inbox = .line .host raw :: rest ∧ decode raw = .ok .init

/-- An `INIT` that is next and not held. -/
theorem step_of_initNext (h : s.initNext) (hw : s.waitStop = false) (hn : s.hostInInit = false) :
    ∃ x u, step s = (s.setInbox x).onInit u := by
  obtain ⟨rest, hin | ⟨raw, hin, hd⟩⟩ := h
  · exact ⟨rest, _, step_of_done (nextEvent_taken hin (fun _ => hw) fun _ => .inl hn)⟩
  · exact ⟨rest, _, step_line hin hd rfl (fun _ => hw) fun _ => .inl hn⟩

end

/-- Why a step is refused. -/
inductive StepRefused (s : State) : Refusal → Prop where
  | iter (hs : s.stopped = false) (hn : s.hostInInit = true) (h : s.iterNext) (hb : s.iterBeginsStep = true) :
      StepRefused s .initDuringStep
  | loopTurn (hs : s.stopped = false) (hn : s.hostInInit = true) (rest : List Event) (h : s.inbox = .loopTurn :: rest)
      (hl : s.loop = .start .step) : StepRefused s .initDuringStep
  | engStep (hs : s.stopped = false) (hn : s.hostInInit = true) (ha : s.strobeActive = false) (raw : RawWord)
      (rest : List Event) (h : s.inbox = .line .control raw :: rest) (hd : decode raw = .ok .engStep) :
      StepRefused s .initDuringStep
  | init (hs : s.stopped = false) (hn : s.hostInInit = false) (hw : s.waitStop = false) (hl : s.loopInStep = true)
      (hp : s.fPaused = true) (hi : s.inited = false) (h : s.initNext) : StepRefused s .initDuringStep
  | word (src : Source) (raw : RawWord) (rest : List Event) (h : s.inbox = .line src raw :: rest)
      (hsrc : src = .sequencer ∨ src = .control) (hbad : ∀ i, decode raw = .ok i → i.source ≠ src)
      (hidle : ¬ (src = .control ∧ decode raw = .error .idleStrobe)) : StepRefused s .notOnThisLine
  | now (x : Nat) (rest : List Event) (h : s.inbox = .now x :: rest) (hx : x < s.clock) : StepRefused s .clockSteppedBack
  | strobe (hs : s.stopped = false) (ha : s.strobeActive = true) (raw : RawWord) (rest : List Event) (i : Instr)
      (h : s.inbox = .line .control raw :: rest) (hd : decode raw = .ok i) (hi : i.source = .control) :
      StepRefused s .strobeActive

/-- A word that is refused, taken from the inbox. -/
theorem stepRefused_line {s : State} {r : Refusal} {src : Source} {raw : RawWord} {rest : List Event}
    (hin : s.inbox = .line src raw :: rest) (hw : src = .host → s.waitStop = false)
    (hn : (Event.line src raw).startsInit = true → s.hostInInit = false ∨ s.stopped = true)
    (hnext : nextEvent s = onLine src raw (s.setInbox rest)) (h : step s = .refused r) : StepRefused s r := by
  rcases onLine_kinds src raw (s.setInbox rest) with ⟨i, hd, hi, he⟩ | he | ⟨hbad, hidle, he⟩
  · rw [step_of_run (hnext.trans he), exec_eq_refused] at h
    cases h with
    | init hs hini hp hl =>
      have hfree := (hn ((startsInit_line hd hi).2 rfl)).resolve_right (by simpa using hs)
      cases hi
      exact .init hs hfree (hw rfl) hl hp hini ⟨rest, .inr ⟨raw, hin, hd⟩⟩
    | iter hs hb hinit =>
      cases hi
      exact .iter hs hinit (.inr (.inr ⟨raw, rest, hin, hd⟩)) hb
    | engStep hs ha hinit =>
      cases hi
      exact .engStep hs hinit ha raw rest hin hd
    | strobe _ hc hs ha =>
      cases hi.symm.trans hc
      exact .strobe hs ha raw rest i hin hd hc
  · rw [step_of_done (hnext.trans he)] at h
    cases h
  · rw [step_of_done (hnext.trans he), refuseWord_eq_refused] at h
    obtain ⟨hsrc, rfl⟩ := h
    exact .word src raw rest hin hsrc hbad hidle

theorem stepRefused_of_iterate {s : State} {r : Refusal} (hnext : s.iterNext) (h : iterate s = .refused r) :
    StepRefused s r := by
  obtain ⟨hs, hb, hn, rfl⟩ := iterate_eq_refused.1 h
  exact .iter hs hn hnext hb

/-- An event that is taken from the inbox and refused. -/
theorem stepRefused_taken {s : State} {r : Refusal} {ev : Event} {rest : List Event} (hin : s.inbox = ev :: rest)
    (hw : ev.byHost = true → s.waitStop = false) (hn : ev.startsInit = true → s.hostInInit = false ∨ s.stopped = true)
    (h : step s = .refused r) : StepRefused s r := by
  have hnext := nextEvent_taken hin hw hn
  cases ev with
  | line src raw => exact stepRefused_line hin (fun hh => hw (beq_iff_eq.2 hh)) hn hnext h
  | images im => cases (step_of_done hnext).symm.trans h
  | nmi => cases (step_of_done hnext).symm.trans h
  | beginNmi => cases (step_of_done hnext).symm.trans h
  | callTurn k => cases (step_of_done hnext).symm.trans h
  | beginKeyScan m => exact absurd ((step_of_done hnext).symm.trans h) onHost_next_ne_refused
  | now x =>
    obtain ⟨hx, rfl⟩ := presentTime_eq_refused.1 ((step_of_done hnext).symm.trans h)
    exact .now x rest hin hx
  | loopTurn =>
    obtain ⟨hs, hl, hn, rfl⟩ := loopTurn_eq_refused.1 ((step_of_done hnext).symm.trans h)
    exact .loopTurn hs hn rest hin hl
  | beginInit =>
    obtain ⟨hs, hi, hp, hl, rfl⟩ := onInit_eq_refused.1 ((step_of_done hnext).symm.trans h)
    have hfree := (hn rfl).resolve_right (by simpa using hs)
    exact .init hs hfree (hw rfl) hl hp hi ⟨rest, .inl hin⟩

/-- A step is refused for no other reason. -/
theorem stepRefused_of_step {s : State} {r : Refusal} (h : step s = .refused r) : StepRefused s r := by
  cases hin : s.inbox with
  | nil => exact stepRefused_of_iterate (.inl hin) ((step_of_run (nextEvent_nil hin)).symm.trans h)
  | cons ev rest =>
    by_cases hb : ev.byHost = true ∧ s.waitStop = true
    · exact stepRefused_of_iterate (.inr (.inl ⟨ev, rest, hin, hb⟩))
        ((step_of_run (nextEvent_awaitStop hin hb.1 hb.2)).symm.trans h)
    · have hw : ev.byHost = true → s.waitStop = false := fun hh => by simpa [hh] using hb
      by_cases hn : ev.startsInit = true → s.hostInInit = false ∨ s.stopped = true
      · exact stepRefused_taken hin hw hn h
      · simp only [Classical.not_imp, not_or, Bool.not_eq_false, Bool.not_eq_true] at hn
        obtain ⟨hstarts, hinit, hs⟩ := hn
        have hhost : ev.byHost = true := by
          cases ev with
          | line src raw => exact (Bool.and_eq_true _ _ ▸ hstarts : _ ∧ _).1
          | beginInit => rfl
          | _ => cases hstarts
        cases (step_of_done (nextEvent_awaitInit hin hstarts (hw hhost) hinit hs)).symm.trans h

/-- And for each of these reasons it is. -/
theorem step_of_stepRefused {s : State} {r : Refusal} (h : StepRefused s r) : step s = .refused r := by
  cases h with
  | iter hs hn h hb =>
    obtain ⟨x, hx⟩ := step_of_iterNext h
    exact hx.trans (iterate_eq_refused.2 ⟨hs, hb, hn, rfl⟩)
  | loopTurn hs hn rest h hl =>
    exact (step_of_done (nextEvent_taken h nofun nofun)).trans (loopTurn_eq_refused.2 ⟨hs, hl, hn, rfl⟩)
  | engStep hs hn ha raw rest h hd =>
    exact (step_line h hd rfl nofun nofun).trans (exec_eq_refused.2 (.engStep hs ha hn))
  | init hs hn hw hl hp hi h =>
    obtain ⟨x, u, hx⟩ := step_of_initNext h hw hn
    exact hx.trans (onInit_eq_refused.2 ⟨hs, hi, hp, hl, rfl⟩)
  | word src raw rest h hsrc hbad hidle =>
    have hhost : (Event.line src raw).byHost = true → s.waitStop = false := fun hh => by
      rcases hsrc with rfl | rfl <;> cases hh
    have hstarts := startsInit_eq_false hbad
    refine (step_of_done ((nextEvent_taken h hhost fun hh => ?_).trans (onLine_eq_refuseWord hbad hidle _))).trans
      (refuseWord_eq_refused.2 ⟨hsrc, rfl⟩)
    cases hstarts.symm.trans hh
  | now x rest h hx =>
    exact (step_of_done (nextEvent_taken h nofun nofun)).trans (presentTime_eq_refused.2 ⟨hx, rfl⟩)
  | strobe hs ha raw rest i h hd hi =>
    refine (step_line h hd hi nofun fun hh => ?_).trans (exec_eq_refused.2 (.strobe i hi hs ha))
    rw [hh] at hi
    cases hi

end Sys2Proof.Machine

open Sys2Proof Sys2Proof.Machine

/-- Settles O47: there is no fault to answer, and the reasons of a refusal are the cases listed. -/
theorem stepRefusesOnlyTheUndefined : Obligations.StepRefusesOnlyTheUndefined := by
  refine fun s => ⟨nofun, fun r => ⟨fun hr => ?_, fun h => step_of_stepRefused ?_⟩⟩
  · cases stepRefused_of_step hr with
    | iter hs hn h hb => exact .inl ⟨rfl, hs, hn, .inl ⟨h, hb⟩⟩
    | loopTurn hs hn rest h hl => exact .inl ⟨rfl, hs, hn, .inr (.inl ⟨rest, h, hl⟩)⟩
    | engStep hs hn ha raw rest h hd => exact .inl ⟨rfl, hs, hn, .inr (.inr ⟨ha, raw, rest, h, hd⟩)⟩
    | init hs hn hw hl hp hi h => exact .inr (.inl ⟨rfl, hs, hn, hw, hl, hp, hi, h⟩)
    | word src raw rest h hsrc hbad hidle => exact .inr (.inr (.inl ⟨rfl, src, raw, rest, h, hsrc, hbad, hidle⟩))
    | now x rest h hx => exact .inr (.inr (.inr (.inl ⟨rfl, x, rest, h, hx⟩)))
    | strobe hs ha raw rest i h hd hi => exact .inr (.inr (.inr (.inr ⟨rfl, hs, ha, raw, rest, i, h, hd, hi⟩)))
  · rcases h with ⟨rfl, hs, hn, h⟩ | ⟨rfl, hs, hn, hw, hl, hp, hi, h⟩ | ⟨rfl, src, raw, rest, h, hsrc, hbad, hidle⟩
        | ⟨rfl, x, rest, h, hx⟩ | ⟨rfl, hs, ha, raw, rest, i, h, hd, hi⟩
    · rcases h with ⟨h, hb⟩ | ⟨rest, h, hl⟩ | ⟨ha, raw, rest, h, hd⟩
      · exact .iter hs hn h hb
      · exact .loopTurn hs hn rest h hl
      · exact .engStep hs hn ha raw rest h hd
    · exact .init hs hn hw hl hp hi h
    · exact .word src raw rest h hsrc hbad hidle
    · exact .now x rest h hx
    · exact .strobe hs ha raw rest i h hd hi

end
